-- ==== Sys2Proof/Word.lean ====
section
/-! DEFINITION. The word and byte types and the plainest arithmetic on naturals that the rules use (00_scope.md R7, R8). -/

namespace Sys2Proof

/-- A 64-bit register value (10_state.md R22: every access moves a whole 64-bit register). -/
abbrev Word := BitVec 64

/-- One byte of the LRAM (20_memory.md R61). -/
abbrev Byte := BitVec 8

/-- `ceil(a / b)` of 00_scope.md R8: `(a + b - 1) div b`. -/
def ceilDiv (a b : Nat) : Nat := (a + b - 1) / b

end Sys2Proof
end

