-- ==== Sys2Proof/Syntax.lean ====
section
/-! DEFINITION. The commands (30_encoding.md R84), the register names (10_state.md R23), the host operations (30_encoding.md R89) and who moves next. -/

namespace Sys2Proof

/-- The commands of 30_encoding.md R84, one constructor per row of spec/opcode_table.json. A count is the `IMM` field,
0..65535 (checked by `Instr.wellFormed`). -/
inductive Instr where
  /-- `ENC7`, 40_codec.md R101. -/
  | enc7
  /-- `DEC7`, 40_codec.md R102. -/
  | dec7
  /-- `MODEXP`, 41_primality.md R120. -/
  | modexp
  /-- `MR_TEST`, 41_primality.md R124; `IMM` = rounds. -/
  | mrTest (rounds : Nat)
  /-- `PRIME_GEN`, 41_primality.md R127; `IMM` = rounds of each test. -/
  | primeGen (rounds : Nat)
  /-- `LCG_NEXT`, 42_lcg.md R151. -/
  | lcgNext
  /-- `LCG_GENN`, 42_lcg.md R152; `IMM` = n draws. -/
  | lcgGenn (n : Nat)
  /-- `BBS_INIT`, 43_bbs.md R172. -/
  | bbsInit
  /-- `BBS_NEXT`, 43_bbs.md R173. -/
  | bbsNext
  /-- `BBS_OUT`, 43_bbs.md R174; `IMM` = count of outputs. -/
  | bbsOut (count : Nat)
  /-- `GAMMA`, 44_gamma.md R190; `A` = the audit flag, 30_encoding.md R83. -/
  | gamma (audit : Bool)
deriving DecidableEq, Repr

/-- The three formats of 30_encoding.md R81. -/
inductive Format where
  | z
  | i
  | g
deriving DecidableEq, Repr

/-- The named registers of 10_state.md R23. -/
inductive Reg where
  | id | ctrl | status | cmd | cause | info0 | info1 | res0 | res1
  | src | dst | len | adst
  | lcgA | lcgB | lcgM | lcgS
  | bbsP | bbsQ | bbsN | bbsX | bbsSeed
  | mxBase | mxExp | mxMod | pgMaxIter
deriving DecidableEq, Repr

/-- The access classes of 10_state.md R23. -/
inductive Access where
  /-- RO: writes are ignored in every phase (R24). -/
  | readOnly
  /-- RW (`LCG_S` with its WARL rule R27): a write while `Busy` is dropped (R31). -/
  | operand
  /-- `CTRL`: written in every phase (R25). -/
  | control
  /-- `STATUS`: bits cleared by writing 1, in every phase (R28). -/
  | writeOneToClear
  /-- `CMD`: issues a command (R29). -/
  | command
deriving DecidableEq, Repr

/-- The host operations of 30_encoding.md R89. A register is named by its 8-bit index (10_state.md R22), so that unmapped
indices can be named too; a label is the index of a host operation. -/
inductive HostOp where
  /-- `WR <reg>, <value>`: `RegWrite(index, value)`. -/
  | wr (index : Byte) (value : Word)
  /-- `RD <reg>`: `RegRead(index)`. -/
  | rd (index : Byte)
  /-- `CMD <command>`: `RegWrite(0x03, word)`. -/
  | cmd (command : Instr)
  /-- `MW8 <addr>, <byte>`: `MemWrite8(addr, byte)`, of which the low 8 bits are written (20_memory.md R64). -/
  | mw8 (address : Nat) (value : Word)
  /-- `MR8 <addr>`: `MemRead8(addr)`. -/
  | mr8 (address : Nat)
  /-- `BRSET <reg>, <mask>, <label>`. -/
  | brset (index : Byte) (mask : Word) (label : Nat)
  /-- `BRCLR <reg>, <mask>, <label>`. -/
  | brclr (index : Byte) (mask : Word) (label : Nat)
  /-- `HALT`: the host program ends. -/
  | halt
deriving DecidableEq, Repr

/-- Who moves in a step: the host or the sequencer (00_scope.md R4), or the reset input is asserted
(70_reset_and_hazards.md R240). -/
inductive Turn where
  | host
  | sequencer
  | reset
deriving DecidableEq, Repr

end Sys2Proof
end

