-- ==== Sys2Proof/WellFormed.lean ====
section
/-! DEFINITION. Which commands and host programs are well formed: the count fits the 16-bit field `IMM` (30_encoding.md R80, R82), and a branch label is an operation of the host program or its end (30_encoding.md R89). -/

namespace Sys2Proof

/-- The count of a command, if its format has one (30_encoding.md R81, format I). -/
def Instr.count : Instr → Option Nat
  | .enc7 => none
  | .dec7 => none
  | .modexp => none
  | .mrTest rounds => some rounds
  | .primeGen rounds => some rounds
  | .lcgNext => none
  | .lcgGenn n => some n
  | .bbsInit => none
  | .bbsNext => none
  | .bbsOut count => some count
  | .gamma _ => none

/-- A command is well formed when its count is 0..65535 (30_encoding.md R81). -/
def Instr.wellFormed (i : Instr) : Bool := i.count.all (· < 65536)

/-- A host operation of a program of `size` operations: a label is at most `size` (running past the last operation is the
same as `HALT`, 30_encoding.md R89), and a command is well formed. -/
def HostOp.wellFormed (size : Nat) : HostOp → Bool
  | .wr _ _ => true
  | .rd _ => true
  | .cmd i => i.wellFormed
  | .mw8 _ _ => true
  | .mr8 _ => true
  | .brset _ _ label => label ≤ size
  | .brclr _ _ label => label ≤ size
  | .halt => true

/-- A host program is well formed when each of its operations is. -/
def hostProgramWellFormed (p : List HostOp) : Bool := p.all (·.wellFormed p.length)

end Sys2Proof
end

