-- ==== Sys2Proof/Decode.lean ====
section
/-! DEFINITION. The decoder of the value written to `CMD` (30_encoding.md R80, R81, R84, R85), total and rejecting by name, and after it the encoder written from the same map. -/

namespace Sys2Proof

/-- Why a value is an illegal command (30_encoding.md R85). -/
inductive DecodeError where
  /-- v[63:32] is not 0. -/
  | highHalf
  /-- The opcode is not in the map of 30_encoding.md R84. -/
  | opcode
  /-- A reserved field is not 0. -/
  | reservedField
deriving DecidableEq, Repr

/-- The reason number that goes into `INFO1` (30_encoding.md R85, 60_exceptions.md R212). -/
def DecodeError.reason : DecodeError → Nat
  | .highHalf => 0
  | .opcode => 1
  | .reservedField => 2

/-- `v[lo + width - 1 : lo]` of a natural (00_scope.md R7). -/
def field (v lo width : Nat) : Nat := (v >>> lo) % 2 ^ width

/-- The opcode map of 30_encoding.md R84: the format, and the command made of the fields `IMM` and `A`. -/
def opcodeRow : Nat → Option (Format × (Nat → Bool → Instr))
  | 0x10 => some (.z, fun _ _ => .enc7)
  | 0x11 => some (.z, fun _ _ => .dec7)
  | 0x20 => some (.z, fun _ _ => .modexp)
  | 0x21 => some (.i, fun imm _ => .mrTest imm)
  | 0x22 => some (.i, fun imm _ => .primeGen imm)
  | 0x30 => some (.z, fun _ _ => .lcgNext)
  | 0x31 => some (.i, fun imm _ => .lcgGenn imm)
  | 0x40 => some (.z, fun _ _ => .bbsInit)
  | 0x41 => some (.z, fun _ _ => .bbsNext)
  | 0x42 => some (.i, fun imm _ => .bbsOut imm)
  | 0x50 => some (.g, fun _ a => .gamma a)
  | _ => none

/-- Whether a field that the format reserves is not 0 (30_encoding.md R81, R85). -/
def reservedNonzero (fmt : Format) (flg imm : Nat) : Bool :=
  match fmt with
  | .z => flg != 0 || imm != 0
  | .i => flg != 0
  | .g => field flg 1 7 != 0 || imm != 0

/-- `Decode(v)` of 30_encoding.md R85, its three checks in the order given there. -/
def decode (v : Word) : Except DecodeError Instr :=
  if field v.toNat 32 32 ≠ 0 then .error .highHalf
  else
    match opcodeRow (field v.toNat 24 8) with
    | none => .error .opcode
    | some (fmt, make) =>
      if reservedNonzero fmt (field v.toNat 16 8) (field v.toNat 0 16) then .error .reservedField
      else .ok (make (field v.toNat 0 16) (v.toNat.testBit 16))

/-- The opcode, the `FLG` field and the `IMM` field of a command (30_encoding.md R81, R84). -/
def encodeFields : Instr → Nat × Nat × Nat
  | .enc7 => (0x10, 0, 0)
  | .dec7 => (0x11, 0, 0)
  | .modexp => (0x20, 0, 0)
  | .mrTest rounds => (0x21, 0, rounds)
  | .primeGen rounds => (0x22, 0, rounds)
  | .lcgNext => (0x30, 0, 0)
  | .lcgGenn n => (0x31, 0, n)
  | .bbsInit => (0x40, 0, 0)
  | .bbsNext => (0x41, 0, 0)
  | .bbsOut count => (0x42, 0, count)
  | .gamma audit => (0x50, audit.toNat, 0)

/-- The command word of a well-formed command: `OPC` in [31:24], `FLG` in [23:16], `IMM` in [15:0] (30_encoding.md R80). -/
def encode (i : Instr) : BitVec 32 :=
  BitVec.ofNat 32 ((encodeFields i).1 * 0x1000000 + (encodeFields i).2.1 * 0x10000 + (encodeFields i).2.2)

/-- The 64-bit value the host writes to `CMD` to issue a command: the word in [31:0], 0 in [63:32] (30_encoding.md R80, R86). -/
def commandValue (i : Instr) : Word := (encode i).setWidth 64

/-- What the decoder reads from an instruction of `nbits` bits whose bits are `w` (bits above `nbits` are 0). -/
def decodeTableWord (nbits w : Nat) : Option Instr :=
  match decode (BitVec.ofNat 64 (w % 2 ^ nbits)) with
  | .ok i => some i
  | .error _ => none

end Sys2Proof
end

