-- ==== Sys2Proof/Config.lean ====
section
/-! DEFINITION. The constants the source fixes (00_scope.md R5), the parameter the spec leaves to an implementation (00_scope.md R6) and the free values: what the spec leaves open has no body here. -/

namespace Sys2Proof

/-- The parameter of 00_scope.md R6 a model takes as an argument. It is carried in the state, so that a claim about every
state is a claim about every size (log entry 1). -/
structure Config where
  /-- `LRAM_BYTES`, any value 1..2^32. -/
  lramBytes : Nat
deriving DecidableEq, Repr

namespace Config

/-- The default of 00_scope.md R6: `LRAM_BYTES` = 65536. -/
def standard : Config := { lramBytes := 65536 }

/-- The range of `LRAM_BYTES` (00_scope.md R6): 1..2^32. -/
abbrev wf (c : Config) : Prop := 1 ≤ c.lramBytes ∧ c.lramBytes ≤ 2 ^ 32

/-- FREE VALUE (00_scope.md R12; log entry 3). The entropy source's answer number `k`, before it is brought into the
range of the draw. Nothing constrains it. -/
opaque freeDraw : Nat → Word

/-- FREE VALUE (10_state.md R48, 20_memory.md R73; log entry 6). What unspecified read number `k` during `Busy` returns. -/
opaque freeRead : Nat → Word

/-- FREE VALUE (20_memory.md R61, 70_reset_and_hazards.md R242; log entry 2). What the LRAM byte at an address reads as
when nothing has written it since reset number `epoch`. -/
opaque lramReset : (epoch : Nat) → (address : Nat) → Byte

/-- `LCG_MOD` = 2^20 (00_scope.md R5). -/
def lcgMod : Nat := 0x100000

/-- `SYM_MAX` = 127, the largest legal symbol (00_scope.md R5). -/
def symMax : Nat := 127

/-- `SYM_BITS` = 7 (00_scope.md R5). -/
def symBits : Nat := 7

/-- `DRAWS_PER_ROUND` = 7 (00_scope.md R5). -/
def drawsPerRound : Nat := 7

/-- `OUTS_PER_ROUND` = 5 (00_scope.md R5). -/
def outsPerRound : Nat := 5

/-- `OUT_BITS` = 64 (00_scope.md R5). -/
def outBits : Nat := 64

/-- `ROUND_BITS` = 320 (00_scope.md R5). -/
def roundBits : Nat := 320

/-- `PQ_LIMIT` = 2^32 (00_scope.md R6). -/
def pqLimit : Nat := 0x100000000

/-- `SMALL_PRIMES` (00_scope.md R5), in increasing order. -/
def smallPrimes : List Nat := [2, 3, 5, 7, 11, 13, 17, 19, 23, 29]

/-- The value register `ID` always reads (10_state.md R21). -/
def idValue : Word := 0x4242533100000007#64

/-- The reset value of `PG_MAXITER` (10_state.md R44). -/
def pgMaxIterReset : Word := 100000#64

end Config

end Sys2Proof
end

