-- ==== Sys2Proof/Machine/State.lean ====
section
/-! DEFINITION. Everything the spec gives the machine (10_state.md, 20_memory.md, the host agent of 30_encoding.md R89), as plain data, and its value after reset (10_state.md R47, 70_reset_and_hazards.md R240). -/

namespace Sys2Proof.Machine

/-- Reasons for the machine to stop. There are none, and so this type has no constructor: a fault of the spec is an
exception the unit takes and survives (60_exceptions.md R214), a host operation never faults (R210) and the unit never
hangs (R228). Safe: no behaviour is cut off (log entry 19). -/
inductive Fault where
deriving DecidableEq, Repr

/-- Reasons for the model to have no answer. -/
inductive Refusal where
  /-- Raised by an arm of `exec` whose command has no meaning yet, with the command's mnemonic. No arm of this model
  raises it. Safe: the model stops where the hardware goes on. -/
  | notModelled (mnemonic : String)
deriving DecidableEq, Repr

/-- The cause codes of 60_exceptions.md R211: exactly the codes 0..7. -/
inductive Cause where
  | none
  | illegalCommand
  | outOfRangeSymbol
  | misalignedLength
  | primeGenerationFailure
  | paramRange
  | bbsNotInitialized
  | addressRange
deriving DecidableEq, Repr

/-- The sequencer's phase (10_state.md R45): `Idle`, or `Busy(w)` with the accepted value w. -/
inductive Phase where
  | idle
  | busy (w : Word)
deriving DecidableEq, Repr

/-- The LRAM as a list of (address, byte) pairs: the bytes written since the last reset, addresses strictly rising. An
address that is not listed holds no written byte; what it reads as is the free value `Config.lramReset` (log entry 2). -/
abbrev Memory := List Host.Cell

/-- The canonical form of the memory: addresses strictly rising (so none twice). -/
abbrev Memory.wf (m : Memory) : Prop := m.Pairwise (fun c d => c.1 < d.1)

/-- The entropy source of 00_scope.md R12 as the model holds it (log entry 3): answers supplied from outside, in order,
and the number of free answers given after they ran out. -/
structure Entropy where
  queue : List Word
  drawn : Nat
deriving DecidableEq, Repr

/-- The host agent (00_scope.md R4, 30_encoding.md R89): its program, the index of its next operation, and the value `t`
that its last read returned. -/
structure HostAgent where
  program : List HostOp
  pc : Nat
  t : Word
deriving DecidableEq, Repr

/-- The state of the unit and of the agents around it. `STATUS.BUSY` is the phase and `STATUS.IRQ` a function of four
bits, so both are computed (log entry 9); `ID` and `LCG_M` are constants (log entry 10). -/
structure State where
  /-- The parameter `LRAM_BYTES` (00_scope.md R6); no step changes it. -/
  cfg : Config
  /-- The sequencer's phase (10_state.md R45). -/
  phase : Phase
  /-- `CTRL.IE_DONE` (10_state.md R25). -/
  ieDone : Bool
  /-- `CTRL.IE_ERR` (10_state.md R25). -/
  ieErr : Bool
  /-- `STATUS.DONE` (10_state.md R26). -/
  done : Bool
  /-- `STATUS.ERR` (10_state.md R26). -/
  err : Bool
  /-- `STATUS.DROP` (10_state.md R26). -/
  drop : Bool
  /-- `STATUS.BBS_VALID` (10_state.md R26, R42). -/
  bbsValid : Bool
  /-- `CMD`, the last accepted value (10_state.md R30). -/
  cmd : Word
  /-- `CAUSE` (10_state.md R32). -/
  cause : Cause
  /-- `INFO0` (10_state.md R33). -/
  info0 : Word
  /-- `INFO1` (10_state.md R33). -/
  info1 : Word
  /-- `RES0` (10_state.md R34). -/
  res0 : Word
  /-- `RES1` (10_state.md R34). -/
  res1 : Word
  /-- `SRC` (10_state.md R35). -/
  src : Word
  /-- `DST` (10_state.md R35). -/
  dst : Word
  /-- `LEN` (10_state.md R35). -/
  len : Word
  /-- `ADST` (10_state.md R35). -/
  adst : Word
  /-- `LCG_A` (10_state.md R36). -/
  lcgA : Word
  /-- `LCG_B` (10_state.md R36). -/
  lcgB : Word
  /-- `LCG_S`, 20 live bits (10_state.md R27, R38). -/
  lcgS : BitVec 20
  /-- `BBS_P` (10_state.md R39). -/
  bbsP : Word
  /-- `BBS_Q` (10_state.md R39). -/
  bbsQ : Word
  /-- `BBS_N` (10_state.md R40). -/
  bbsN : Word
  /-- `BBS_X` (10_state.md R40). -/
  bbsX : Word
  /-- `BBS_SEED` (10_state.md R41). -/
  bbsSeed : Word
  /-- `MX_BASE` (10_state.md R43). -/
  mxBase : Word
  /-- `MX_EXP` (10_state.md R43). -/
  mxExp : Word
  /-- `MX_MOD` (10_state.md R43). -/
  mxMod : Word
  /-- `PG_MAXITER` (10_state.md R44). -/
  pgMaxIter : Word
  /-- The LRAM (20_memory.md R61). -/
  lram : Memory
  /-- MODEL'S OWN: the number of unit resets so far, under which unwritten LRAM bytes are free (log entry 2). -/
  epoch : Nat
  /-- MODEL'S OWN: the entropy source's pending answers (log entry 3). -/
  entropy : Entropy
  /-- MODEL'S OWN: the number of unspecified reads answered during `Busy` (log entry 6). -/
  busyReads : Nat
  /-- The host agent (30_encoding.md R89). -/
  host : HostAgent
  /-- MODEL'S OWN: who moves next, an input; when it is empty the fair order of log entry 4 holds. -/
  turns : List Turn
deriving DecidableEq, Repr

/-- The machine right after reset (10_state.md R47, 70_reset_and_hazards.md R240): `PG_MAXITER` = 100000, every other
stored register 0, every `STATUS` and `CTRL` bit 0, phase `Idle`, no LRAM byte written. The host agent has no program and
the model's own fields are empty or 0 (DESIGN CHOICE, log entries 5 and 8). -/
def State.reset : State where
  cfg := Config.standard
  phase := .idle
  ieDone := false
  ieErr := false
  done := false
  err := false
  drop := false
  bbsValid := false
  cmd := 0#64
  cause := .none
  info0 := 0#64
  info1 := 0#64
  res0 := 0#64
  res1 := 0#64
  src := 0#64
  dst := 0#64
  len := 0#64
  adst := 0#64
  lcgA := 0#64
  lcgB := 0#64
  lcgS := 0#20
  bbsP := 0#64
  bbsQ := 0#64
  bbsN := 0#64
  bbsX := 0#64
  bbsSeed := 0#64
  mxBase := 0#64
  mxExp := 0#64
  mxMod := 0#64
  pgMaxIter := Config.pgMaxIterReset
  lram := []
  epoch := 0
  entropy := { queue := [], drawn := 0 }
  busyReads := 0
  host := { program := [], pc := 0, t := 0#64 }
  turns := []

end Sys2Proof.Machine
end

