-- ==== Sys2Proof/Machine/Ops.lean ====
section
/-! DEFINITION. The named operations the commands share: bitstrings and byte order, the LRAM, region checks, modular arithmetic, the entropy draws, taking a fault and the return from one, completing a command, accepting one, and the reset input. -/

namespace Sys2Proof.Machine

/-! ### Bitstrings and byte order -/

/-- `BE(v, w)` of 00_scope.md R9: the `w`-bit big-endian bitstring of `v`, its first bit the most significant. -/
def be : (w : Nat) → (v : Nat) → List Bool
  | 0, _ => []
  | w + 1, v => v.testBit w :: be w v

/-- `val(s)` of 00_scope.md R9, the inverse of `BE`. -/
def bitsVal (s : List Bool) : Nat := s.foldl (fun acc b => 2 * acc + b.toNat) 0

/-- `BE32`, `BE64` of 20_memory.md R62 for 4 and 8 bytes: the most significant byte first. -/
def beBytes : (n : Nat) → (v : Nat) → List Byte
  | 0, _ => []
  | n + 1, v => BitVec.ofNat 8 (v >>> (8 * n)) :: beBytes n v

/-- The bytes that hold a bitstring, `n` of them: bit i is bit `7 - (i mod 8)` of byte `i div 8`, and the positions beyond
the end are 0 (20_memory.md R63). -/
def packBytes : (n : Nat) → (s : List Bool) → List Byte
  | 0, _ => []
  | n + 1, s => BitVec.ofNat 8 (bitsVal ((s ++ List.replicate 8 false).take 8)) :: packBytes n (s.drop 8)

/-- The `ceil(|s| / 8)` bytes `WriteBits` writes for the bitstring `s` (20_memory.md R63). -/
def packBits (s : List Bool) : List Byte := packBytes (ceilDiv s.length 8) s

/-- The first `nbits` bits held by a list of bytes, in the order of 20_memory.md R63. -/
def unpackBits (nbits : Nat) (bytes : List Byte) : List Bool :=
  (bytes.flatMap fun b => be 8 b.toNat).take nbits

/-! ### The LRAM -/

/-- The byte written last at address `a`, if one was written since reset. -/
def Memory.get? : Memory → Nat → Option Byte
  | [], _ => none
  | (a', b) :: m, a => if a' = a then some b else Memory.get? m a

/-- The memory with byte `b` written at `a`, in canonical form. -/
def Memory.set : Memory → Nat → Byte → Memory
  | [], a, b => [(a, b)]
  | (a', b') :: m, a, b =>
    if a < a' then (a, b) :: (a', b') :: m
    else if a = a' then (a, b) :: m
    else (a', b') :: Memory.set m a b

/-- `MemWrite` of 00_scope.md R10: the bytes written at `a`, `a + 1`, …, lowest address first. -/
def Memory.writeBytes : Memory → Nat → List Byte → Memory
  | m, _, [] => m
  | m, a, b :: bs => Memory.writeBytes (m.set a b) (a + 1) bs

/-- The LRAM byte at `a`: what was written last, or the free value of a byte that nothing has written since reset
(20_memory.md R61; 92_eei_decisions.md D48; log entry 2). -/
def State.readByte (s : State) (a : Nat) : Byte := (s.lram.get? a).getD (Config.lramReset s.epoch a)

/-- `MemRead(a, n)` of 00_scope.md R10: the `n` bytes at `a`, `a + 1`, …. -/
def State.readBytes (s : State) (a : Nat) : (n : Nat) → List Byte
  | 0 => []
  | n + 1 => s.readByte a :: State.readBytes s (a + 1) n

/-- `ReadBits(a, nbits)` of 20_memory.md R63. -/
def State.readBits (s : State) (a nbits : Nat) : List Bool := unpackBits nbits (s.readBytes a (ceilDiv nbits 8))

/-- `MemWrite` of 00_scope.md R10. -/
def State.writeBytes (s : State) (a : Nat) (bytes : List Byte) : State := { s with lram := s.lram.writeBytes a bytes }

/-- `WriteBits(a, bits)` of 20_memory.md R63. -/
def State.writeBits (s : State) (a : Nat) (bits : List Bool) : State := s.writeBytes a (packBits bits)

/-! ### Modular arithmetic -/

/-- Square and multiply over `fuel` bits of the exponent. -/
def powmodAux (m : Nat) : (fuel b e : Nat) → Nat
  | 0, _, _ => 1 % m
  | fuel + 1, b, e =>
    if e % 2 = 1 then b * powmodAux m fuel (b * b % m) (e / 2) % m
    else powmodAux m fuel (b * b % m) (e / 2)

/-- `powmod(b, e, m)` of 00_scope.md R11: `b^e mod m` (the lemma `powmod_eq`), by square and multiply (log entry 16). -/
def powmod (b e m : Nat) : Nat := powmodAux m (e.log2 + 1) b e

/-- `sq(v, n)` of 00_scope.md R11, the exact product reduced. -/
def sqMod (v n : Nat) : Nat := v * v % n

/-! ### The entropy source -/

/-- The next answer before it is brought into the range of a draw: a supplied one, else a free value (log entry 3). -/
def Entropy.raw (e : Entropy) : Word × Entropy :=
  match e.queue with
  | [] => (Config.freeDraw e.drawn, { e with drawn := e.drawn + 1 })
  | w :: ws => (w, { e with queue := ws })

/-- An answer in [lo, hi]: the raw value where it lies there, else its residue (log entry 3). Every value of the range is
the answer to some raw value. -/
def intoRange (lo hi v : Nat) : Nat := if lo ≤ v ∧ v ≤ hi then v else lo + v % (hi - lo + 1)

/-- `DrawRange(lo, hi)` of 00_scope.md R12. -/
def Entropy.drawRange (lo hi : Nat) (e : Entropy) : Nat × Entropy := (intoRange lo hi e.raw.1.toNat, e.raw.2)

/-- `Draw32()` of 00_scope.md R12: a natural in [0, 2^32). -/
def Entropy.draw32 (e : Entropy) : Nat × Entropy := e.drawRange 0 0xFFFFFFFF

/-! ### Faults and completion -/

/-- A fault a command raises: `Fault(cause, info0, info1)` of 00_scope.md R10. -/
structure FaultInfo where
  cause : Cause
  info0 : Nat
  info1 : Nat
deriving DecidableEq, Repr

/-- `CheckRegion(a, len)` of 20_memory.md R65: the fault it raises, if any. The sum is exact. -/
def checkRegion (cfg : Config) (a len : Nat) : Option FaultInfo :=
  if 0 < len ∧ cfg.lramBytes < a + len then some ⟨.addressRange, a, len⟩ else none

/-- Taking a fault, 60_exceptions.md R214: the cause and the two details are recorded, `ERR` is set and the phase becomes
`Idle` (so `BUSY` reads 0). Nothing else is saved or changed. -/
def takeFault (f : FaultInfo) (s : State) : State :=
  { s with
    cause := f.cause
    info0 := BitVec.ofNat 64 f.info0
    info1 := BitVec.ofNat 64 f.info1
    err := true
    phase := .idle }

/-- The return from a fault, 60_exceptions.md R219, is the host's write to `STATUS` (10_state.md R28): each of the bits
1, 2, 3 of `v` that is 1 clears `DONE`, `ERR`, `DROP`, and every other bit is ignored. -/
def clearStatus (v : Word) (s : State) : State :=
  { s with
    done := s.done && !v.getLsbD 1
    err := s.err && !v.getLsbD 2
    drop := s.drop && !v.getLsbD 3 }

/-- Successful completion of a command, 60_exceptions.md R217. -/
def complete (s : State) : State := { s with done := true, phase := .idle }

/-- The end of a command (20_memory.md R68): the first check that fails is taken as a fault and nothing is written
(60_exceptions.md R215); if none fails, the effect happens and the command completes. -/
def conclude (fault : Option FaultInfo) (effect : State → State) (s : State) : State :=
  match fault with
  | some f => takeFault f s
  | none => complete (effect s)

/-- Acceptance of the value `v` written to `CMD` (10_state.md R29). -/
def accept (v : Word) (s : State) : State := { s with cmd := v, done := false, phase := .busy v }

/-- A dropped write (10_state.md R29, R31; 20_memory.md R73). -/
def dropWrite (s : State) : State := { s with drop := true }

/-- The reset input (70_reset_and_hazards.md R240, R241, R242): every register, status bit and the phase at its reset
value, whatever runs is abandoned, and every LRAM byte is unspecified again. The host agent, the entropy source
(10_state.md R50) and the parameter are not the unit's and stay (log entry 7). -/
def unitReset (s : State) : State :=
  { State.reset with
    cfg := s.cfg
    epoch := s.epoch + 1
    entropy := s.entropy
    busyReads := s.busyReads
    host := s.host
    turns := s.turns }

end Sys2Proof.Machine
end

