-- ==== Sys2Proof/Machine/Flags.lean ====
section
/-! DEFINITION. The words of `STATUS` and `CTRL`, the cause codes and the interrupt line (10_state.md R25, R26, R32, R46). There are no condition codes (10_state.md R49): no command sets a flag from the value of a result. -/

namespace Sys2Proof.Machine

/-- `STATUS.BUSY` is 1 exactly when the phase is `Busy` (10_state.md R26). -/
def Phase.isBusy : Phase → Bool
  | .idle => false
  | .busy _ => true

/-- `STATUS.BUSY` (10_state.md R26). -/
def State.busy (s : State) : Bool := s.phase.isBusy

/-- The interrupt line and `STATUS.IRQ` (10_state.md R46): `(DONE and IE_DONE) or (ERR and IE_ERR)`. -/
def State.irq (s : State) : Bool := (s.done && s.ieDone) || (s.err && s.ieErr)

/-- What `STATUS` reads as (10_state.md R26): bit 0 `BUSY`, 1 `DONE`, 2 `ERR`, 3 `DROP`, 4 `BBS_VALID`, 5 `IRQ`, the rest 0. -/
def State.statusWord (s : State) : Word :=
  BitVec.ofNat 64 (s.busy.toNat + 2 * s.done.toNat + 4 * s.err.toNat + 8 * s.drop.toNat + 16 * s.bbsValid.toNat
    + 32 * s.irq.toNat)

/-- What `CTRL` reads as (10_state.md R25): bit 0 `IE_DONE`, bit 1 `IE_ERR`, the rest 0. -/
def State.ctrlWord (s : State) : Word := BitVec.ofNat 64 (s.ieDone.toNat + 2 * s.ieErr.toNat)

/-- A write to `CTRL` (10_state.md R25): `CTRL <- v[1:0]`. -/
def writeCtrl (v : Word) (s : State) : State := { s with ieDone := v.getLsbD 0, ieErr := v.getLsbD 1 }

/-- The code of a cause (60_exceptions.md R211). -/
def Cause.code : Cause → Nat
  | .none => 0
  | .illegalCommand => 1
  | .outOfRangeSymbol => 2
  | .misalignedLength => 3
  | .primeGenerationFailure => 4
  | .paramRange => 5
  | .bbsNotInitialized => 6
  | .addressRange => 7

end Sys2Proof.Machine
end

