-- ==== Sys2Proof/Machine/Operands.lean ====
section
/-! DEFINITION. The register file: the map from indices to registers, their access classes, and the one accessor that reads and the one that writes a register (10_state.md R21 to R31, R48). -/

namespace Sys2Proof.Machine

/-- The index of a register (10_state.md R23). -/
def regIndex : Reg → Nat
  | .id => 0x00
  | .ctrl => 0x01
  | .status => 0x02
  | .cmd => 0x03
  | .cause => 0x04
  | .info0 => 0x05
  | .info1 => 0x06
  | .res0 => 0x07
  | .res1 => 0x08
  | .src => 0x09
  | .dst => 0x0A
  | .len => 0x0B
  | .adst => 0x0C
  | .lcgA => 0x10
  | .lcgB => 0x11
  | .lcgM => 0x12
  | .lcgS => 0x13
  | .bbsP => 0x18
  | .bbsQ => 0x19
  | .bbsN => 0x1A
  | .bbsX => 0x1B
  | .bbsSeed => 0x1C
  | .mxBase => 0x20
  | .mxExp => 0x21
  | .mxMod => 0x22
  | .pgMaxIter => 0x23

/-- The registers of the map, in the order of their indices (10_state.md R23). -/
def allRegs : List Reg :=
  [.id, .ctrl, .status, .cmd, .cause, .info0, .info1, .res0, .res1, .src, .dst, .len, .adst, .lcgA, .lcgB, .lcgM, .lcgS,
    .bbsP, .bbsQ, .bbsN, .bbsX, .bbsSeed, .mxBase, .mxExp, .mxMod, .pgMaxIter]

/-- The register at an index, none where the index is unmapped (10_state.md R22, R23). -/
def regAt (index : Byte) : Option Reg := allRegs.find? fun r => regIndex r == index.toNat

/-- The access class of a register (10_state.md R23, R24, R31). -/
def regAccess : Reg → Access
  | .id => .readOnly
  | .ctrl => .control
  | .status => .writeOneToClear
  | .cmd => .command
  | .cause => .readOnly
  | .info0 => .readOnly
  | .info1 => .readOnly
  | .res0 => .readOnly
  | .res1 => .readOnly
  | .src => .operand
  | .dst => .operand
  | .len => .operand
  | .adst => .operand
  | .lcgA => .operand
  | .lcgB => .operand
  | .lcgM => .readOnly
  | .lcgS => .operand
  | .bbsP => .operand
  | .bbsQ => .operand
  | .bbsN => .readOnly
  | .bbsX => .readOnly
  | .bbsSeed => .operand
  | .mxBase => .operand
  | .mxExp => .operand
  | .mxMod => .operand
  | .pgMaxIter => .operand

/-- The registers whose read during `Busy` is unspecified (10_state.md R48). -/
def unspecifiedWhileBusy : Reg → Bool
  | .cause => true
  | .info0 => true
  | .info1 => true
  | .res0 => true
  | .res1 => true
  | .lcgS => true
  | .bbsN => true
  | .bbsX => true
  | .id => false
  | .ctrl => false
  | .status => false
  | .cmd => false
  | .src => false
  | .dst => false
  | .len => false
  | .adst => false
  | .lcgA => false
  | .lcgB => false
  | .lcgM => false
  | .bbsP => false
  | .bbsQ => false
  | .bbsSeed => false
  | .mxBase => false
  | .mxExp => false
  | .mxMod => false
  | .pgMaxIter => false

/-- `x[NAME]`: the value a register holds (00_scope.md R10). -/
def State.reg (s : State) : Reg → Word
  | .id => Config.idValue
  | .ctrl => s.ctrlWord
  | .status => s.statusWord
  | .cmd => s.cmd
  | .cause => BitVec.ofNat 64 s.cause.code
  | .info0 => s.info0
  | .info1 => s.info1
  | .res0 => s.res0
  | .res1 => s.res1
  | .src => s.src
  | .dst => s.dst
  | .len => s.len
  | .adst => s.adst
  | .lcgA => s.lcgA
  | .lcgB => s.lcgB
  | .lcgM => BitVec.ofNat 64 Config.lcgMod
  | .lcgS => s.lcgS.setWidth 64
  | .bbsP => s.bbsP
  | .bbsQ => s.bbsQ
  | .bbsN => s.bbsN
  | .bbsX => s.bbsX
  | .bbsSeed => s.bbsSeed
  | .mxBase => s.mxBase
  | .mxExp => s.mxExp
  | .mxMod => s.mxMod
  | .pgMaxIter => s.pgMaxIter

/-- The write of an operand register in phase `Idle` (10_state.md R31), with the WARL rule of `LCG_S` (R27: it stores
`v mod 2^20`). A register of another class holds what it held. -/
def writeOperand (r : Reg) (v : Word) (s : State) : State :=
  match r with
  | .src => { s with src := v }
  | .dst => { s with dst := v }
  | .len => { s with len := v }
  | .adst => { s with adst := v }
  | .lcgA => { s with lcgA := v }
  | .lcgB => { s with lcgB := v }
  | .lcgS => { s with lcgS := v.setWidth 20 }
  | .bbsP => { s with bbsP := v }
  | .bbsQ => { s with bbsQ := v }
  | .bbsSeed => { s with bbsSeed := v }
  | .mxBase => { s with mxBase := v }
  | .mxExp => { s with mxExp := v }
  | .mxMod => { s with mxMod := v }
  | .pgMaxIter => { s with pgMaxIter := v }
  | .id => s
  | .ctrl => s
  | .status => s
  | .cmd => s
  | .cause => s
  | .info0 => s
  | .info1 => s
  | .res0 => s
  | .res1 => s
  | .lcgM => s
  | .bbsN => s
  | .bbsX => s

/-- `RegWrite(0x03, v)` of 10_state.md R29: accepted in phase `Idle` with `ERR` = 0, otherwise dropped. -/
def issue (v : Word) (s : State) : State := if s.busy || s.err then dropWrite s else accept v s

/-- `RegWrite(index, v)` of 10_state.md R22 to R31. -/
def regWrite (index : Byte) (v : Word) (s : State) : State :=
  match regAt index with
  | none => s
  | some r =>
    match regAccess r with
    | .readOnly => s
    | .control => writeCtrl v s
    | .writeOneToClear => clearStatus v s
    | .command => issue v s
    | .operand => if s.busy then dropWrite s else writeOperand r v s

/-- An unspecified read during `Busy` (10_state.md R48, 20_memory.md R73): a free value, another for each read (log entry 6). -/
def unspecifiedRead (s : State) : Word × State :=
  (Config.freeRead s.busyReads, { s with busyReads := s.busyReads + 1 })

/-- `RegRead(index)` of 10_state.md R22, R48. -/
def regRead (index : Byte) (s : State) : Word × State :=
  match regAt index with
  | none => (0#64, s)
  | some r => if s.busy && unspecifiedWhileBusy r then unspecifiedRead s else (s.reg r, s)

end Sys2Proof.Machine
end

