-- ==== Sys2Proof/Machine/Bbs.lean ====
section
/-! DEFINITION. The Blum–Blum–Shub generator: `BBS_INIT`, `BBS_NEXT`, `BBS_OUT` (43_bbs.md). -/

namespace Sys2Proof.Machine

/-- The seed repair of 43_bbs.md R170 from `k` increments on, over at most `fuel` of them. -/
def repairFrom (n seed : Nat) : (fuel k : Nat) → Nat
  | 0, k => k
  | fuel + 1, k => if Nat.gcd (seed + k) n = 1 then k else repairFrom n seed fuel (k + 1)

/-- The number of increments of `BbsConstruct(n, seed)` (43_bbs.md R170), which ends within n iterations (log entry 16). -/
def repairCount (n seed : Nat) : Nat := repairFrom n seed n 0

/-- The initial state of `BbsConstruct(n, seed)` (43_bbs.md R170): `(seed + k)^2 mod n`. -/
def bbsInitial (n seed : Nat) : Nat := (seed + repairCount n seed) ^ 2 % n

/-- `BbsCheck()` of 43_bbs.md R171: the fault it raises, if any. -/
def bbsCheck (s : State) : Option FaultInfo :=
  if Config.pqLimit ≤ s.bbsP.toNat then some ⟨.paramRange, regIndex .bbsP, s.bbsP.toNat⟩
  else if Config.pqLimit ≤ s.bbsQ.toNat then some ⟨.paramRange, regIndex .bbsQ, s.bbsQ.toNat⟩
  else if s.bbsP.toNat = 0 then some ⟨.paramRange, regIndex .bbsP, 0⟩
  else if s.bbsQ.toNat = 0 then some ⟨.paramRange, regIndex .bbsQ, 0⟩
  else none

/-- The modulus `p·q` that `BbsCheck()` returns (43_bbs.md R171). -/
def bbsModulus (s : State) : Nat := s.bbsP.toNat * s.bbsQ.toNat

/-- The check that an instance was constructed since reset (43_bbs.md R173, R174). -/
def bbsInitialized (s : State) : Option FaultInfo := if s.bbsValid then none else some ⟨.bbsNotInitialized, 0, 0⟩

/-- The writes of `BBS_INIT` (43_bbs.md R172): the instance, `BBS_VALID`, and the repair count in `RES0`. -/
def bbsInitEffect (s : State) : State :=
  { s with
    bbsN := BitVec.ofNat 64 (bbsModulus s)
    bbsX := BitVec.ofNat 64 (bbsInitial (bbsModulus s) s.bbsSeed.toNat)
    bbsValid := true
    res0 := BitVec.ofNat 64 (repairCount (bbsModulus s) s.bbsSeed.toNat) }

/-- `BBS_INIT`, 43_bbs.md R172. -/
def execBbsInit (s : State) : Host.Outcome State Fault Refusal := .next (conclude (bbsCheck s) bbsInitEffect s)

/-- The states after 1, 2, …, `count` squarings of `x` (43_bbs.md R173, R174). -/
def bbsStates (n : Nat) : (count x : Nat) → List Nat
  | 0, _ => []
  | count + 1, x => sqMod x n :: bbsStates n count (sqMod x n)

/-- The writes of `BBS_NEXT` (43_bbs.md R173). -/
def bbsNextEffect (s : State) : State :=
  { s with
    bbsX := BitVec.ofNat 64 (sqMod s.bbsX.toNat s.bbsN.toNat)
    res0 := BitVec.ofNat 64 (sqMod s.bbsX.toNat s.bbsN.toNat) }

/-- `BBS_NEXT`, 43_bbs.md R173. -/
def execBbsNext (s : State) : Host.Outcome State Fault Refusal := .next (conclude (bbsInitialized s) bbsNextEffect s)

/-- The states `BBS_OUT count` goes through (43_bbs.md R174). -/
def bbsOutStates (count : Nat) (s : State) : List Nat := bbsStates s.bbsN.toNat count s.bbsX.toNat

/-- The checks of `BBS_OUT count` in the order of 43_bbs.md R174. -/
def bbsOutFault (count : Nat) (s : State) : Option FaultInfo :=
  bbsInitialized s <|> checkRegion s.cfg s.dst.toNat (8 * count)

/-- The writes of `BBS_OUT count` (43_bbs.md R174): the outputs as 8-byte big-endian words at `DST`, and the final state. -/
def bbsOutEffect (count : Nat) (s : State) : State :=
  { s.writeBytes s.dst.toNat ((bbsOutStates count s).flatMap (beBytes 8)) with
    bbsX := BitVec.ofNat 64 ((bbsOutStates count s).getLastD s.bbsX.toNat)
    res0 := BitVec.ofNat 64 ((bbsOutStates count s).getLastD s.bbsX.toNat) }

/-- `BBS_OUT count`, 43_bbs.md R174. -/
def execBbsOut (count : Nat) (s : State) : Host.Outcome State Fault Refusal :=
  .next (conclude (bbsOutFault count s) (bbsOutEffect count) s)

end Sys2Proof.Machine
end

