-- ==== Sys2Proof/Machine/Codec.lean ====
section
/-! DEFINITION. The 7-bit symbol codec: `ENC7` and `DEC7` (40_codec.md). -/

namespace Sys2Proof.Machine

/-- The codes of a list of symbols, concatenated in order (40_codec.md R100, R101). -/
def symbolBits (syms : List Byte) : List Bool := syms.flatMap fun c => be Config.symBits c.toNat

/-- The fault of the first byte above 127, its value and its index (40_codec.md R101, 60_exceptions.md R212); `i` is the
index of the list's first byte. -/
def symbolFault : (i : Nat) → List Byte → Option FaultInfo
  | _, [] => none
  | i, c :: cs => if Config.symMax < c.toNat then some ⟨.outOfRangeSymbol, c.toNat, i⟩ else symbolFault (i + 1) cs

/-- The symbols of the first `k` 7-bit groups of a bitstring (40_codec.md R102). -/
def groupSymbols : (k : Nat) → List Bool → List Byte
  | 0, _ => []
  | k + 1, bits => BitVec.ofNat 8 (bitsVal (bits.take Config.symBits)) :: groupSymbols k (bits.drop Config.symBits)

/-- The input of `ENC7`: the `LEN` bytes at `SRC` (40_codec.md R101). -/
def enc7Input (s : State) : List Byte := s.readBytes s.src.toNat s.len.toNat

/-- The checks of `ENC7` in the order of 40_codec.md R101: source region, destination region, symbols. -/
def enc7Fault (s : State) : Option FaultInfo :=
  checkRegion s.cfg s.src.toNat s.len.toNat
    <|> checkRegion s.cfg s.dst.toNat (ceilDiv (7 * s.len.toNat) 8)
    <|> symbolFault 0 (enc7Input s)

/-- The writes of `ENC7`: the packed bits at `DST`, and `RES0` = 7·n (40_codec.md R101). -/
def enc7Effect (s : State) : State :=
  { s.writeBits s.dst.toNat (symbolBits (enc7Input s)) with res0 := BitVec.ofNat 64 (7 * s.len.toNat) }

/-- `ENC7`, 40_codec.md R101. -/
def execEnc7 (s : State) : Host.Outcome State Fault Refusal := .next (conclude (enc7Fault s) enc7Effect s)

/-- The checks of `DEC7` in the order of 40_codec.md R102: length, source region, destination region. -/
def dec7Fault (s : State) : Option FaultInfo :=
  (if s.len.toNat % 7 = 0 then none else some ⟨.misalignedLength, s.len.toNat, 0⟩)
    <|> checkRegion s.cfg s.src.toNat (ceilDiv s.len.toNat 8)
    <|> checkRegion s.cfg s.dst.toNat (s.len.toNat / 7)

/-- The symbols `DEC7` writes (40_codec.md R102). -/
def dec7Output (s : State) : List Byte := groupSymbols (s.len.toNat / 7) (s.readBits s.src.toNat s.len.toNat)

/-- The writes of `DEC7`: the symbols at `DST`, and `RES0` = nbits/7 (40_codec.md R102). -/
def dec7Effect (s : State) : State :=
  { s.writeBytes s.dst.toNat (dec7Output s) with res0 := BitVec.ofNat 64 (s.len.toNat / 7) }

/-- `DEC7`, 40_codec.md R102. -/
def execDec7 (s : State) : Host.Outcome State Fault Refusal := .next (conclude (dec7Fault s) dec7Effect s)

end Sys2Proof.Machine
end

