-- ==== Sys2Proof/Machine/Lcg.lean ====
section
/-! DEFINITION. The LCG: `LCG_NEXT` and `LCG_GENN` (42_lcg.md). -/

namespace Sys2Proof.Machine

/-- One LCG step, `s' = (a·s + b) mod 2^20`, computed exactly (42_lcg.md R150). -/
def lcgStep (a b s : Nat) : Nat := (a * s + b) % Config.lcgMod

/-- `n` successive draws from the state `s`, each the new state (42_lcg.md R150, R152). -/
def lcgDraws (a b : Nat) : (n s : Nat) → List Nat
  | 0, _ => []
  | n + 1, s => lcgStep a b s :: lcgDraws a b n (lcgStep a b s)

/-- The writes of `LCG_NEXT`: `LCG_S` and `RES0` (42_lcg.md R151). -/
def lcgNextEffect (s : State) : State :=
  { s with
    lcgS := BitVec.ofNat 20 (lcgStep s.lcgA.toNat s.lcgB.toNat s.lcgS.toNat)
    res0 := BitVec.ofNat 64 (lcgStep s.lcgA.toNat s.lcgB.toNat s.lcgS.toNat) }

/-- `LCG_NEXT`, 42_lcg.md R151. It raises no fault. -/
def execLcgNext (s : State) : Host.Outcome State Fault Refusal := .next (conclude none lcgNextEffect s)

/-- The draws of `LCG_GENN n` (42_lcg.md R152). -/
def lcgGennDraws (n : Nat) (s : State) : List Nat := lcgDraws s.lcgA.toNat s.lcgB.toNat n s.lcgS.toNat

/-- The check of `LCG_GENN n` (42_lcg.md R152): the region of 4·n bytes. -/
def lcgGennFault (n : Nat) (s : State) : Option FaultInfo := checkRegion s.cfg s.dst.toNat (4 * n)

/-- The writes of `LCG_GENN n` (42_lcg.md R152): the last draw in `LCG_S`, one big-endian 4-byte word a draw at `DST`, the
exact sum in `RES0`. -/
def lcgGennEffect (n : Nat) (s : State) : State :=
  { s.writeBytes s.dst.toNat ((lcgGennDraws n s).flatMap (beBytes 4)) with
    lcgS := BitVec.ofNat 20 ((lcgGennDraws n s).getLastD s.lcgS.toNat)
    res0 := BitVec.ofNat 64 (lcgGennDraws n s).sum }

/-- `LCG_GENN n`, 42_lcg.md R152. -/
def execLcgGenn (n : Nat) (s : State) : Host.Outcome State Fault Refusal :=
  .next (conclude (lcgGennFault n s) (lcgGennEffect n) s)

end Sys2Proof.Machine
end

