-- ==== Sys2Proof/Machine/Gamma.lean ====
section
/-! DEFINITION. The keystream orchestrator: `GAMMA` (44_gamma.md). -/

namespace Sys2Proof.Machine

/-- What one round leaves: the sum of its seven LCG draws and its five BBS outputs (44_gamma.md R194, R195). -/
structure GammaRound where
  seed : Nat
  outs : List Nat
deriving DecidableEq, Repr

/-- The round's 5th output. -/
def GammaRound.lastOut (r : GammaRound) : Nat := r.outs.getLastD 0

/-- The feedback of 44_gamma.md R197: `(y >> 44) mod 2^20` of the 5th output. -/
def GammaRound.feedback (r : GammaRound) : Nat := (r.lastOut >>> 44) % Config.lcgMod

/-- The outputs of a round with the given seed: five squarings of a fresh instance (44_gamma.md R194, R195). -/
def gammaOutputs (n seed : Nat) : List Nat := bbsStates n Config.outsPerRound (bbsInitial n seed)

/-- One round from the LCG state `s` (44_gamma.md R190, R194, R195). -/
def gammaRound (a b n s : Nat) : GammaRound :=
  { seed := (lcgDraws a b Config.drawsPerRound s).sum
    outs := gammaOutputs n (lcgDraws a b Config.drawsPerRound s).sum }

/-- The rounds, strictly one after another: each round's feedback is the LCG state the next one starts from
(44_gamma.md R197, R202). -/
def gammaRounds (a b n : Nat) : (count s : Nat) → List GammaRound
  | 0, _ => []
  | count + 1, s => gammaRound a b n s :: gammaRounds a b n count (gammaRound a b n s).feedback

/-- The number of rounds `R = ceil(L / 320)` (44_gamma.md R191). -/
def gammaCount (s : State) : Nat := ceilDiv s.len.toNat Config.roundBits

/-- The rounds `GAMMA` runs (44_gamma.md R190). -/
def gammaRun (s : State) : List GammaRound :=
  gammaRounds s.lcgA.toNat s.lcgB.toNat (bbsModulus s) (gammaCount s) s.lcgS.toNat

/-- The last round, if a round ran. -/
def gammaLast (s : State) : GammaRound := (gammaRun s).getLastD ⟨0, []⟩

/-- The outputs `Y` of all rounds in production order (44_gamma.md R190, R196). -/
def gammaWords (s : State) : List Nat := (gammaRun s).flatMap GammaRound.outs

/-- The gamma `G[0 : L]` (44_gamma.md R195, R198). -/
def gammaBits (s : State) : List Bool := ((gammaWords s).flatMap (be Config.outBits)).take s.len.toNat

/-- The checks of `GAMMA` in the order of 44_gamma.md R192, R193: none when no round runs. -/
def gammaFault (audit : Bool) (s : State) : Option FaultInfo :=
  if gammaCount s = 0 then none
  else
    bbsCheck s
      <|> checkRegion s.cfg s.dst.toNat (ceilDiv s.len.toNat 8)
      <|> (if audit then checkRegion s.cfg s.adst.toNat (40 * gammaCount s) else none)

/-- The LRAM writes of `GAMMA`: the gamma at `DST`, then, with the audit flag, the raw outputs at `ADST`
(44_gamma.md R196, R198). -/
def gammaWrites (audit : Bool) (s : State) : State :=
  if audit then (s.writeBits s.dst.toNat (gammaBits s)).writeBytes s.adst.toNat ((gammaWords s).flatMap (beBytes 8))
  else s.writeBits s.dst.toNat (gammaBits s)

/-- The effect of `GAMMA` (44_gamma.md R190, R192, R199). -/
def gammaEffect (audit : Bool) (s : State) : State :=
  if gammaCount s = 0 then { s with res0 := 0#64, res1 := 0#64 }
  else
    { gammaWrites audit s with
      lcgS := BitVec.ofNat 20 (gammaLast s).feedback
      bbsN := BitVec.ofNat 64 (bbsModulus s)
      bbsX := BitVec.ofNat 64 (gammaLast s).lastOut
      bbsValid := true
      res0 := BitVec.ofNat 64 (gammaCount s)
      res1 := BitVec.ofNat 64 (gammaLast s).seed }

/-- `GAMMA`, 44_gamma.md R190. -/
def execGamma (audit : Bool) (s : State) : Host.Outcome State Fault Refusal :=
  .next (conclude (gammaFault audit s) (gammaEffect audit) s)

end Sys2Proof.Machine
end

