-- ==== Sys2Proof/Machine/Primality.lean ====
section
/-! DEFINITION. The Miller–Rabin engine and the prime search: `MODEXP`, `MR_TEST`, `PRIME_GEN` (41_primality.md). -/

namespace Sys2Proof.Machine

/-- The check of `MODEXP` (41_primality.md R120): the modulus is not 0. -/
def modexpFault (s : State) : Option FaultInfo :=
  if s.mxMod.toNat = 0 then some ⟨.paramRange, regIndex .mxMod, 0⟩ else none

/-- The write of `MODEXP` (41_primality.md R120). -/
def modexpEffect (s : State) : State :=
  { s with res0 := BitVec.ofNat 64 (powmod s.mxBase.toNat s.mxExp.toNat s.mxMod.toNat) }

/-- `MODEXP`, 41_primality.md R120. -/
def execModexp (s : State) : Host.Outcome State Fault Refusal := .next (conclude (modexpFault s) modexpEffect s)

/-- Trial division by the given primes (41_primality.md R121): the verdict, if one of them decides. -/
def trialDivision (n : Nat) : List Nat → Option Bool
  | [] => none
  | p :: ps => if n = p then some true else if n % p = 0 then some false else trialDivision n ps

/-- The decomposition `d·2^s` with `d` odd (41_primality.md R122), over at most `fuel` halvings. -/
def splitTwos : (fuel d s : Nat) → Nat × Nat
  | 0, d, s => (d, s)
  | fuel + 1, d, s => if d % 2 = 0 then splitTwos fuel (d / 2) (s + 1) else (d, s)

/-- The inner loop of 41_primality.md R123: square up to `k` times seeking `n - 1`. -/
def seekMinusOne (n : Nat) : (k y : Nat) → Bool
  | 0, _ => false
  | k + 1, y => if sqMod y n = n - 1 then true else seekMinusOne n k (sqMod y n)

/-- Whether the witness `a` accepts `n`, where `n - 1 = d·2^s` (41_primality.md R123). -/
def witnessAccepts (n d s a : Nat) : Bool :=
  powmod a d n == 1 || powmod a d n == n - 1 || seekMinusOne n (s - 1) (powmod a d n)

/-- What a Miller–Rabin test answers: the verdict, the number of witnesses drawn, and the entropy source after them. -/
structure MrResult where
  probablePrime : Bool
  drawn : Nat
  entropy : Entropy
deriving DecidableEq, Repr

/-- The witness rounds of 41_primality.md R123: one draw in [2, n - 2] a round, no further draw after a composite verdict. -/
def witnessRounds (n d s : Nat) : (rounds drawn : Nat) → Entropy → MrResult
  | 0, drawn, e => ⟨true, drawn, e⟩
  | rounds + 1, drawn, e =>
    match e.drawRange 2 (n - 2) with
    | (a, e') => if witnessAccepts n d s a then witnessRounds n d s rounds (drawn + 1) e' else ⟨false, drawn + 1, e'⟩

/-- `MR(n, rounds)` of 41_primality.md R121, R122, R123. -/
def millerRabin (n rounds : Nat) (e : Entropy) : MrResult :=
  if n < 2 then ⟨false, 0, e⟩
  else
    match trialDivision n Config.smallPrimes with
    | some verdict => ⟨verdict, 0, e⟩
    | none => witnessRounds n (splitTwos 64 (n - 1) 0).1 (splitTwos 64 (n - 1) 0).2 rounds 0 e

/-- The writes of `MR_TEST` (41_primality.md R124). -/
def mrTestEffect (rounds : Nat) (s : State) : State :=
  { s with
    res0 := BitVec.ofNat 64 (millerRabin s.mxMod.toNat rounds s.entropy).probablePrime.toNat
    res1 := BitVec.ofNat 64 (millerRabin s.mxMod.toNat rounds s.entropy).drawn
    entropy := (millerRabin s.mxMod.toNat rounds s.entropy).entropy }

/-- `MR_TEST`, 41_primality.md R124. It raises no fault. -/
def execMrTest (rounds : Nat) (s : State) : Host.Outcome State Fault Refusal :=
  .next (conclude none (mrTestEffect rounds) s)

/-- `Candidate(v)` of 41_primality.md R126. -/
def primeCandidate (v : Nat) : Nat := (v ||| 0x80000001) + (3 - (v ||| 0x80000001) % 4) % 4

/-- What a prime search answers: the accepted candidate and the attempts used, if there was one, and the entropy source
after the draws. -/
structure SearchResult where
  found : Option (Nat × Nat)
  entropy : Entropy
deriving DecidableEq, Repr

/-- The loop of 41_primality.md R127 with `left` attempts left and `k` made: one `Draw32`, then that candidate's test. -/
def primeSearch (rounds : Nat) : (left k : Nat) → Entropy → SearchResult
  | 0, _, e => ⟨none, e⟩
  | left + 1, k, e =>
    match e.draw32 with
    | (v, e1) =>
      match millerRabin (primeCandidate v) rounds e1 with
      | ⟨true, _, e2⟩ => ⟨some (primeCandidate v, k + 1), e2⟩
      | ⟨false, _, e2⟩ => primeSearch rounds left (k + 1) e2

/-- The search `PRIME_GEN` makes: at most `PG_MAXITER` attempts (41_primality.md R127). -/
def primeGenSearch (rounds : Nat) (s : State) : SearchResult := primeSearch rounds s.pgMaxIter.toNat 0 s.entropy

/-- The fault of `PRIME_GEN` when every attempt failed (41_primality.md R127). -/
def primeGenFault (rounds : Nat) (s : State) (found : Option (Nat × Nat)) : Option FaultInfo :=
  match found with
  | some _ => none
  | none => some ⟨.primeGenerationFailure, s.pgMaxIter.toNat, rounds⟩

/-- The writes of `PRIME_GEN` (41_primality.md R127). -/
def primeGenEffect (found : Option (Nat × Nat)) (s : State) : State :=
  match found with
  | some (c, k) => { s with res0 := BitVec.ofNat 64 c, res1 := BitVec.ofNat 64 k }
  | none => s

/-- `PRIME_GEN`, 41_primality.md R127. The draws made are consumed in either case (60_exceptions.md R215). -/
def execPrimeGen (rounds : Nat) (s : State) : Host.Outcome State Fault Refusal :=
  .next (conclude (primeGenFault rounds s (primeGenSearch rounds s).found) (primeGenEffect (primeGenSearch rounds s).found)
    { s with entropy := (primeGenSearch rounds s).entropy })

end Sys2Proof.Machine
end

