-- ==== Sys2Proof/Machine/Dispatch.lean ====
section
/-! DEFINITION. The meaning of each command, one arm per constructor of Instr (30_encoding.md R84). -/

namespace Sys2Proof.Machine

def exec (i : Instr) (s : State) : Host.Outcome State Fault Refusal :=
  match i with
  | .enc7 => Sys2Proof.Machine.execEnc7 s
  | .dec7 => Sys2Proof.Machine.execDec7 s
  | .modexp => Sys2Proof.Machine.execModexp s
  | .mrTest rounds => Sys2Proof.Machine.execMrTest rounds s
  | .primeGen rounds => Sys2Proof.Machine.execPrimeGen rounds s
  | .lcgNext => Sys2Proof.Machine.execLcgNext s
  | .lcgGenn n => Sys2Proof.Machine.execLcgGenn n s
  | .bbsInit => Sys2Proof.Machine.execBbsInit s
  | .bbsNext => Sys2Proof.Machine.execBbsNext s
  | .bbsOut count => Sys2Proof.Machine.execBbsOut count s
  | .gamma audit => Sys2Proof.Machine.execGamma audit s

end Sys2Proof.Machine
end

