-- ==== Sys2Proof/Machine/HostPort.lean ====
section
/-! DEFINITION. The host's byte port (20_memory.md R64, R73), one operation of the host program (30_encoding.md R89), the pseudo-instructions (30_encoding.md R90), and who moves next. -/

namespace Sys2Proof.Machine

/-- `MemRead8(a)` of 20_memory.md R64; during `Busy` any value, whatever the address (R73). -/
def memRead8 (a : Nat) (s : State) : Byte × State :=
  if s.busy then ((unspecifiedRead s).1.setWidth 8, (unspecifiedRead s).2)
  else if a < s.cfg.lramBytes then (s.readByte a, s)
  else (0#8, s)

/-- `MemWrite8(a, v)` of 20_memory.md R64: the low 8 bits of `v`, ignored outside the LRAM; during `Busy` dropped (R73). -/
def memWrite8 (a : Nat) (v : Word) (s : State) : State :=
  if s.busy then dropWrite s
  else if a < s.cfg.lramBytes then s.writeBytes a [v.setWidth 8]
  else s

/-- The host's program counter set (30_encoding.md R89). -/
def hostGoto (pc : Nat) (s : State) : State := { s with host := { s.host with pc := pc } }

/-- The host takes the value a read returned as its `t` (30_encoding.md R89). -/
def hostTakes (r : Word × State) : State := { r.2 with host := { r.2.host with t := r.1 } }

/-- One host operation (30_encoding.md R89), with its effect on the host's program counter. -/
def hostOperation (op : HostOp) (s : State) : State :=
  match op with
  | .wr index v => hostGoto (s.host.pc + 1) (regWrite index v s)
  | .rd index => hostGoto (s.host.pc + 1) (hostTakes (regRead index s))
  | .cmd i => hostGoto (s.host.pc + 1) (regWrite 0x03#8 (commandValue i) s)
  | .mw8 a v => hostGoto (s.host.pc + 1) (memWrite8 a v s)
  | .mr8 a => hostGoto (s.host.pc + 1) (hostTakes ((memRead8 a s).1.setWidth 64, (memRead8 a s).2))
  | .brset index mask label =>
    hostGoto (if (regRead index s).1 &&& mask = 0#64 then s.host.pc + 1 else label) (hostTakes (regRead index s))
  | .brclr index mask label =>
    hostGoto (if (regRead index s).1 &&& mask = 0#64 then label else s.host.pc + 1) (hostTakes (regRead index s))
  | .halt => s

/-- One step of the host: its next operation. Past the last operation the host program has ended (30_encoding.md R89). -/
def hostStep (s : State) : State :=
  match s.host.program[s.host.pc]? with
  | some op => hostOperation op s
  | none => s

/-- `WAIT` (30_encoding.md R90) as the operation number `at_` of a host program. -/
def pseudoWait (at_ : Nat) : List HostOp := [.brset 0x02#8 0x1#64 at_]

/-- `RUN <command>` (30_encoding.md R90) as the operations number `at_` and `at_ + 1`. -/
def pseudoRun (at_ : Nat) (i : Instr) : List HostOp := .cmd i :: pseudoWait (at_ + 1)

/-- `CLR` (30_encoding.md R90). -/
def pseudoClr : List HostOp := [.wr 0x02#8 0xE#64]

/-- `ONERR <label>` (30_encoding.md R90). -/
def pseudoOnErr (label : Nat) : List HostOp := [.brset 0x02#8 0x4#64 label]

/-- Who moves next: the head of the input list, else the fair order, the sequencer while it is busy and the host otherwise
(70_reset_and_hazards.md R253; log entry 4). -/
def nextTurn (s : State) : Turn :=
  match s.turns with
  | turn :: _ => turn
  | [] => if s.busy then .sequencer else .host

/-- The state with that turn taken off the input list. -/
def popTurn (s : State) : State := { s with turns := s.turns.tail }

/-- A value placed as the accepted command that the very next step executes (10_state.md R29: acceptance needs `ERR` = 0
and sets `CMD`, `DONE` and the phase). -/
def placeCommand (v : Word) (s : State) : State :=
  { accept v { s with err := false } with turns := .sequencer :: s.turns }

end Sys2Proof.Machine
end

