-- ==== Sys2Proof/Machine/Sequencer.lean ====
section
/-! DEFINITION. The sequencer's step (10_state.md R45, 30_encoding.md R85) and the step of whoever moves next. -/

namespace Sys2Proof.Machine

/-- The fault of an illegal value `v` (30_encoding.md R85, 60_exceptions.md R212). -/
def illegalCommand (v : Word) (e : DecodeError) : FaultInfo := ⟨.illegalCommand, v.toNat, e.reason⟩

/-- The sequencer executes the accepted value from decoding to completion or fault as one step (10_state.md R45); idle it
does nothing (60_exceptions.md R227). -/
def sequencerStep (s : State) : Host.Outcome State Fault Refusal :=
  match s.phase with
  | .idle => .next s
  | .busy v =>
    match decode v with
    | .ok i => exec i s
    | .error e => .next (takeFault (illegalCommand v e) s)

/-- The step of the host or of the sequencer (00_scope.md R4), or the reset input (70_reset_and_hazards.md R240). -/
def runTurn (turn : Turn) (s : State) : Host.Outcome State Fault Refusal :=
  match turn with
  | .host => .next (hostStep s)
  | .sequencer => sequencerStep s
  | .reset => .next (unitReset s)

end Sys2Proof.Machine
end

