-- ==== Sys2Proof/Machine/Step.lean ====
section
/-! DEFINITION. One step of the machine, and how a command is placed where the next step executes it. -/

namespace Sys2Proof.Machine

/-- One step: whoever the input list names next moves, and that turn is used up (log entry 4). -/
def step (s : State) : Host.Outcome State Fault Refusal := runTurn (nextTurn s) (popTurn s)

/-- `s` with an instruction of `nbits` bits `w` placed as the accepted command that the very next step executes
(log entry 5). -/
def State.withFetchWord (s : State) (nbits w : Nat) : State := placeCommand (BitVec.ofNat 64 (w % 2 ^ nbits)) s

end Sys2Proof.Machine
end

