-- ==== Sys2Proof/Safety.lean ====
section
/-! DEFINITION. What a sound state is: the invariants the spec gives the unit's state, in the terms claims use. -/

namespace Sys2Proof.Machine

/-- The invariant of a BBS instance with modulus `n` and state `x` (43_bbs.md R175, 10_state.md R40): `1 ≤ n < 2^64`,
`x < n`, `x` is a square modulo `n`, and `x` is coprime to `n` because the repaired seed is (R170). -/
structure BbsInstance (n x : Nat) : Prop where
  pos : 1 ≤ n
  bound : n < 2 ^ 64
  reduced : x < n
  square : ∃ r, x = r ^ 2 % n
  coprime : Nat.Coprime x n

/-- The invariant every step keeps. -/
structure State.Inv (s : State) : Prop where
  /-- The parameter is in its range (00_scope.md R6). -/
  size : s.cfg.wf
  /-- The memory has its canonical form. -/
  memory : s.lram.wf
  /-- No byte is held outside the LRAM (20_memory.md R61). -/
  inside : ∀ c ∈ s.lram, c.1 < s.cfg.lramBytes
  /-- `DONE` and `ERR` are never both 1 (10_state.md R26). -/
  doneErr : ¬(s.done = true ∧ s.err = true)
  /-- While `Busy(w)`, `CMD` reads w and neither `DONE` nor `ERR` is 1 (10_state.md R29, R30). -/
  running : ∀ w, s.phase = .busy w → s.cmd = w ∧ s.done = false ∧ s.err = false
  /-- A valid instance meets the BBS invariant (43_bbs.md R175). -/
  instanceValid : s.bbsValid = true → BbsInstance s.bbsN.toNat s.bbsX.toNat
  /-- Without an instance since reset, `BBS_N` and `BBS_X` hold their reset value (10_state.md R40, R42, R47). -/
  noInstance : s.bbsValid = false → s.bbsN = 0#64 ∧ s.bbsX = 0#64
  /-- While `ERR` = 1, `CAUSE` names a fault (60_exceptions.md R211, R220). -/
  causeNamed : s.err = true → s.cause ≠ .none

/-- A run is safe when every state it passes through is sound: `n` steps from `s`, each answering a next state. -/
def RunsSafely : (n : Nat) → State → Prop
  | 0, s => s.Inv
  | n + 1, s => s.Inv ∧ ∃ t, step s = .next t ∧ RunsSafely n t

end Sys2Proof.Machine
end

