-- ==== Sys2Proof/Certificates/Slice0/Obligations.lean ====
section
/-! DEFINITION. The statements for the provers, made from the numbered rules of spec/, and the few notions they are written with. -/

namespace Sys2Proof.Claims

open Sys2Proof.Machine

/-! ### Notions, written from the rules and not from the meanings -/

/-- The state after a successful completion (60_exceptions.md R217): `DONE` = 1, phase `Idle`, the rest as it stands. -/
def finished (s : State) : State := { s with done := true, phase := .idle }

/-- The state after a fault (60_exceptions.md R214): `CAUSE`, `INFO0`, `INFO1`, `ERR` = 1, phase `Idle`, the rest as it stands. -/
def faulted (c : Cause) (info0 info1 : Nat) (s : State) : State :=
  { s with
    cause := c
    info0 := BitVec.ofNat 64 info0
    info1 := BitVec.ofNat 64 info1
    err := true
    phase := .idle }

/-- A region lies in the LRAM: `CheckRegion` passes (20_memory.md R65). -/
def InLram (s : State) (a len : Nat) : Prop := len = 0 ∨ a + len ≤ s.cfg.lramBytes

/-- Bit `k` of a bitstring stored at `a` (20_memory.md R63): bit `7 - (k mod 8)` of the byte at `a + (k div 8)`. -/
def bitAt (s : State) (a k : Nat) : Bool := (s.readByte (a + k / 8)).toNat.testBit (7 - k % 8)

/-- The bytes needed for `nbits` bits: `ceil(nbits / 8)`. -/
def bytesFor (nbits : Nat) : Nat := (nbits + 7) / 8

/-- Byte `j` of the `w`-byte big-endian word of `v` (20_memory.md R62). -/
def beByte (w v j : Nat) : Byte := BitVec.ofNat 8 (v / 256 ^ (w - 1 - j))

/-- The small primes of 00_scope.md R5. -/
def smallPrimes : List Nat := [2, 3, 5, 7, 11, 13, 17, 19, 23, 29]

/-- `Candidate(v)` (41_primality.md R126): bits 31 and 0 set, and 2 added when the result is 1 modulo 4. -/
def candidate (v : Nat) : Nat :=
  if (v ||| 0x80000001) % 4 = 1 then (v ||| 0x80000001) + 2 else v ||| 0x80000001

/-- The witness `a` accepts `n`, where `n - 1 = d·2^s` (41_primality.md R123). -/
def Accepts (n d s a : Nat) : Prop := a ^ d % n = 1 ∨ ∃ r, r < s ∧ a ^ (d * 2 ^ r) % n = n - 1

/-- A test of `n` whose witnesses are `ws` passes after trial division: no small prime divides `n`, and `ws` are accepting
witnesses of the range, one a round (41_primality.md R121, R122, R123). -/
def Passes (n rounds : Nat) (ws : List Nat) : Prop :=
  (∀ p ∈ smallPrimes, ¬p ∣ n) ∧ ws.length = rounds ∧
    ∃ d k, n - 1 = d * 2 ^ k ∧ d % 2 = 1 ∧ ∀ a ∈ ws, 2 ≤ a ∧ a ≤ n - 2 ∧ Accepts n d k a

/-- A test of `n`, beyond the small primes, whose witnesses are `ws` fails: a small prime divides `n` and no witness is
drawn, or none does and accepting witnesses are followed by one that does not accept, the last drawn (41_primality.md R121,
R122, R123). -/
def Fails (n rounds : Nat) (ws : List Nat) : Prop :=
  ((∃ p ∈ smallPrimes, p ∣ n) ∧ ws = []) ∨
    ((∀ p ∈ smallPrimes, ¬p ∣ n) ∧ ws.length ≤ rounds ∧
      ∃ d k good bad, n - 1 = d * 2 ^ k ∧ d % 2 = 1 ∧ ws = good ++ [bad] ∧
        (∀ a ∈ good, 2 ≤ a ∧ a ≤ n - 2 ∧ Accepts n d k a) ∧ 2 ≤ bad ∧ bad ≤ n - 2 ∧ ¬Accepts n d k bad)

/-- An attempt of the prime search (41_primality.md R127): the answer to its `Draw32` and those to its witness draws. -/
abbrev Attempt := Nat × List Nat

/-- The answers a list of attempts uses up, in the order of the draws (41_primality.md R127). -/
def answersOf (attempts : List Attempt) : List Nat := attempts.flatMap fun t => t.1 :: t.2

/-- Every attempt of the list fails (41_primality.md R127). -/
def AllFail (rounds : Nat) (attempts : List Attempt) : Prop :=
  ∀ t ∈ attempts, t.1 < 2 ^ 32 ∧ Fails (candidate t.1) rounds t.2

/-- The LCG state after `k` steps (42_lcg.md R150). -/
def lcgAfter (a b s : Nat) : (k : Nat) → Nat
  | 0 => s
  | k + 1 => (a * lcgAfter a b s k + b) % 2 ^ 20

/-- The sum of the first `k` draws (42_lcg.md R152). -/
def lcgSum (a b s k : Nat) : Nat := ∑ i ∈ Finset.range k, lcgAfter a b s (i + 1)

/-- `k` is the repair count of a seed modulo `n` (43_bbs.md R170): the least number of increments that makes it coprime. -/
def IsRepair (n seed k : Nat) : Prop := Nat.Coprime (seed + k) n ∧ ∀ j, j < k → ¬Nat.Coprime (seed + j) n

/-- The rounds of a keystream run (44_gamma.md R190, R194, R195, R197, R202): `st r` is the LCG state round `r` starts
from and `y (5·r + j)` its output number `j`. Each round's seed is the sum of 7 draws, repaired; its outputs are the
states after 1 to 5 squarings of the squared repaired seed; bits [63:44] of the fifth are the next LCG state. -/
def KeystreamRun (a b n s0 rounds : Nat) (st y : Nat → Nat) : Prop :=
  st 0 = s0 ∧ ∀ r, r < rounds →
    (∃ k, IsRepair n (lcgSum a b (st r) 7) k ∧
      ∀ j, j < 5 → y (5 * r + j) = (lcgSum a b (st r) 7 + k) ^ 2 ^ (j + 2) % n) ∧
    st (r + 1) = y (5 * r + 4) / 2 ^ 44 % 2 ^ 20

/-- `BBS_P` and `BBS_Q` pass `BbsCheck` (43_bbs.md R171). -/
def KeyLoaded (s : State) : Prop :=
  1 ≤ s.bbsP.toNat ∧ s.bbsP.toNat < 2 ^ 32 ∧ 1 ≤ s.bbsQ.toNat ∧ s.bbsQ.toNat < 2 ^ 32

/-- The number of rounds `ceil(L / 320)` (44_gamma.md R191). -/
def roundsFor (nbits : Nat) : Nat := (nbits + 319) / 320

/-- `GAMMA` with at least one round passes all its checks (44_gamma.md R193). -/
def GammaReady (audit : Bool) (s : State) : Prop :=
  s.len.toNat ≠ 0 ∧ KeyLoaded s ∧ InLram s s.dst.toNat (bytesFor s.len.toNat) ∧
    (audit = true → InLram s s.adst.toNat (40 * roundsFor s.len.toNat))

/-- `GAMMA` raises no fault: it runs no round, or passes all its checks (44_gamma.md R192, R193). -/
def GammaPasses (audit : Bool) (s : State) : Prop := s.len.toNat = 0 ∨ GammaReady audit s

/-- The state with the three operands that a `GAMMA` request names: its length, its gamma and its audit region. -/
def request (len dst adst : Word) (s : State) : State := { s with len := len, dst := dst, adst := adst }

/-- An address outside the audit region of `GAMMA` (44_gamma.md R196). -/
def OutsideAudit (s : State) (x : Nat) : Prop :=
  x < s.adst.toNat ∨ s.adst.toNat + 40 * roundsFor s.len.toNat ≤ x

/-- The keystream run of a state's key, from its LCG state. -/
def RunOf (s : State) (st y : Nat → Nat) : Prop :=
  KeystreamRun s.lcgA.toNat s.lcgB.toNat (s.bbsP.toNat * s.bbsQ.toNat) s.lcgS.toNat (roundsFor s.len.toNat) st y

/-- The indices of the read-only registers (10_state.md R23, R24). -/
def readOnlyIndices : List Byte := [0x00#8, 0x04#8, 0x05#8, 0x06#8, 0x07#8, 0x08#8, 0x12#8, 0x1A#8, 0x1B#8]

/-- The indices of the RW registers other than `CTRL` and `STATUS` (10_state.md R31). -/
def operandIndices : List Byte :=
  [0x09#8, 0x0A#8, 0x0B#8, 0x0C#8, 0x10#8, 0x11#8, 0x13#8, 0x18#8, 0x19#8, 0x1C#8, 0x20#8, 0x21#8, 0x22#8, 0x23#8]

/-- The indices of the registers whose read during `Busy` is unspecified (10_state.md R48). -/
def unspecifiedIndices : List Byte := [0x04#8, 0x05#8, 0x06#8, 0x07#8, 0x08#8, 0x13#8, 0x1A#8, 0x1B#8]

/-- The mapped indices (10_state.md R23). -/
def mappedIndices : List Byte := [0x01#8, 0x02#8, 0x03#8] ++ readOnlyIndices ++ operandIndices

/-- The reset value of the register at a mapped index (10_state.md R23, R47). -/
def resetValue (index : Byte) : Word :=
  if index = 0x00#8 then 0x4242533100000007#64
  else if index = 0x12#8 then 0x100000#64
  else if index = 0x23#8 then 100000#64
  else 0#64

/-- The opcodes of the Z format (30_encoding.md R84). -/
def zOpcodes : List Nat := [0x10, 0x11, 0x20, 0x30, 0x40, 0x41]

/-- The opcodes of the I format (30_encoding.md R84). -/
def iOpcodes : List Nat := [0x21, 0x22, 0x31, 0x42]

/-- The causes a command may raise once decoded (60_exceptions.md R211). -/
def raises : Instr → List Cause
  | .enc7 => [.outOfRangeSymbol, .addressRange]
  | .dec7 => [.misalignedLength, .addressRange]
  | .modexp => [.paramRange]
  | .mrTest _ => []
  | .primeGen _ => [.primeGenerationFailure]
  | .lcgNext => []
  | .lcgGenn _ => [.addressRange]
  | .bbsInit => [.paramRange]
  | .bbsNext => [.bbsNotInitialized]
  | .bbsOut _ => [.bbsNotInitialized, .addressRange]
  | .gamma _ => [.paramRange, .addressRange]

end Sys2Proof.Claims

open Sys2Proof Sys2Proof.Machine Sys2Proof.Claims

/-! ### Encoding -/

/-- Decoding the value that issues a well-formed command gives it back (30_encoding.md R80, R81, R84, R85). -/
def Obligations.DecodeOfEncodedCommand : Prop :=
  ∀ i : Instr, i.wellFormed = true → decode (commandValue i) = .ok i

/-- Every value that decodes is the value of the one well-formed command it decodes to (30_encoding.md R85, R87, R88). -/
def Obligations.LegalValueIsOneCommand : Prop :=
  ∀ (v : Word) (i : Instr), decode v = .ok i → i.wellFormed = true ∧ v = commandValue i

/-- The three reasons of 30_encoding.md R85, each exactly where the rule gives it, in the order of its checks. -/
def Obligations.IllegalReasons : Prop :=
  ∀ v : Word,
    (2 ^ 32 ≤ v.toNat → decode v = .error .highHalf) ∧
    (v.toNat < 2 ^ 32 → v.toNat / 2 ^ 24 ∉ zOpcodes → v.toNat / 2 ^ 24 ∉ iOpcodes → v.toNat / 2 ^ 24 ≠ 0x50 →
      decode v = .error .opcode) ∧
    (v.toNat < 2 ^ 32 → v.toNat / 2 ^ 24 ∈ zOpcodes → v.toNat % 2 ^ 24 ≠ 0 → decode v = .error .reservedField) ∧
    (v.toNat < 2 ^ 32 → v.toNat / 2 ^ 24 ∈ iOpcodes → v.toNat / 2 ^ 16 % 2 ^ 8 ≠ 0 → decode v = .error .reservedField) ∧
    (v.toNat < 2 ^ 32 → v.toNat / 2 ^ 24 = 0x50 → v.toNat % 2 ^ 24 ≠ 0 → v.toNat % 2 ^ 24 ≠ 2 ^ 16 →
      decode v = .error .reservedField)

/-- Words of the table of 95_test_vectors.md section 2.1 and of the command files, one of each family. -/
def Obligations.WrittenWordsDecode : Prop :=
  decode 0x0000000010000000#64 = .ok .enc7 ∧ decode 0x000000002100000A#64 = .ok (.mrTest 10) ∧
    decode 0x0000000031000007#64 = .ok (.lcgGenn 7) ∧ decode 0x0000000042000002#64 = .ok (.bbsOut 2) ∧
    decode 0x0000000050010000#64 = .ok (.gamma true) ∧ decode 0x0000000000000000#64 = .error .opcode ∧
    decode 0x0000000050020000#64 = .error .reservedField ∧ decode 0x0000000110000000#64 = .error .highHalf

/-! ### The step -/

/-- A step of the sequencer runs the command that the accepted value decodes to, in the state with that turn used up, and
a value that does not decode takes the fault `ILLEGAL_COMMAND`, changing nothing but the fault registers
(10_state.md R45, 30_encoding.md R85). With no turn given (log entry 4) a busy unit's sequencer moves. -/
def Obligations.StepRunsDecodedCommand : Prop :=
  ∀ (s : State) (v : Word), s.phase = .busy v →
    (s.turns = [] → nextTurn s = .sequencer) ∧
    (nextTurn s = .sequencer →
      (∀ i, decode v = .ok i → step s = exec i (popTurn s)) ∧
      (∀ e, decode v = .error e → step s = .next (faulted .illegalCommand v.toNat e.reason (popTurn s))))

/-- 30_encoding.md R86, through the step: a value with a non-zero high half is illegal even if its low half is a legal
word; reason 0. -/
def Obligations.HighHalfIsIllegal : Prop :=
  ∀ (s : State) (v : Word), s.phase = .busy v → nextTurn s = .sequencer → v.toNat / 2 ^ 32 ≠ 0 →
    step s = .next { popTurn s with
      cause := .illegalCommand, info0 := v, info1 := 0#64, err := true, phase := .idle }

/-- No step stops the machine (60_exceptions.md R210, R228), and a step of the sequencer ends the running command: the
phase is `Idle` and exactly one of `DONE` and `ERR` is 1 (R214, R217; 10_state.md R26). -/
def Obligations.EveryCommandEnds : Prop :=
  (∀ s : State, ∃ t, step s = .next t) ∧
  ∀ (s t : State) (v : Word), s.Inv → s.phase = .busy v → nextTurn s = .sequencer → step s = .next t →
    t.phase = .idle ∧ t.err = !t.done ∧ t.cmd = v

/-- A host operation leaves a running command and all it reads and writes alone (10_state.md R29, R31, R45;
20_memory.md R73), `DONE` and `ERR` included, which are 0 while it runs (R26, R29): only `CTRL`, `DROP`, the host agent and
the counter of unspecified reads (the model's own, log entry 6) change. -/
def Obligations.HostLeavesRunningCommandAlone : Prop :=
  ∀ (s : State) (v : Word), s.Inv → s.phase = .busy v → nextTurn s = .host →
    ∃ t, step s = .next t ∧ t.done = false ∧ t.err = false ∧ t =
      { popTurn s with
        ieDone := t.ieDone, ieErr := t.ieErr, drop := t.drop, busyReads := t.busyReads, host := t.host }

/-- The reset input in any phase (70_reset_and_hazards.md R240, R241, R242; 10_state.md R47): every mapped register reads
its reset value, the phase is `Idle`, the line is low, and every LRAM byte is unspecified again. That such a byte reads as a
free value numbered by the reset is the model's choice of form (log entry 2, DESIGN CHOICE), and that the host agent, the
entropy source and the parameter stay is the model's reading (log entry 7, DEDUCED). -/
def Obligations.ResetInputResetsUnit : Prop :=
  ∀ s : State, nextTurn s = .reset → ∃ t, step s = .next t ∧ t.phase = .idle ∧ t.irq = false ∧
    (∀ index ∈ mappedIndices, regRead index t = (resetValue index, t)) ∧
    (∀ a, t.readByte a = Config.lramReset (s.epoch + 1) a) ∧
    t.host = s.host ∧ t.entropy = s.entropy ∧ t.cfg = s.cfg ∧ t.turns = s.turns.tail

/-- 10_state.md R47: after reset every register reads its reset value (so every `STATUS` and `CTRL` bit is 0), the phase is
`Idle`, `IRQ` is 0 and no BBS instance exists. The last clause is the model's choice of form (log entry 2, DESIGN CHOICE):
R47 says only that the LRAM content is unspecified, and the model reads each such byte as a free value. -/
def Obligations.ResetStateReadsTable : Prop :=
  (∀ index ∈ mappedIndices, regRead index State.reset = (resetValue index, State.reset)) ∧
    State.reset.phase = .idle ∧ State.reset.irq = false ∧ State.reset.bbsValid = false ∧
    ∀ a, State.reset.readByte a = Config.lramReset State.reset.epoch a

/-- The invariant holds at reset. -/
def Obligations.InvariantAtReset : Prop := State.reset.Inv

/-- Every step keeps the invariant: the memory's canonical form, `DONE` and `ERR` never both 1 (10_state.md R26), the
running command (R29, R30), and a valid BBS instance with `x < n < 2^64`, `x` a square modulo `n` and coprime to it
(10_state.md R40, 43_bbs.md R170, R175). -/
def Obligations.StepKeepsInvariant : Prop := ∀ s t : State, s.Inv → step s = .next t → t.Inv

/-- `BBS_VALID` once 1 stays 1 except for a reset, and only a command of the sequencer sets it (10_state.md R26, R42). -/
def Obligations.BbsValidOnlyResetClears : Prop :=
  ∀ s t : State, step s = .next t →
    (s.bbsValid = true → nextTurn s ≠ .reset → t.bbsValid = true) ∧
    (s.bbsValid = false → t.bbsValid = true →
      nextTurn s = .sequencer ∧ ∃ v, s.phase = .busy v ∧ (decode v = .ok .bbsInit ∨ ∃ a, decode v = .ok (.gamma a)))

/-- While `ERR` = 1 no command starts and an unacknowledged fault is never overwritten (60_exceptions.md R219, R220): up to
a reset, the phase stays `Idle`, and the fault registers, the results and the LCG and BBS state keep their values, except
that the host may write `LCG_S`. -/
def Obligations.UnacknowledgedFaultIsKept : Prop :=
  ∀ s t : State, s.Inv → s.err = true → nextTurn s ≠ .reset → step s = .next t →
    t.phase = .idle ∧ t.cmd = s.cmd ∧ t.cause = s.cause ∧ t.info0 = s.info0 ∧ t.info1 = s.info1 ∧ t.res0 = s.res0 ∧
      t.res1 = s.res1 ∧ t.bbsN = s.bbsN ∧ t.bbsX = s.bbsX ∧ t.bbsValid = s.bbsValid ∧ t.entropy = s.entropy

/-- Only a fault writes `CAUSE`, `INFO0` and `INFO1` (10_state.md R32, R33; 60_exceptions.md R210, R217): a step that is no
reset and that changes one of them is the sequencer's, ends in a fault, and the cause reads 1 to 7. -/
def Obligations.OnlyFaultsWriteFaultRegisters : Prop :=
  ∀ s t : State, s.Inv → step s = .next t → nextTurn s ≠ .reset →
    (t.cause ≠ s.cause ∨ t.info0 ≠ s.info0 ∨ t.info1 ≠ s.info1) →
    nextTurn s = .sequencer ∧ (∃ v, s.phase = .busy v) ∧ t.err = true ∧ t.done = false ∧
      1 ≤ (regRead 0x04#8 t).1.toNat ∧ (regRead 0x04#8 t).1.toNat ≤ 7

/-! ### The register port and the byte port -/

/-- 10_state.md R29: a write to `CMD` is accepted in phase `Idle` with `ERR` = 0, and dropped otherwise; acceptance does not
decode the value: an illegal one is accepted all the same, and only the sequencer's step takes its fault. -/
def Obligations.CommandWriteAcceptedOrDropped : Prop :=
  ∀ (s : State) (v : Word),
    (s.phase = .idle → s.err = false →
      regWrite 0x03#8 v s = { s with cmd := v, done := false, phase := .busy v } ∧
      (regRead 0x02#8 (regWrite 0x03#8 v s)).1.getLsbD 0 = true ∧
      (∀ i, decode v = .ok i → runTurn .sequencer (regWrite 0x03#8 v s) = exec i (regWrite 0x03#8 v s)) ∧
      (∀ e, decode v = .error e → runTurn .sequencer (regWrite 0x03#8 v s) =
        .next (faulted .illegalCommand v.toNat e.reason (regWrite 0x03#8 v s)))) ∧
    (s.phase ≠ .idle ∨ s.err = true → regWrite 0x03#8 v s = { s with drop := true })

/-- 10_state.md R30: in every phase `CMD` reads the last accepted value, all 64 bits of it; up to a reset only the acceptance
of another value changes it. -/
def Obligations.CommandRegisterHoldsLastAccepted : Prop :=
  (∀ s : State, regRead 0x03#8 s = (s.cmd, s)) ∧
  (∀ (s : State) (v : Word), s.phase = .idle → s.err = false → (regRead 0x03#8 (regWrite 0x03#8 v s)).1 = v) ∧
  ∀ s t : State, step s = .next t → nextTurn s ≠ .reset →
    t.cmd = s.cmd ∨ (nextTurn s = .host ∧ s.phase = .idle ∧ s.err = false ∧ t.phase = .busy t.cmd)

/-- 10_state.md R31: while `Busy` a write to an operand register is dropped; in phase `Idle` it takes effect at once, whatever
`ERR` is, and no other register and no LRAM byte changes. -/
def Obligations.OperandWriteDroppedWhileBusy : Prop :=
  ∀ (s : State) (v : Word) (index : Byte), index ∈ operandIndices →
    (∀ w, s.phase = .busy w → regWrite index v s = { s with drop := true }) ∧
    (s.phase = .idle →
      (regRead index (regWrite index v s)).1 = (if index = 0x13#8 then BitVec.ofNat 64 (v.toNat % 2 ^ 20) else v) ∧
      (∀ other, other ≠ index → (regRead other (regWrite index v s)).1 = (regRead other s).1) ∧
      (regWrite index v s).phase = .idle ∧ (regWrite index v s).lram = s.lram ∧ (regWrite index v s).epoch = s.epoch ∧
      (regWrite index v s).host = s.host ∧ (regWrite index v s).entropy = s.entropy ∧ (regWrite index v s).cfg = s.cfg)

/-- 10_state.md R27: `LCG_S` stores the written value modulo 2^20, always reads below 2^20, raises no fault, is the only WARL
register, and a draw from the reduced value is the draw from the written one. -/
def Obligations.LcgStateIsWarl : Prop :=
  (∀ (s : State) (v : Word), s.phase = .idle →
    (regRead 0x13#8 (regWrite 0x13#8 v s)).1.toNat = v.toNat % 2 ^ 20 ∧ (regWrite 0x13#8 v s).err = s.err ∧
    ∃ t, exec .lcgNext (regWrite 0x13#8 v s) = .next t ∧
      t.lcgS.toNat = (s.lcgA.toNat * v.toNat + s.lcgB.toNat) % 2 ^ 20) ∧
  (∀ s : State, s.phase = .idle → (regRead 0x13#8 s).1.toNat < 2 ^ 20) ∧
  (∀ (s : State) (v : Word) (index : Byte), s.phase = .idle → index ∈ operandIndices → index ≠ 0x13#8 →
    (regRead index (regWrite index v s)).1 = v)

/-- 10_state.md R24: a write to a read-only register is ignored in every phase and sets no status bit, and no host operation
changes one: only commands write the read-only registers other than `ID` and `LCG_M`, and no command writes those two. -/
def Obligations.ReadOnlyRegistersIgnoreWrites : Prop :=
  (∀ (s : State) (v : Word) (index : Byte), index ∈ readOnlyIndices → regWrite index v s = s) ∧
  (∀ (s : State) (op : HostOp) (r : Reg), regAccess r = .readOnly → (hostOperation op s).reg r = s.reg r) ∧
  (∀ (i : Instr) (s t : State), exec i s = .next t → t.reg .id = s.reg .id ∧ t.reg .lcgM = s.reg .lcgM)

/-- An unmapped index reads 0 and ignores writes, with no status bit, in every phase (10_state.md R22, R23); `ID` and `LCG_M`
always read their constants (R21, R37). -/
def Obligations.UnmappedAndConstantRegisters : Prop :=
  ∀ s : State,
    (∀ (index : Byte) (v : Word), index ∉ mappedIndices → regRead index s = (0#64, s) ∧ regWrite index v s = s) ∧
    regRead 0x00#8 s = (0x4242533100000007#64, s) ∧ regRead 0x12#8 s = (0x100000#64, s)

/-- 10_state.md R25: `CTRL` takes v[1:0] in every phase, its other bits read 0, bit 0 enables the line for `DONE` and bit 1
for `ERR`, and it reads 0 after reset. -/
def Obligations.CtrlWriteTakesTwoBits : Prop :=
  (∀ (s : State) (v : Word),
    regWrite 0x01#8 v s = { s with ieDone := v.getLsbD 0, ieErr := v.getLsbD 1 } ∧
    (regRead 0x01#8 (regWrite 0x01#8 v s)).1.toNat = v.toNat % 4 ∧
    (regWrite 0x01#8 v s).irq = (s.done && v.getLsbD 0 || s.err && v.getLsbD 1)) ∧
  (regRead 0x01#8 State.reset).1 = 0#64

/-- Every bit of `STATUS` as it reads (10_state.md R26), and bit 5 is the line `(DONE and IE_DONE) or (ERR and IE_ERR)`
(R46). -/
def Obligations.StatusReadsItsBits : Prop :=
  State.reset.irq = false ∧
  ∀ s : State, ∃ w : Word, regRead 0x02#8 s = (w, s) ∧ w.getLsbD 0 = decide (s.phase ≠ .idle) ∧ w.getLsbD 1 = s.done ∧
    w.getLsbD 2 = s.err ∧ w.getLsbD 3 = s.drop ∧ w.getLsbD 4 = s.bbsValid ∧ w.getLsbD 5 = s.irq ∧
    (s.irq = true ↔ (s.done = true ∧ (regRead 0x01#8 s).1.getLsbD 0 = true) ∨
      (s.err = true ∧ (regRead 0x01#8 s).1.getLsbD 1 = true)) ∧
    ∀ k, 6 ≤ k → w.getLsbD k = false

/-- 10_state.md R28: in every phase a write to `STATUS` clears exactly the W1C bits 1, 2, 3 that are written 1; every other
bit of the value is ignored, and nothing else changes. -/
def Obligations.StatusWriteOneToClear : Prop :=
  ∀ (s : State) (v : Word),
    regWrite 0x02#8 v s =
      { s with done := (regWrite 0x02#8 v s).done, err := (regWrite 0x02#8 v s).err, drop := (regWrite 0x02#8 v s).drop } ∧
    (∀ k, k = 1 ∨ k = 2 ∨ k = 3 → (regRead 0x02#8 (regWrite 0x02#8 v s)).1.getLsbD k =
      if v.getLsbD k then false else (regRead 0x02#8 s).1.getLsbD k) ∧
    (∀ k, k = 0 ∨ k = 4 ∨ 6 ≤ k → (regRead 0x02#8 (regWrite 0x02#8 v s)).1.getLsbD k = (regRead 0x02#8 s).1.getLsbD k)

/-- Reads have no side effects (20_memory.md R69), but for the unspecified reads during `Busy`, which change nothing of the
unit (10_state.md R48, 20_memory.md R73); every other register reads its value in every phase. -/
def Obligations.ReadsHaveNoSideEffects : Prop :=
  ∀ s : State,
    (s.phase = .idle → ∀ (index : Byte) (a : Nat), (regRead index s).2 = s ∧ (memRead8 a s).2 = s) ∧
    (∀ w, s.phase = .busy w →
      (∀ index ∈ unspecifiedIndices, (regRead index s).2 = { s with busyReads := (regRead index s).2.busyReads }) ∧
      (∀ index, index ∉ unspecifiedIndices → (regRead index s).2 = s ∧
        (index ≠ 0x02#8 → (regRead index s).1 = (regRead index { s with phase := .idle }).1)) ∧
      (∀ a, (memRead8 a s).2 = { s with busyReads := (memRead8 a s).2.busyReads }))

/-- The host's byte port (20_memory.md R64, R73): in phase `Idle` a byte written below `LRAM_BYTES` reads back (its low 8
bits) and no other byte changes; outside, a read gives 0 and a write is ignored; during `Busy` a write is dropped and a read
gives a free value (log entry 6). No operation of it changes anything else. -/
def Obligations.HostBytePort : Prop :=
  ∀ (s : State) (a : Nat) (v : Word),
    (s.phase = .idle → a < s.cfg.lramBytes →
      memRead8 a s = (s.readByte a, s) ∧
      (memRead8 a (memWrite8 a v s)).1.toNat = v.toNat % 256 ∧
      (∀ x, x ≠ a → (memWrite8 a v s).readByte x = s.readByte x) ∧
      memWrite8 a v s = { s with lram := (memWrite8 a v s).lram }) ∧
    (s.phase = .idle → s.cfg.lramBytes ≤ a → memRead8 a s = (0#8, s) ∧ memWrite8 a v s = s) ∧
    (∀ w, s.phase = .busy w → memWrite8 a v s = { s with drop := true } ∧
      memRead8 a s = ((Config.freeRead s.busyReads).setWidth 8, { s with busyReads := s.busyReads + 1 }))

/-- The host program (30_encoding.md R89), `u` being the state with the host's turn used up: a branch leaves the value it
read in `t` and goes to its label when the masked value is not 0 (`BRSET`) or is 0 (`BRCLR`) and else to the next operation,
`CMD` writes the command's word to `CMD`, every other operation goes on to the next one, and a program that has ended does
nothing. Two clauses are the model's and no rule's: `RD` and `MR8` leave their value in `t` too (log entry 12, DESIGN
CHOICE), and the program counter stays on a `HALT` (log entry 18, DEDUCED). -/
def Obligations.HostProgramRuns : Prop :=
  ∀ s u : State, nextTurn s = .host → u = popTurn s →
    (s.host.program[s.host.pc]? = none → step s = .next u) ∧
    (s.host.program[s.host.pc]? = some .halt → step s = .next u) ∧
    (∀ index, s.host.program[s.host.pc]? = some (.rd index) →
      step s = .next { (regRead index u).2 with host := ⟨s.host.program, s.host.pc + 1, (regRead index u).1⟩ }) ∧
    (∀ index mask label, s.host.program[s.host.pc]? = some (.brset index mask label) →
      step s = .next { (regRead index u).2 with
        host := ⟨s.host.program, if (regRead index u).1 &&& mask ≠ 0#64 then label else s.host.pc + 1,
          (regRead index u).1⟩ }) ∧
    (∀ index mask label, s.host.program[s.host.pc]? = some (.brclr index mask label) →
      step s = .next { (regRead index u).2 with
        host := ⟨s.host.program, if (regRead index u).1 &&& mask = 0#64 then label else s.host.pc + 1,
          (regRead index u).1⟩ }) ∧
    (∀ index v, s.host.program[s.host.pc]? = some (.wr index v) →
      step s = .next { regWrite index v u with host := ⟨s.host.program, s.host.pc + 1, s.host.t⟩ }) ∧
    (∀ i, s.host.program[s.host.pc]? = some (.cmd i) →
      step s = .next { regWrite 0x03#8 (commandValue i) u with host := ⟨s.host.program, s.host.pc + 1, s.host.t⟩ }) ∧
    (∀ a, s.host.program[s.host.pc]? = some (.mr8 a) →
      step s = .next { (memRead8 a u).2 with
        host := ⟨s.host.program, s.host.pc + 1, (memRead8 a u).1.setWidth 64⟩ }) ∧
    (∀ a v, s.host.program[s.host.pc]? = some (.mw8 a v) →
      step s = .next { memWrite8 a v u with host := ⟨s.host.program, s.host.pc + 1, s.host.t⟩ })

/-- The entropy source (00_scope.md R12): an answer lies in the range of its draw, every value of the range is the answer
for some pending input, and a draw changes nothing but the source. -/
def Obligations.EntropyAnswersAreFree : Prop :=
  ∀ lo hi : Nat, lo ≤ hi → hi < 2 ^ 64 →
    (∀ e : Entropy, lo ≤ (e.drawRange lo hi).1 ∧ (e.drawRange lo hi).1 ≤ hi) ∧
    (∀ (v : Nat) (rest : List Word) (k : Nat), lo ≤ v → v ≤ hi →
      (Entropy.mk (BitVec.ofNat 64 v :: rest) k).drawRange lo hi = (v, ⟨rest, k⟩)) ∧
    (∀ e : Entropy, e.draw32.1 < 2 ^ 32) ∧
    (∀ (v : Nat) (rest : List Word) (k : Nat), v < 2 ^ 32 →
      (Entropy.mk (BitVec.ofNat 64 v :: rest) k).draw32 = (v, ⟨rest, k⟩))

/-! ### The codec -/

/-- `ENC7` on legal symbols (40_codec.md R101): bit `7·i + j` at `DST` is bit `6 - j` of symbol `i`, the pad bits are 0,
`RES0` = 7·n, every other byte and every other part of the state keeps its value. -/
def Obligations.Enc7WritesSymbolCodes : Prop :=
  ∀ s : State, s.cfg.wf → InLram s s.src.toNat s.len.toNat → InLram s s.dst.toNat (bytesFor (7 * s.len.toNat)) →
    (∀ i, i < s.len.toNat → (s.readByte (s.src.toNat + i)).toNat ≤ 127) →
    ∃ t, exec .enc7 s = .next t ∧ t = finished { s with lram := t.lram, res0 := t.res0 } ∧
      t.res0.toNat = 7 * s.len.toNat ∧
      (∀ i j, i < s.len.toNat → j < 7 →
        bitAt t s.dst.toNat (7 * i + j) = (s.readByte (s.src.toNat + i)).toNat.testBit (6 - j)) ∧
      (∀ k, 7 * s.len.toNat ≤ k → k < 8 * bytesFor (7 * s.len.toNat) → bitAt t s.dst.toNat k = false) ∧
      (∀ x, x < s.dst.toNat ∨ s.dst.toNat + bytesFor (7 * s.len.toNat) ≤ x → t.readByte x = s.readByte x)

/-- The faults of `ENC7` in their order (40_codec.md R101, 60_exceptions.md R216): source region, destination region, then
the lowest byte above 127 with its value and index. Nothing but the fault registers is written (R215). -/
def Obligations.Enc7FaultsInOrder : Prop :=
  ∀ s : State,
    (¬InLram s s.src.toNat s.len.toNat →
      exec .enc7 s = .next (faulted .addressRange s.src.toNat s.len.toNat s)) ∧
    (InLram s s.src.toNat s.len.toNat → ¬InLram s s.dst.toNat (bytesFor (7 * s.len.toNat)) →
      exec .enc7 s = .next (faulted .addressRange s.dst.toNat (bytesFor (7 * s.len.toNat)) s)) ∧
    (InLram s s.src.toNat s.len.toNat → InLram s s.dst.toNat (bytesFor (7 * s.len.toNat)) →
      ∀ i, i < s.len.toNat → 127 < (s.readByte (s.src.toNat + i)).toNat →
        (∀ j, j < i → (s.readByte (s.src.toNat + j)).toNat ≤ 127) →
        exec .enc7 s = .next (faulted .outOfRangeSymbol (s.readByte (s.src.toNat + i)).toNat i s))

/-- `DEC7` on a multiple of 7 bits (40_codec.md R102): bit `6 - j` of symbol `k` at `DST` is bit `7·k + j` of the input, each
symbol is at most 127, `RES0` = nbits/7, and everything else keeps its value. -/
def Obligations.Dec7WritesSymbols : Prop :=
  ∀ s : State, s.len.toNat % 7 = 0 → InLram s s.src.toNat (bytesFor s.len.toNat) →
    InLram s s.dst.toNat (s.len.toNat / 7) →
    ∃ t, exec .dec7 s = .next t ∧ t = finished { s with lram := t.lram, res0 := t.res0 } ∧
      t.res0.toNat = s.len.toNat / 7 ∧
      (∀ k, k < s.len.toNat / 7 → (t.readByte (s.dst.toNat + k)).toNat ≤ 127 ∧
        ∀ j, j < 7 → (t.readByte (s.dst.toNat + k)).toNat.testBit (6 - j) = bitAt s s.src.toNat (7 * k + j)) ∧
      (∀ x, x < s.dst.toNat ∨ s.dst.toNat + s.len.toNat / 7 ≤ x → t.readByte x = s.readByte x)

/-- The faults of `DEC7` in their order (40_codec.md R102, 60_exceptions.md R216): length, source region, destination
region; nothing but the fault registers is written (R215). -/
def Obligations.Dec7FaultsInOrder : Prop :=
  ∀ s : State,
    (s.len.toNat % 7 ≠ 0 → exec .dec7 s = .next (faulted .misalignedLength s.len.toNat 0 s)) ∧
    (s.len.toNat % 7 = 0 → ¬InLram s s.src.toNat (bytesFor s.len.toNat) →
      exec .dec7 s = .next (faulted .addressRange s.src.toNat (bytesFor s.len.toNat) s)) ∧
    (s.len.toNat % 7 = 0 → InLram s s.src.toNat (bytesFor s.len.toNat) → ¬InLram s s.dst.toNat (s.len.toNat / 7) →
      exec .dec7 s = .next (faulted .addressRange s.dst.toNat (s.len.toNat / 7) s))

/-- 40_codec.md R103: `DEC7` of what `ENC7` wrote writes the symbols, and `ENC7` of what `DEC7` wrote writes the bitstring
followed by zero pad bits. `d` and `e` are the destinations of the second command. -/
def Obligations.CodecRoundTrips : Prop :=
  (∀ (s : State) (d : Word), s.cfg.wf → InLram s s.src.toNat s.len.toNat →
    InLram s s.dst.toNat (bytesFor (7 * s.len.toNat)) → InLram s d.toNat s.len.toNat →
    (∀ i, i < s.len.toNat → (s.readByte (s.src.toNat + i)).toNat ≤ 127) →
    ∃ t u, exec .enc7 s = .next t ∧
      exec .dec7 { t with src := s.dst, len := BitVec.ofNat 64 (7 * s.len.toNat), dst := d } = .next u ∧
      u.res0 = s.len ∧ ∀ i, i < s.len.toNat → u.readByte (d.toNat + i) = s.readByte (s.src.toNat + i)) ∧
  (∀ (s : State) (e : Word), s.cfg.wf → s.len.toNat % 7 = 0 → InLram s s.src.toNat (bytesFor s.len.toNat) →
    InLram s s.dst.toNat (s.len.toNat / 7) → InLram s e.toNat (bytesFor s.len.toNat) →
    ∃ t u, exec .dec7 s = .next t ∧
      exec .enc7 { t with src := s.dst, len := BitVec.ofNat 64 (s.len.toNat / 7), dst := e } = .next u ∧
      u.res0 = s.len ∧ (∀ k, k < s.len.toNat → bitAt u e.toNat k = bitAt s s.src.toNat k) ∧
      ∀ k, s.len.toNat ≤ k → k < 8 * bytesFor s.len.toNat → bitAt u e.toNat k = false)

/-! ### The primality engine -/

/-- 41_primality.md R120: the word 0x2000_0000 is `MODEXP`; `RES0` = b^e mod m as naturals for every 64-bit b, e, m with m not 0, nothing else but the
completion changes, and m = 0 faults `PARAM_RANGE` with the index of `MX_MOD` and 0. -/
def Obligations.ModexpIsPowerModulo : Prop :=
  decode 0x20000000#64 = .ok .modexp ∧
  ∀ s : State,
    (s.mxMod.toNat ≠ 0 →
      exec .modexp s =
        .next (finished { s with res0 := BitVec.ofNat 64 (s.mxBase.toNat ^ s.mxExp.toNat % s.mxMod.toNat) }) ∧
      s.mxBase.toNat ^ s.mxExp.toNat % s.mxMod.toNat < s.mxMod.toNat) ∧
    (s.mxMod.toNat = 0 → exec .modexp s = .next (faulted .paramRange 0x22 0 s))

/-- Where trial division decides, `MR_TEST` draws no witness (41_primality.md R121, R124): n < 2 gives (0, 0), a small prime
(1, 0), any other multiple of a small prime (0, 0); nothing else changes. -/
def Obligations.MrTestTrialDivision : Prop :=
  ∀ (s : State) (rounds : Nat),
    (s.mxMod.toNat < 2 → exec (.mrTest rounds) s = .next (finished { s with res0 := 0#64, res1 := 0#64 })) ∧
    (s.mxMod.toNat ∈ smallPrimes → exec (.mrTest rounds) s = .next (finished { s with res0 := 1#64, res1 := 0#64 })) ∧
    (2 ≤ s.mxMod.toNat → s.mxMod.toNat ∉ smallPrimes → (∃ p ∈ smallPrimes, p ∣ s.mxMod.toNat) →
      exec (.mrTest rounds) s = .next (finished { s with res0 := 0#64, res1 := 0#64 }))

/-- The witness rounds of `MR_TEST` (41_primality.md R122, R123, R124), for an n that trial division does not decide and
n - 1 = d·2^k with d odd: if the next answers are accepting witnesses, one a round, it reports (1, rounds); at the first
that does not accept it reports 0 and the number drawn, and draws no further. Nothing else changes. -/
def Obligations.MrTestFollowsWitnesses : Prop :=
  ∀ (s : State) (rounds d k : Nat) (ws : List Nat) (rest : List Word), rounds < 65536 → 2 ≤ s.mxMod.toNat →
    (∀ p ∈ smallPrimes, ¬p ∣ s.mxMod.toNat) → s.mxMod.toNat - 1 = d * 2 ^ k → d % 2 = 1 →
    (∀ a ∈ ws, 2 ≤ a ∧ a ≤ s.mxMod.toNat - 2 ∧ Accepts s.mxMod.toNat d k a) →
    (ws.length = rounds → s.entropy.queue = ws.map (BitVec.ofNat 64) ++ rest →
      exec (.mrTest rounds) s =
        .next (finished { s with res0 := 1#64, res1 := BitVec.ofNat 64 rounds, entropy := ⟨rest, s.entropy.drawn⟩ })) ∧
    (∀ a, ws.length < rounds → 2 ≤ a → a ≤ s.mxMod.toNat - 2 → ¬Accepts s.mxMod.toNat d k a →
      s.entropy.queue = ws.map (BitVec.ofNat 64) ++ BitVec.ofNat 64 a :: rest →
      exec (.mrTest rounds) s =
        .next (finished
          { s with res0 := 0#64, res1 := BitVec.ofNat 64 (ws.length + 1), entropy := ⟨rest, s.entropy.drawn⟩ }))

/-- `MR_TEST` completes from every state and under every draw, writes nothing but `RES0` (1 or 0) and `RES1`, and draws at
most `rounds` witnesses (41_primality.md R124, R129). -/
def Obligations.MrTestCompletes : Prop :=
  ∀ (s : State) (rounds : Nat), rounds < 65536 →
    ∃ t, exec (.mrTest rounds) s = .next t ∧
      t = finished { s with res0 := t.res0, res1 := t.res1, entropy := t.entropy } ∧
      (t.res0 = 0#64 ∨ t.res0 = 1#64) ∧ t.res1.toNat ≤ rounds

/-- 41_primality.md R125 (a): for a prime n the result is 1 under every sequence of draws, with one witness a round, or none
for a small prime. -/
def Obligations.PrimeIsNeverRejected : Prop :=
  ∀ (s : State) (rounds : Nat), rounds < 65536 → Nat.Prime s.mxMod.toNat →
    ∃ t, exec (.mrTest rounds) s = .next t ∧
      t = finished { s with
        res0 := 1#64, res1 := BitVec.ofNat 64 (if s.mxMod.toNat ∈ smallPrimes then 0 else rounds), entropy := t.entropy }

/-- `PRIME_GEN` after any attempts that fail, by a small factor or on a witness (41_primality.md R126, R127): it accepts the
next candidate if that is prime, whatever its witnesses (R125), or if it passes on its witnesses, prime or not, which are
then all that is drawn; `RES0` is the candidate, `RES1` the attempts, and nothing else changes. -/
def Obligations.PrimeGenAcceptsFirstPassing : Prop :=
  ∀ (s : State) (rounds v : Nat) (attempts : List Attempt) (ws : List Nat) (rest : List Word), rounds < 65536 →
    v < 2 ^ 32 → AllFail rounds attempts → attempts.length < s.pgMaxIter.toNat →
    s.entropy.queue = (answersOf attempts ++ v :: ws).map (BitVec.ofNat 64) ++ rest →
    (Nat.Prime (candidate v) → ∃ t, exec (.primeGen rounds) s = .next t ∧
      t = finished { s with
        res0 := BitVec.ofNat 64 (candidate v), res1 := BitVec.ofNat 64 (attempts.length + 1), entropy := t.entropy }) ∧
    (Passes (candidate v) rounds ws → exec (.primeGen rounds) s = .next (finished { s with
      res0 := BitVec.ofNat 64 (candidate v), res1 := BitVec.ofNat 64 (attempts.length + 1)
      entropy := ⟨rest, s.entropy.drawn⟩ }))

/-- Every outcome of `PRIME_GEN` (41_primality.md R127, R128; 60_exceptions.md R215): either it completes and writes only
`RES0`, a candidate that is 3 modulo 4, lies in [2^31 + 3, 2^32 - 1], has no small prime divisor and was accepted by one
witness a round, and `RES1`, the attempts, 1 to `PG_MAXITER`; or it faults with `INFO0` = `PG_MAXITER` and `INFO1` = rounds and writes nothing else. -/
def Obligations.PrimeGenOutcomes : Prop :=
  ∀ (s : State) (rounds : Nat), rounds < 65536 →
    ∃ t, exec (.primeGen rounds) s = .next t ∧
      ((t = finished { s with res0 := t.res0, res1 := t.res1, entropy := t.entropy } ∧
          (∃ v, v < 2 ^ 32 ∧ t.res0.toNat = candidate v) ∧ t.res0.toNat % 4 = 3 ∧ 2 ^ 31 + 3 ≤ t.res0.toNat ∧
          t.res0.toNat ≤ 2 ^ 32 - 1 ∧ (∀ p ∈ smallPrimes, ¬p ∣ t.res0.toNat) ∧
          (∃ d k ws, t.res0.toNat - 1 = d * 2 ^ k ∧ d % 2 = 1 ∧ List.length ws = rounds ∧
            ∀ a ∈ ws, 2 ≤ a ∧ a ≤ t.res0.toNat - 2 ∧ Accepts t.res0.toNat d k a) ∧
          1 ≤ t.res1.toNat ∧ t.res1.toNat ≤ s.pgMaxIter.toNat) ∨
        t = faulted .primeGenerationFailure s.pgMaxIter.toNat rounds { s with entropy := t.entropy })

/-- When `PG_MAXITER` attempts have failed, each by a small factor or on a witness (41_primality.md R127), `PRIME_GEN`
faults; exactly the draws of those attempts are consumed, none when `PG_MAXITER` = 0, and nothing else is written
(60_exceptions.md R215). -/
def Obligations.PrimeGenExhausted : Prop :=
  ∀ (s : State) (rounds : Nat) (attempts : List Attempt) (rest : List Word), rounds < 65536 →
    AllFail rounds attempts → attempts.length = s.pgMaxIter.toNat →
    s.entropy.queue = (answersOf attempts).map (BitVec.ofNat 64) ++ rest →
    exec (.primeGen rounds) s =
      .next (faulted .primeGenerationFailure s.pgMaxIter.toNat rounds { s with entropy := ⟨rest, s.entropy.drawn⟩ })

/-! ### The LCG -/

/-- 42_lcg.md R153 with R151: for all integers a, b and seed of the source, loaded modulo 2^64 and 2^20, `LCG_NEXT` gives
the source's draw (a·s + b) mod 2^20 in `LCG_S` and `RES0`, and changes nothing else. -/
def Obligations.LcgNextIsSourceDraw : Prop :=
  ∀ (s : State) (a b seed : Int), s.lcgA = BitVec.ofInt 64 a → s.lcgB = BitVec.ofInt 64 b →
    s.lcgS = BitVec.ofInt 20 seed →
    exec .lcgNext s = .next (finished { s with
      lcgS := BitVec.ofInt 20 ((a * seed + b) % 2 ^ 20), res0 := BitVec.ofInt 64 ((a * seed + b) % 2 ^ 20) })

/-- `LCG_GENN n` (42_lcg.md R152): draw `i` is the 4-byte big-endian word at `DST` + 4·i, `LCG_S` the n-th draw, `RES0` the
exact sum, and everything else keeps its value. -/
def Obligations.LcgGennWritesDraws : Prop :=
  ∀ (s : State) (n : Nat), n < 65536 → InLram s s.dst.toNat (4 * n) →
    ∃ t, exec (.lcgGenn n) s = .next t ∧
      t = finished { s with lram := t.lram, lcgS := t.lcgS, res0 := t.res0 } ∧
      t.lcgS.toNat = lcgAfter s.lcgA.toNat s.lcgB.toNat s.lcgS.toNat n ∧
      t.res0.toNat = lcgSum s.lcgA.toNat s.lcgB.toNat s.lcgS.toNat n ∧ t.res0.toNat < 2 ^ 36 ∧
      (∀ i j, i < n → j < 4 → t.readByte (s.dst.toNat + 4 * i + j) =
        beByte 4 (lcgAfter s.lcgA.toNat s.lcgB.toNat s.lcgS.toNat (i + 1)) j) ∧
      (∀ x, x < s.dst.toNat ∨ s.dst.toNat + 4 * n ≤ x → t.readByte x = s.readByte x)

/-! ### The BBS generator -/

/-- `BBS_INIT` on accepted parameters (43_bbs.md R170, R172): n = p·q, the least repair count k below n, x0 = (seed + k)^2
mod n, `BBS_VALID` = 1, `RES0` = k, and nothing else changes. -/
def Obligations.BbsInitConstructs : Prop :=
  ∀ s : State, KeyLoaded s →
    ∃ k, IsRepair (s.bbsP.toNat * s.bbsQ.toNat) s.bbsSeed.toNat k ∧ k < s.bbsP.toNat * s.bbsQ.toNat ∧
      s.bbsP.toNat * s.bbsQ.toNat < 2 ^ 64 ∧
      exec .bbsInit s = .next (finished { s with
        bbsN := BitVec.ofNat 64 (s.bbsP.toNat * s.bbsQ.toNat)
        bbsX := BitVec.ofNat 64 ((s.bbsSeed.toNat + k) ^ 2 % (s.bbsP.toNat * s.bbsQ.toNat))
        bbsValid := true
        res0 := BitVec.ofNat 64 k })

/-- `BbsCheck` (43_bbs.md R171) by `BBS_INIT` and, with at least one round, by `GAMMA`: the four faults in their order, each
writing nothing but the fault registers. -/
def Obligations.BbsParameterFaults : Prop :=
  ∀ (s : State) (i : Instr), (i = .bbsInit ∨ ((∃ a, i = .gamma a) ∧ s.len.toNat ≠ 0)) →
    (2 ^ 32 ≤ s.bbsP.toNat → exec i s = .next (faulted .paramRange 0x18 s.bbsP.toNat s)) ∧
    (s.bbsP.toNat < 2 ^ 32 → 2 ^ 32 ≤ s.bbsQ.toNat → exec i s = .next (faulted .paramRange 0x19 s.bbsQ.toNat s)) ∧
    (s.bbsP.toNat = 0 → s.bbsQ.toNat < 2 ^ 32 → exec i s = .next (faulted .paramRange 0x18 0 s)) ∧
    (1 ≤ s.bbsP.toNat → s.bbsP.toNat < 2 ^ 32 → s.bbsQ.toNat = 0 →
      exec i s = .next (faulted .paramRange 0x19 0 s))

/-- 43_bbs.md R173: the word 0x4100_0000 is `BBS_NEXT`; with an instance, `BBS_X` and `RES0` become x^2 mod n, exactly, and nothing else changes; without one,
`BBS_NEXT` faults `BBS_NOT_INITIALIZED`. -/
def Obligations.BbsNextSquares : Prop :=
  decode 0x41000000#64 = .ok .bbsNext ∧
  ∀ s : State, s.Inv →
    (s.bbsValid = true → ∃ t, exec .bbsNext s = .next t ∧
      t = finished { s with bbsX := t.bbsX, res0 := t.bbsX } ∧ t.bbsX.toNat = s.bbsX.toNat ^ 2 % s.bbsN.toNat) ∧
    (s.bbsValid = false → exec .bbsNext s = .next (faulted .bbsNotInitialized 0 0 s))

/-- `BBS_OUT c` (43_bbs.md R174, R177): output `i` is x^(2^(i+1)) mod n as an 8-byte big-endian word at `DST` + 8·i, `BBS_X`
and `RES0` are x^(2^c) mod n, and everything else keeps its value. -/
def Obligations.BbsOutWritesSquares : Prop :=
  ∀ (s : State) (c : Nat), s.Inv → c < 65536 → s.bbsValid = true → InLram s s.dst.toNat (8 * c) →
    ∃ t, exec (.bbsOut c) s = .next t ∧ t = finished { s with lram := t.lram, bbsX := t.bbsX, res0 := t.bbsX } ∧
      t.bbsX.toNat = s.bbsX.toNat ^ 2 ^ c % s.bbsN.toNat ∧
      (∀ i j, i < c → j < 8 → t.readByte (s.dst.toNat + 8 * i + j) =
        beByte 8 (s.bbsX.toNat ^ 2 ^ (i + 1) % s.bbsN.toNat) j) ∧
      (∀ x, x < s.dst.toNat ∨ s.dst.toNat + 8 * c ≤ x → t.readByte x = s.readByte x)

/-- The word-writing commands `LCG_GENN` and `BBS_OUT` fault before any draw or squaring: `BBS_OUT` first on a missing
instance, then both on the region (42_lcg.md R152, 43_bbs.md R174, 60_exceptions.md R216). -/
def Obligations.WordRegionFaults : Prop :=
  ∀ (s : State) (n : Nat), n < 65536 →
    (¬InLram s s.dst.toNat (4 * n) → exec (.lcgGenn n) s = .next (faulted .addressRange s.dst.toNat (4 * n) s)) ∧
    (s.bbsValid = false → exec (.bbsOut n) s = .next (faulted .bbsNotInitialized 0 0 s)) ∧
    (s.bbsValid = true → ¬InLram s s.dst.toNat (8 * n) →
      exec (.bbsOut n) s = .next (faulted .addressRange s.dst.toNat (8 * n) s))

/-! ### The keystream orchestrator -/

/-- 44_gamma.md R192: with L = 0 no round runs and nothing is checked; `RES0` and `RES1` become 0, the command completes and
nothing else changes. -/
def Obligations.GammaZeroLength : Prop :=
  ∀ (s : State) (audit : Bool), s.len.toNat = 0 →
    exec (.gamma audit) s = .next (finished { s with res0 := 0#64, res1 := 0#64 })

/-- The region faults of `GAMMA` in their order (44_gamma.md R193): gamma region, then, only with A = 1, audit region. -/
def Obligations.GammaRegionFaults : Prop :=
  ∀ (s : State) (audit : Bool), s.len.toNat ≠ 0 → KeyLoaded s →
    (¬InLram s s.dst.toNat (bytesFor s.len.toNat) →
      exec (.gamma audit) s = .next (faulted .addressRange s.dst.toNat (bytesFor s.len.toNat) s)) ∧
    (InLram s s.dst.toNat (bytesFor s.len.toNat) → ¬InLram s s.adst.toNat (40 * roundsFor s.len.toNat) →
      exec (.gamma true) s = .next (faulted .addressRange s.adst.toNat (40 * roundsFor s.len.toNat) s))

/-- The end state of `GAMMA` with at least one round (44_gamma.md R190 to R199): there is a keystream run of the key, and
for every such run `LCG_S` is the last feedback, `BBS_N` = p·q, `BBS_X` the last output, `BBS_VALID` = 1, `RES0` = R, `RES1`
the last round's seed sum, and no other part of the state but the LRAM changes. -/
def Obligations.GammaEndState : Prop :=
  ∀ (s : State) (audit : Bool), GammaReady audit s →
    (∃ st y, RunOf s st y) ∧
    ∀ st y, RunOf s st y → ∃ t, exec (.gamma audit) s = .next t ∧
      t = finished { s with
        lram := t.lram
        lcgS := BitVec.ofNat 20 (st (roundsFor s.len.toNat))
        bbsN := BitVec.ofNat 64 (s.bbsP.toNat * s.bbsQ.toNat)
        bbsX := BitVec.ofNat 64 (y (5 * roundsFor s.len.toNat - 1))
        bbsValid := true
        res0 := BitVec.ofNat 64 (roundsFor s.len.toNat)
        res1 := BitVec.ofNat 64 (lcgSum s.lcgA.toNat s.lcgB.toNat (st (roundsFor s.len.toNat - 1)) 7) }

/-- What `GAMMA` writes to the LRAM (44_gamma.md R195, R196, R198): with A = 1 word `i` of the audit region is output `i`;
bit `k` of the gamma region is bit `63 - (k mod 64)` of output `k div 64`, its pad bits are 0 (where the audit region does
not cover the byte), and every other byte keeps its value. -/
def Obligations.GammaWritesKeystream : Prop :=
  ∀ (s : State) (audit : Bool) (st y : Nat → Nat), GammaReady audit s → RunOf s st y →
    ∃ t, exec (.gamma audit) s = .next t ∧
      (audit = true → ∀ i j, i < 5 * roundsFor s.len.toNat → j < 8 →
        t.readByte (s.adst.toNat + 8 * i + j) = beByte 8 (y i) j) ∧
      (∀ k, k < 8 * bytesFor s.len.toNat →
        (audit = true → OutsideAudit s (s.dst.toNat + k / 8)) →
        bitAt t s.dst.toNat k = if k < s.len.toNat then (y (k / 64)).testBit (63 - k % 64) else false) ∧
      (∀ x, x < s.dst.toNat ∨ s.dst.toNat + bytesFor s.len.toNat ≤ x →
        (audit = true → OutsideAudit s x) →
        t.readByte x = s.readByte x)

/-- 20_memory.md R78: when L is a multiple of 8 the gamma region is the concatenation of the big-endian outputs cut to L/8
bytes (where the audit bytes do not win, 44_gamma.md R196), and the gamma of a whole number of rounds equals the (disjoint)
audit region byte for byte. -/
def Obligations.GammaBytesAreOutputs : Prop :=
  ∀ (s : State) (st y : Nat → Nat), s.len.toNat % 8 = 0 → RunOf s st y →
    (∀ audit, GammaReady audit s → ∃ t, exec (.gamma audit) s = .next t ∧
      ∀ k, k < s.len.toNat / 8 → (audit = true → OutsideAudit s (s.dst.toNat + k)) →
        t.readByte (s.dst.toNat + k) = beByte 8 (y (k / 8)) (k % 8)) ∧
    (GammaReady true s → s.len.toNat % 320 = 0 →
      (s.dst.toNat + s.len.toNat / 8 ≤ s.adst.toNat ∨ s.adst.toNat + s.len.toNat / 8 ≤ s.dst.toNat) →
      ∃ t, exec (.gamma true) s = .next t ∧
        ∀ k, k < s.len.toNat / 8 → t.readByte (s.dst.toNat + k) = t.readByte (s.adst.toNat + k))

/-- 44_gamma.md R201: the outputs and the end state of `GAMMA` are a function of `LCG_A`, `LCG_B`, `LCG_S`, `BBS_P`, `BBS_Q`,
`LEN` and A alone, whatever the LRAM, the destinations, the entropy source and all else hold. -/
def Obligations.GammaIsDeterministic : Prop :=
  ∀ (s s' : State) (audit : Bool), GammaReady audit s → GammaReady audit s' → s'.lcgA = s.lcgA → s'.lcgB = s.lcgB →
    s'.lcgS = s.lcgS → s'.bbsP = s.bbsP → s'.bbsQ = s.bbsQ → s'.len = s.len →
    ∃ t t', exec (.gamma audit) s = .next t ∧ exec (.gamma audit) s' = .next t' ∧ t'.lcgS = t.lcgS ∧ t'.bbsN = t.bbsN ∧
      t'.bbsX = t.bbsX ∧ t'.bbsValid = t.bbsValid ∧ t'.res0 = t.res0 ∧ t'.res1 = t.res1 ∧
      t'.entropy = s'.entropy ∧
      (∀ k, k < bytesFor s.len.toNat →
        (audit = true → OutsideAudit s (s.dst.toNat + k) ∧ OutsideAudit s' (s'.dst.toNat + k)) →
        t'.readByte (s'.dst.toNat + k) = t.readByte (s.dst.toNat + k)) ∧
      (audit = true → ∀ k, k < 40 * roundsFor s.len.toNat →
        t'.readByte (s'.adst.toNat + k) = t.readByte (s.adst.toNat + k))

/-- 44_gamma.md R202, its unless-clause: when L1 is a multiple of 320, one `GAMMA` of L1 + L2 bits gives the keystream, and
with A = 1 the audit words, of a `GAMMA` of L1 followed by one of L2 (either length may be 0), the same end state of the LCG
and the BBS instance, and as many rounds. The bits are those where the audit bytes of the same command do not win (R196). -/
def Obligations.GammaSplitsAtWholeRounds : Prop :=
  ∀ (s : State) (audit : Bool) (len1 len2 dst1 dst2 adst1 adst2 : Word), len1.toNat % 320 = 0 →
    s.len.toNat = len1.toNat + len2.toNat → GammaPasses audit s → GammaPasses audit (request len1 dst1 adst1 s) →
    GammaPasses audit (request len2 dst2 adst2 s) →
    ∃ t t1 t2, exec (.gamma audit) s = .next t ∧ exec (.gamma audit) (request len1 dst1 adst1 s) = .next t1 ∧
      exec (.gamma audit) (request len2 dst2 adst2 t1) = .next t2 ∧
      t.lcgS = t2.lcgS ∧ t.bbsN = t2.bbsN ∧ t.bbsX = t2.bbsX ∧ t.bbsValid = t2.bbsValid ∧
      t.res0.toNat = t1.res0.toNat + t2.res0.toNat ∧ (len2.toNat ≠ 0 → t.res1 = t2.res1) ∧
      (∀ k, k < len1.toNat →
        (audit = true → OutsideAudit s (s.dst.toNat + k / 8) ∧
          OutsideAudit (request len1 dst1 adst1 s) (dst1.toNat + k / 8)) →
        bitAt t s.dst.toNat k = bitAt t1 dst1.toNat k) ∧
      (∀ k, k < len2.toNat →
        (audit = true → OutsideAudit s (s.dst.toNat + (len1.toNat + k) / 8) ∧
          OutsideAudit (request len2 dst2 adst2 s) (dst2.toNat + k / 8)) →
        bitAt t s.dst.toNat (len1.toNat + k) = bitAt t2 dst2.toNat k) ∧
      (audit = true →
        (∀ k, k < 40 * roundsFor len1.toNat → t.readByte (s.adst.toNat + k) = t1.readByte (adst1.toNat + k)) ∧
        ∀ k, k < 40 * roundsFor len2.toNat →
          t.readByte (s.adst.toNat + 40 * roundsFor len1.toNat + k) = t2.readByte (adst2.toNat + k))

/-! ### Whole-machine rules -/

/-- 60_exceptions.md R215 with the table of R211: a command that ends in a fault, its decoding included, raises one of its
causes and writes nothing but `CAUSE`, `INFO0`, `INFO1` and the `STATUS` bits; `PRIME_GEN` alone consumes draws. -/
def Obligations.FaultsArePrecise : Prop :=
  ∀ (s t : State) (v : Word), s.err = false → s.phase = .busy v → nextTurn s = .sequencer → step s = .next t →
    t.err = true →
    t = { popTurn s with
      cause := t.cause, info0 := t.info0, info1 := t.info1, err := true, phase := .idle, entropy := t.entropy } ∧
    (t.entropy ≠ s.entropy → ∃ rounds, decode v = .ok (.primeGen rounds)) ∧
    ((t.cause = .illegalCommand ∧ ∃ e, decode v = .error e) ∨ ∃ i, decode v = .ok i ∧ t.cause ∈ raises i)

/-- No command writes an operand register, the parameters of the key, `CTRL`, `CMD`, `DROP` or anything of the host
(30_encoding.md R92, 92_eei_decisions.md D47): this is the frame of all eleven commands. -/
def Obligations.CommandsLeaveOperandsAlone : Prop :=
  ∀ (i : Instr) (s t : State), exec i s = .next t →
    t = { s with
      phase := .idle, done := t.done, err := t.err, bbsValid := t.bbsValid, cause := t.cause, info0 := t.info0
      info1 := t.info1, res0 := t.res0, res1 := t.res1, lcgS := t.lcgS, bbsN := t.bbsN, bbsX := t.bbsX, lram := t.lram
      entropy := t.entropy }

/-- Only `MR_TEST` and `PRIME_GEN` draw, only `ENC7`, `DEC7`, `LCG_GENN`, `BBS_OUT` and `GAMMA` write the LRAM, only the LCG
commands and `GAMMA` write `LCG_S`, and only the BBS commands and `GAMMA` write `BBS_X` (30_encoding.md R92;
10_state.md R38, R40; 20_memory.md R60; 42_lcg.md R154; 43_bbs.md R176). -/
def Obligations.OnlyNamedCommandsWrite : Prop :=
  ∀ (i : Instr) (s t : State), exec i s = .next t →
    (t.entropy ≠ s.entropy → ∃ n, i = .mrTest n ∨ i = .primeGen n) ∧
    (t.lram ≠ s.lram → i = .enc7 ∨ i = .dec7 ∨ (∃ n, i = .lcgGenn n ∨ i = .bbsOut n) ∨ ∃ a, i = .gamma a) ∧
    (t.lcgS ≠ s.lcgS → i = .lcgNext ∨ (∃ n, i = .lcgGenn n) ∨ ∃ a, i = .gamma a) ∧
    (t.bbsX ≠ s.bbsX → i = .bbsInit ∨ i = .bbsNext ∨ (∃ n, i = .bbsOut n) ∨ ∃ a, i = .gamma a) ∧
    (t.bbsN ≠ s.bbsN → i = .bbsInit ∨ ∃ a, i = .gamma a)
end

