-- ==== Sys2Proof/Laws/Arith.lean ====
section
/-! SUPPORT. What the arithmetic of the rules computes: modular exponentiation, the decomposition and trial division of the primality test, the seed repair, the draws, and the LCG and BBS sequences. -/

namespace Sys2Proof.Machine

/-! ### Modular exponentiation -/

theorem powmodAux_eq (m fuel b e : Nat) (h : e < 2 ^ fuel) : powmodAux m fuel b e = b ^ e % m := by
  induction fuel generalizing b e with
  | zero =>
    have : e = 0 := by simpa using h
    subst this; simp [powmodAux]
  | succ fuel ih =>
    have he : e / 2 < 2 ^ fuel := by rw [pow_succ] at h; omega
    have hsq : (b * b % m) ^ (e / 2) % m = b ^ (2 * (e / 2)) % m := by
      rw [← Nat.pow_mod, ← Nat.pow_two, ← pow_mul]
    rw [powmodAux, ih _ _ he, hsq]
    split
    · rename_i ho
      rw [Nat.mul_mod_mod, ← pow_succ', show 2 * (e / 2) + 1 = e by omega]
    · rename_i ho
      rw [show 2 * (e / 2) = e by omega]

/-- `powmod(b, e, m)` is `b^e mod m` (00_scope.md R11). -/
theorem powmod_eq (b e m : Nat) : powmod b e m = b ^ e % m := powmodAux_eq m _ b e Nat.lt_log2_self

/-! ### The primality test -/

/-- The decomposition of 41_primality.md R122: `d·2^s` keeps its value and `d` comes out odd. -/
theorem splitTwos_spec (fuel d s : Nat) (hd : 1 ≤ d) (h : d < 2 ^ fuel) :
    ∃ k, (splitTwos fuel d s).2 = s + k ∧ d = (splitTwos fuel d s).1 * 2 ^ k ∧ (splitTwos fuel d s).1 % 2 = 1 := by
  induction fuel generalizing d s with
  | zero => simp at h; omega
  | succ fuel ih =>
    rw [splitTwos]
    split
    · rename_i he
      obtain ⟨k, h1, h2, h3⟩ := ih (d / 2) (s + 1) (by omega) (by rw [pow_succ] at h; omega)
      refine ⟨k + 1, by omega, ?_, h3⟩
      rw [pow_succ, ← Nat.mul_assoc, ← h2]; omega
    · exact ⟨0, by simp, by simp, by simp; omega⟩

/-- What trial division decides (41_primality.md R121). -/
theorem trialDivision_none_iff (n : Nat) (ps : List Nat) (h0 : ∀ p ∈ ps, p ≠ 0) :
    trialDivision n ps = none ↔ ∀ p ∈ ps, n % p ≠ 0 := by
  induction ps with
  | nil => simp [trialDivision]
  | cons p ps ih =>
    have ih' := ih fun q hq => h0 q (List.mem_cons_of_mem _ hq)
    rw [trialDivision]
    split
    · rename_i h; subst h; simp
    · split
      · rename_i h1 h2; simp [h2]
      · rename_i h1 h2; simp [ih', h2]

/-! ### The draws -/

/-- An answer lies in the range of its draw (00_scope.md R12). -/
theorem intoRange_mem (lo hi v : Nat) (h : lo ≤ hi) : lo ≤ intoRange lo hi v ∧ intoRange lo hi v ≤ hi := by
  rw [intoRange]
  split
  · assumption
  · have := Nat.mod_lt v (show 0 < hi - lo + 1 by omega)
    omega

/-- Every value of the range is its own answer. -/
theorem intoRange_self (lo hi v : Nat) (h1 : lo ≤ v) (h2 : v ≤ hi) : intoRange lo hi v = v := if_pos ⟨h1, h2⟩

theorem drawRange_mem (lo hi : Nat) (e : Entropy) (h : lo ≤ hi) :
    lo ≤ (e.drawRange lo hi).1 ∧ (e.drawRange lo hi).1 ≤ hi := intoRange_mem lo hi _ h

/-! ### The seed repair -/

theorem repairFrom_spec (n seed fuel k : Nat) (h : ∃ j, k ≤ j ∧ j < k + fuel ∧ Nat.gcd (seed + j) n = 1) :
    k ≤ repairFrom n seed fuel k ∧ repairFrom n seed fuel k < k + fuel ∧
      Nat.gcd (seed + repairFrom n seed fuel k) n = 1 ∧
      ∀ j, k ≤ j → j < repairFrom n seed fuel k → Nat.gcd (seed + j) n ≠ 1 := by
  induction fuel generalizing k with
  | zero => obtain ⟨j, h1, h2, -⟩ := h; omega
  | succ fuel ih =>
    rw [repairFrom]
    split
    · rename_i hg
      exact ⟨le_rfl, by omega, hg, fun j h1 h2 => by omega⟩
    · rename_i hg
      obtain ⟨j, h1, h2, h3⟩ := h
      have hj : j ≠ k := by rintro rfl; exact hg h3
      obtain ⟨i1, i2, i3, i4⟩ := ih (k + 1) ⟨j, by omega, by omega, h3⟩
      refine ⟨by omega, by omega, i3, fun i hi1 hi2 => ?_⟩
      by_cases hik : i = k
      · subst hik; exact hg
      · exact i4 i (by omega) hi2

/-- Some value in seed .. seed + n - 1 is coprime to n (43_bbs.md R170). -/
theorem exists_coprime (n seed : Nat) (hn : 1 ≤ n) : ∃ j, j < n ∧ Nat.gcd (seed + j) n = 1 := by
  refine ⟨(n - seed % n + 1) % n, Nat.mod_lt _ hn, ?_⟩
  have hs := Nat.mod_lt seed hn
  have e : (seed + (n - seed % n + 1) % n) % n = 1 % n := by
    rw [Nat.add_mod, Nat.mod_mod, ← Nat.add_mod,
      show seed + (n - seed % n + 1) = n * (seed / n + 1) + 1 by
        have := Nat.div_add_mod seed n
        rw [Nat.mul_add]; omega, Nat.mul_add_mod]
  have g : ∀ x : Nat, Nat.gcd (x % n) n = Nat.gcd x n := fun x => by rw [← Nat.gcd_rec, Nat.gcd_comm]
  rw [← g, e, g, Nat.gcd_one_left]

/-- The seed repair: the least number of increments that makes the seed coprime to the modulus, below n
(43_bbs.md R170). -/
theorem repairCount_spec (n seed : Nat) (hn : 1 ≤ n) :
    repairCount n seed < n ∧ Nat.gcd (seed + repairCount n seed) n = 1 ∧
      ∀ j, j < repairCount n seed → Nat.gcd (seed + j) n ≠ 1 := by
  obtain ⟨j, h1, h2⟩ := exists_coprime n seed hn
  obtain ⟨-, i2, i3, i4⟩ := repairFrom_spec n seed n 0 ⟨j, by omega, by omega, h2⟩
  exact ⟨by simpa [repairCount] using i2, i3, fun j hj => i4 j (by omega) hj⟩

/-! ### The LCG sequence -/

@[simp] theorem lcgDraws_length (a b n s : Nat) : (lcgDraws a b n s).length = n := by
  induction n generalizing s with
  | zero => rfl
  | succ n ih => simp [lcgDraws, ih]

theorem lcgStep_lt (a b s : Nat) : lcgStep a b s < 2 ^ 20 := Nat.mod_lt _ (by decide)

/-- Draw number `i` is the step applied `i + 1` times (42_lcg.md R152). -/
theorem lcgDraws_getElem? (a b n s i : Nat) (h : i < n) :
    (lcgDraws a b n s)[i]? = some ((lcgStep a b)^[i + 1] s) := by
  induction n generalizing s i with
  | zero => omega
  | succ n ih =>
    cases i with
    | zero => rfl
    | succ i =>
      rw [lcgDraws, List.getElem?_cons_succ, ih _ i (by omega)]; rfl

theorem lcgDraws_getLastD (a b n s : Nat) : (lcgDraws a b n s).getLastD s = (lcgStep a b)^[n] s := by
  induction n generalizing s with
  | zero => rfl
  | succ n ih =>
    rw [lcgDraws, List.getLastD_cons, ih]; rfl

theorem lcgDraws_lt (a b n s : Nat) : ∀ d ∈ lcgDraws a b n s, d < 2 ^ 20 := by
  induction n generalizing s with
  | zero => simp [lcgDraws]
  | succ n ih => simpa [lcgDraws] using ⟨lcgStep_lt a b s, ih _⟩

/-! ### The BBS sequence -/

@[simp] theorem bbsStates_length (n c x : Nat) : (bbsStates n c x).length = c := by
  induction c generalizing x with
  | zero => rfl
  | succ c ih => simp [bbsStates, ih]

/-- State number `i` is the squaring applied `i + 1` times (43_bbs.md R174). -/
theorem bbsStates_getElem? (n c x i : Nat) (h : i < c) :
    (bbsStates n c x)[i]? = some ((fun y => sqMod y n)^[i + 1] x) := by
  induction c generalizing x i with
  | zero => omega
  | succ c ih =>
    cases i with
    | zero => rfl
    | succ i =>
      rw [bbsStates, List.getElem?_cons_succ, ih _ i (by omega)]; rfl

theorem bbsStates_getLastD (n c x : Nat) : (bbsStates n c x).getLastD x = (fun y => sqMod y n)^[c] x := by
  induction c generalizing x with
  | zero => rfl
  | succ c ih =>
    rw [bbsStates, List.getLastD_cons, ih]; rfl

end Sys2Proof.Machine
end

