-- ==== Sys2Proof/Laws/Bits.lean ====
section
/-! SUPPORT. The laws of bitstrings and byte order (00_scope.md R9, 20_memory.md R62, R63): lengths, values, and the round trips. -/

namespace Sys2Proof.Machine

/-! ### BE and val -/

@[simp] theorem be_length (w v : Nat) : (be w v).length = w := by
  induction w with
  | zero => rfl
  | succ w ih => simp [be, ih]

theorem be_getElem? (w v i : Nat) (h : i < w) : (be w v)[i]? = some (v.testBit (w - 1 - i)) := by
  induction w generalizing i with
  | zero => omega
  | succ w ih =>
    cases i with
    | zero => simp [be]
    | succ i =>
      have hi : i < w := by omega
      simp only [be, List.getElem?_cons_succ, ih i hi]
      congr 2; omega

theorem bitsVal_append_singleton (s : List Bool) (b : Bool) : bitsVal (s ++ [b]) = 2 * bitsVal s + b.toNat := by
  simp [bitsVal, List.foldl_append]

theorem bitsVal_foldl (s : List Bool) (acc : Nat) :
    s.foldl (fun acc b => 2 * acc + b.toNat) acc = acc * 2 ^ s.length + bitsVal s := by
  induction s generalizing acc with
  | nil => simp [bitsVal]
  | cons b s ih =>
    have h0 := ih (2 * 0 + b.toNat)
    simp only [List.foldl_cons, ih (2 * acc + b.toNat), List.length_cons, bitsVal] at *
    rw [h0]; ring

theorem bitsVal_cons (b : Bool) (s : List Bool) : bitsVal (b :: s) = b.toNat * 2 ^ s.length + bitsVal s := by
  have := bitsVal_foldl s b.toNat
  simpa [bitsVal] using this

theorem bitsVal_append (s t : List Bool) : bitsVal (s ++ t) = bitsVal s * 2 ^ t.length + bitsVal t := by
  simpa [bitsVal, List.foldl_append] using bitsVal_foldl t (bitsVal s)

theorem bitsVal_lt (s : List Bool) : bitsVal s < 2 ^ s.length := by
  induction s with
  | nil => simp [bitsVal]
  | cons b s ih =>
    rw [bitsVal_cons, List.length_cons, pow_succ]
    cases b <;> simp <;> omega

/-- `val(BE(v, w)) = v` for a `v` below 2^w (00_scope.md R9). -/
theorem bitsVal_be (w v : Nat) : bitsVal (be w v) = v % 2 ^ w := by
  induction w with
  | zero => simp [be, bitsVal, Nat.mod_one]
  | succ w ih =>
    have hs : v % 2 ^ (w + 1) = v % 2 ^ w + 2 ^ w * (v / 2 ^ w % 2) := by rw [pow_succ, Nat.mod_mul]
    rw [be, bitsVal_cons, be_length, ih, hs, Nat.testBit_eq_decide_div_mod_eq]
    rcases Nat.mod_two_eq_zero_or_one (v / 2 ^ w) with h | h
    · simp [h]
    · simp [h]; ring

/-- `BE(val(s), |s|) = s` (00_scope.md R9). -/
theorem be_bitsVal (s : List Bool) : be s.length (bitsVal s) = s := by
  induction s with
  | nil => rfl
  | cons b s ih =>
    have hlt := bitsVal_lt s
    rw [List.length_cons, be, bitsVal_cons]
    congr 1
    · rw [Nat.mul_comm, Nat.testBit_two_pow_mul_add _ hlt]
      simp; cases b <;> rfl
    · have hb : ∀ w v c, w ≤ s.length → be w (c * 2 ^ s.length + v) = be w v := by
        intro w
        induction w with
        | zero => intros; rfl
        | succ w ihw =>
          intro v c hw
          rw [be, be, ihw v c (by omega)]
          congr 1
          have : (c * 2 ^ s.length + v).testBit w = v.testBit w := by
            obtain ⟨k, hk⟩ : ∃ k, s.length = w + 1 + k := ⟨s.length - (w + 1), by omega⟩
            have e1 : (c * 2 ^ s.length + v) % 2 ^ (w + 1) = v % 2 ^ (w + 1) := by
              rw [hk, pow_add, Nat.add_mod, show c * (2 ^ (w + 1) * 2 ^ k) = 2 ^ (w + 1) * (c * 2 ^ k) by ring,
                Nat.mul_mod_right]
              simp
            have t1 := Nat.testBit_mod_two_pow (c * 2 ^ s.length + v) (w + 1) w
            have t2 := Nat.testBit_mod_two_pow v (w + 1) w
            rw [e1, t2] at t1
            simpa using t1.symm
          exact this
      rw [hb _ _ _ le_rfl, ih]

theorem be_mod (w v : Nat) : be w (v % 2 ^ w) = be w v := by
  have h := be_bitsVal (be w v)
  rwa [be_length, bitsVal_be] at h

/-! ### Big-endian bytes -/

@[simp] theorem beBytes_length (n v : Nat) : (beBytes n v).length = n := by
  induction n with
  | zero => rfl
  | succ n ih => simp [beBytes, ih]

/-- Byte `j` of a big-endian word (20_memory.md R62). -/
theorem beBytes_getElem? (n v j : Nat) (h : j < n) :
    (beBytes n v)[j]? = some (BitVec.ofNat 8 (v >>> (8 * (n - 1 - j)))) := by
  induction n generalizing j with
  | zero => omega
  | succ n ih =>
    cases j with
    | zero => simp [beBytes]
    | succ j =>
      have hj : j < n := by omega
      simp only [beBytes, List.getElem?_cons_succ, ih j hj]
      congr 4; omega

theorem length_flatMap_const {α β : Type} (f : α → List β) (k : Nat) (hf : ∀ x, (f x).length = k) (l : List α) :
    (l.flatMap f).length = k * l.length := by
  induction l with
  | nil => simp
  | cons x l ih => simp [ih, hf x]; ring

/-- Element `k·i + j` of a list of blocks of `k` elements is element `j` of block `i`. -/
theorem getElem?_flatMap_const {α β : Type} (f : α → List β) (k : Nat) (hf : ∀ x, (f x).length = k) (l : List α)
    (i j : Nat) (x : α) (hi : l[i]? = some x) (hj : j < k) : (l.flatMap f)[k * i + j]? = (f x)[j]? := by
  induction l generalizing i with
  | nil => simp at hi
  | cons y l ih =>
    cases i with
    | zero =>
      simp only [List.getElem?_cons_zero, Option.some.injEq] at hi
      subst hi
      rw [List.flatMap_cons, Nat.mul_zero, Nat.zero_add, List.getElem?_append_left (by rw [hf]; exact hj)]
    | succ i =>
      simp only [List.getElem?_cons_succ] at hi
      have e : k * (i + 1) + j = k + (k * i + j) := by ring
      rw [List.flatMap_cons, List.getElem?_append_right (by rw [hf, e]; omega), hf, e, Nat.add_sub_cancel_left]
      exact ih i hi

/-! ### Packed bitstrings -/

@[simp] theorem packBytes_length (n : Nat) (s : List Bool) : (packBytes n s).length = n := by
  induction n generalizing s with
  | zero => rfl
  | succ n ih => simp [packBytes, ih]

/-- `WriteBits` writes `ceil(|s| / 8)` bytes (20_memory.md R63). -/
@[simp] theorem packBits_length (s : List Bool) : (packBits s).length = ceilDiv s.length 8 := packBytes_length _ _

@[simp] theorem be_eight_ofNat (v : Nat) : be 8 (BitVec.ofNat 8 v).toNat = be 8 v := by
  rw [BitVec.toNat_ofNat]; exact be_mod 8 v

theorem pad_take_length (s : List Bool) : ((s ++ List.replicate 8 false).take 8).length = 8 := by
  simp only [List.length_take, List.length_append, List.length_replicate]; omega

/-- The bits held by the packed bytes are the bitstring and zero pad bits (20_memory.md R63). -/
theorem flatMap_be_packBytes (n : Nat) (s : List Bool) (h : s.length ≤ 8 * n) :
    ((packBytes n s).flatMap fun b => be 8 b.toNat) = s ++ List.replicate (8 * n - s.length) false := by
  induction n generalizing s with
  | zero =>
    have : s = [] := List.eq_nil_of_length_eq_zero (by omega)
    subst this; rfl
  | succ n ih =>
    have hv : be 8 (bitsVal ((s ++ List.replicate 8 false).take 8)) = (s ++ List.replicate 8 false).take 8 := by
      have := be_bitsVal ((s ++ List.replicate 8 false).take 8)
      rwa [pad_take_length] at this
    rw [packBytes, List.flatMap_cons, be_eight_ofNat, hv, ih (s.drop 8) (by simp; omega)]
    rw [List.length_drop]
    rcases Nat.lt_or_ge s.length 8 with hs | hs
    · rw [List.take_append, List.take_of_length_le (by omega : s.length ≤ 8), List.drop_eq_nil_of_le (by omega),
        List.take_replicate, List.append_assoc, List.nil_append, List.replicate_append_replicate]
      congr 2; omega
    · rw [List.take_append_of_le_length hs, ← List.append_assoc, List.take_append_drop]
      congr 2; omega

/-- `ReadBits` of what `WriteBits` wrote is the bitstring (20_memory.md R63). -/
theorem unpackBits_packBits (s : List Bool) : unpackBits s.length (packBits s) = s := by
  have h : s.length ≤ 8 * ceilDiv s.length 8 := by unfold ceilDiv; omega
  rw [unpackBits, packBits, flatMap_be_packBytes _ _ h, List.take_append_of_le_length le_rfl, List.take_length]

@[simp] theorem unpackBits_length (nbits : Nat) (bytes : List Byte) :
    (unpackBits nbits bytes).length = min nbits (8 * bytes.length) := by
  have h := length_flatMap_const (fun b : Byte => be 8 b.toNat) 8 (fun b => be_length 8 b.toNat) bytes
  rw [unpackBits, List.length_take, h]

end Sys2Proof.Machine
end

