-- ==== Sys2Proof/Laws/State.lean ====
section
/-! SUPPORT. One lemma per field per shared update of the state, true by rfl, so that no later proof unfolds a record update. -/

namespace Sys2Proof.Machine

/-! ### takeFault -/

@[simp] theorem takeFault_cfg (f : FaultInfo) (s : State) : (takeFault f s).cfg = s.cfg := rfl
@[simp] theorem takeFault_phase (f : FaultInfo) (s : State) : (takeFault f s).phase = .idle := rfl
@[simp] theorem takeFault_ieDone (f : FaultInfo) (s : State) : (takeFault f s).ieDone = s.ieDone := rfl
@[simp] theorem takeFault_ieErr (f : FaultInfo) (s : State) : (takeFault f s).ieErr = s.ieErr := rfl
@[simp] theorem takeFault_done (f : FaultInfo) (s : State) : (takeFault f s).done = s.done := rfl
@[simp] theorem takeFault_err (f : FaultInfo) (s : State) : (takeFault f s).err = true := rfl
@[simp] theorem takeFault_drop (f : FaultInfo) (s : State) : (takeFault f s).drop = s.drop := rfl
@[simp] theorem takeFault_bbsValid (f : FaultInfo) (s : State) : (takeFault f s).bbsValid = s.bbsValid := rfl
@[simp] theorem takeFault_cmd (f : FaultInfo) (s : State) : (takeFault f s).cmd = s.cmd := rfl
@[simp] theorem takeFault_cause (f : FaultInfo) (s : State) : (takeFault f s).cause = f.cause := rfl
@[simp] theorem takeFault_info0 (f : FaultInfo) (s : State) : (takeFault f s).info0 = BitVec.ofNat 64 f.info0 := rfl
@[simp] theorem takeFault_info1 (f : FaultInfo) (s : State) : (takeFault f s).info1 = BitVec.ofNat 64 f.info1 := rfl
@[simp] theorem takeFault_res0 (f : FaultInfo) (s : State) : (takeFault f s).res0 = s.res0 := rfl
@[simp] theorem takeFault_res1 (f : FaultInfo) (s : State) : (takeFault f s).res1 = s.res1 := rfl
@[simp] theorem takeFault_src (f : FaultInfo) (s : State) : (takeFault f s).src = s.src := rfl
@[simp] theorem takeFault_dst (f : FaultInfo) (s : State) : (takeFault f s).dst = s.dst := rfl
@[simp] theorem takeFault_len (f : FaultInfo) (s : State) : (takeFault f s).len = s.len := rfl
@[simp] theorem takeFault_adst (f : FaultInfo) (s : State) : (takeFault f s).adst = s.adst := rfl
@[simp] theorem takeFault_lcgA (f : FaultInfo) (s : State) : (takeFault f s).lcgA = s.lcgA := rfl
@[simp] theorem takeFault_lcgB (f : FaultInfo) (s : State) : (takeFault f s).lcgB = s.lcgB := rfl
@[simp] theorem takeFault_lcgS (f : FaultInfo) (s : State) : (takeFault f s).lcgS = s.lcgS := rfl
@[simp] theorem takeFault_bbsP (f : FaultInfo) (s : State) : (takeFault f s).bbsP = s.bbsP := rfl
@[simp] theorem takeFault_bbsQ (f : FaultInfo) (s : State) : (takeFault f s).bbsQ = s.bbsQ := rfl
@[simp] theorem takeFault_bbsN (f : FaultInfo) (s : State) : (takeFault f s).bbsN = s.bbsN := rfl
@[simp] theorem takeFault_bbsX (f : FaultInfo) (s : State) : (takeFault f s).bbsX = s.bbsX := rfl
@[simp] theorem takeFault_bbsSeed (f : FaultInfo) (s : State) : (takeFault f s).bbsSeed = s.bbsSeed := rfl
@[simp] theorem takeFault_mxBase (f : FaultInfo) (s : State) : (takeFault f s).mxBase = s.mxBase := rfl
@[simp] theorem takeFault_mxExp (f : FaultInfo) (s : State) : (takeFault f s).mxExp = s.mxExp := rfl
@[simp] theorem takeFault_mxMod (f : FaultInfo) (s : State) : (takeFault f s).mxMod = s.mxMod := rfl
@[simp] theorem takeFault_pgMaxIter (f : FaultInfo) (s : State) : (takeFault f s).pgMaxIter = s.pgMaxIter := rfl
@[simp] theorem takeFault_lram (f : FaultInfo) (s : State) : (takeFault f s).lram = s.lram := rfl
@[simp] theorem takeFault_epoch (f : FaultInfo) (s : State) : (takeFault f s).epoch = s.epoch := rfl
@[simp] theorem takeFault_entropy (f : FaultInfo) (s : State) : (takeFault f s).entropy = s.entropy := rfl
@[simp] theorem takeFault_busyReads (f : FaultInfo) (s : State) : (takeFault f s).busyReads = s.busyReads := rfl
@[simp] theorem takeFault_host (f : FaultInfo) (s : State) : (takeFault f s).host = s.host := rfl
@[simp] theorem takeFault_turns (f : FaultInfo) (s : State) : (takeFault f s).turns = s.turns := rfl

/-! ### complete -/

@[simp] theorem complete_cfg (s : State) : (complete s).cfg = s.cfg := rfl
@[simp] theorem complete_phase (s : State) : (complete s).phase = .idle := rfl
@[simp] theorem complete_ieDone (s : State) : (complete s).ieDone = s.ieDone := rfl
@[simp] theorem complete_ieErr (s : State) : (complete s).ieErr = s.ieErr := rfl
@[simp] theorem complete_done (s : State) : (complete s).done = true := rfl
@[simp] theorem complete_err (s : State) : (complete s).err = s.err := rfl
@[simp] theorem complete_drop (s : State) : (complete s).drop = s.drop := rfl
@[simp] theorem complete_bbsValid (s : State) : (complete s).bbsValid = s.bbsValid := rfl
@[simp] theorem complete_cmd (s : State) : (complete s).cmd = s.cmd := rfl
@[simp] theorem complete_cause (s : State) : (complete s).cause = s.cause := rfl
@[simp] theorem complete_info0 (s : State) : (complete s).info0 = s.info0 := rfl
@[simp] theorem complete_info1 (s : State) : (complete s).info1 = s.info1 := rfl
@[simp] theorem complete_res0 (s : State) : (complete s).res0 = s.res0 := rfl
@[simp] theorem complete_res1 (s : State) : (complete s).res1 = s.res1 := rfl
@[simp] theorem complete_src (s : State) : (complete s).src = s.src := rfl
@[simp] theorem complete_dst (s : State) : (complete s).dst = s.dst := rfl
@[simp] theorem complete_len (s : State) : (complete s).len = s.len := rfl
@[simp] theorem complete_adst (s : State) : (complete s).adst = s.adst := rfl
@[simp] theorem complete_lcgA (s : State) : (complete s).lcgA = s.lcgA := rfl
@[simp] theorem complete_lcgB (s : State) : (complete s).lcgB = s.lcgB := rfl
@[simp] theorem complete_lcgS (s : State) : (complete s).lcgS = s.lcgS := rfl
@[simp] theorem complete_bbsP (s : State) : (complete s).bbsP = s.bbsP := rfl
@[simp] theorem complete_bbsQ (s : State) : (complete s).bbsQ = s.bbsQ := rfl
@[simp] theorem complete_bbsN (s : State) : (complete s).bbsN = s.bbsN := rfl
@[simp] theorem complete_bbsX (s : State) : (complete s).bbsX = s.bbsX := rfl
@[simp] theorem complete_bbsSeed (s : State) : (complete s).bbsSeed = s.bbsSeed := rfl
@[simp] theorem complete_mxBase (s : State) : (complete s).mxBase = s.mxBase := rfl
@[simp] theorem complete_mxExp (s : State) : (complete s).mxExp = s.mxExp := rfl
@[simp] theorem complete_mxMod (s : State) : (complete s).mxMod = s.mxMod := rfl
@[simp] theorem complete_pgMaxIter (s : State) : (complete s).pgMaxIter = s.pgMaxIter := rfl
@[simp] theorem complete_lram (s : State) : (complete s).lram = s.lram := rfl
@[simp] theorem complete_epoch (s : State) : (complete s).epoch = s.epoch := rfl
@[simp] theorem complete_entropy (s : State) : (complete s).entropy = s.entropy := rfl
@[simp] theorem complete_busyReads (s : State) : (complete s).busyReads = s.busyReads := rfl
@[simp] theorem complete_host (s : State) : (complete s).host = s.host := rfl
@[simp] theorem complete_turns (s : State) : (complete s).turns = s.turns := rfl

/-! ### accept -/

@[simp] theorem accept_cfg (v : Word) (s : State) : (accept v s).cfg = s.cfg := rfl
@[simp] theorem accept_phase (v : Word) (s : State) : (accept v s).phase = .busy v := rfl
@[simp] theorem accept_ieDone (v : Word) (s : State) : (accept v s).ieDone = s.ieDone := rfl
@[simp] theorem accept_ieErr (v : Word) (s : State) : (accept v s).ieErr = s.ieErr := rfl
@[simp] theorem accept_done (v : Word) (s : State) : (accept v s).done = false := rfl
@[simp] theorem accept_err (v : Word) (s : State) : (accept v s).err = s.err := rfl
@[simp] theorem accept_drop (v : Word) (s : State) : (accept v s).drop = s.drop := rfl
@[simp] theorem accept_bbsValid (v : Word) (s : State) : (accept v s).bbsValid = s.bbsValid := rfl
@[simp] theorem accept_cmd (v : Word) (s : State) : (accept v s).cmd = v := rfl
@[simp] theorem accept_cause (v : Word) (s : State) : (accept v s).cause = s.cause := rfl
@[simp] theorem accept_info0 (v : Word) (s : State) : (accept v s).info0 = s.info0 := rfl
@[simp] theorem accept_info1 (v : Word) (s : State) : (accept v s).info1 = s.info1 := rfl
@[simp] theorem accept_res0 (v : Word) (s : State) : (accept v s).res0 = s.res0 := rfl
@[simp] theorem accept_res1 (v : Word) (s : State) : (accept v s).res1 = s.res1 := rfl
@[simp] theorem accept_src (v : Word) (s : State) : (accept v s).src = s.src := rfl
@[simp] theorem accept_dst (v : Word) (s : State) : (accept v s).dst = s.dst := rfl
@[simp] theorem accept_len (v : Word) (s : State) : (accept v s).len = s.len := rfl
@[simp] theorem accept_adst (v : Word) (s : State) : (accept v s).adst = s.adst := rfl
@[simp] theorem accept_lcgA (v : Word) (s : State) : (accept v s).lcgA = s.lcgA := rfl
@[simp] theorem accept_lcgB (v : Word) (s : State) : (accept v s).lcgB = s.lcgB := rfl
@[simp] theorem accept_lcgS (v : Word) (s : State) : (accept v s).lcgS = s.lcgS := rfl
@[simp] theorem accept_bbsP (v : Word) (s : State) : (accept v s).bbsP = s.bbsP := rfl
@[simp] theorem accept_bbsQ (v : Word) (s : State) : (accept v s).bbsQ = s.bbsQ := rfl
@[simp] theorem accept_bbsN (v : Word) (s : State) : (accept v s).bbsN = s.bbsN := rfl
@[simp] theorem accept_bbsX (v : Word) (s : State) : (accept v s).bbsX = s.bbsX := rfl
@[simp] theorem accept_bbsSeed (v : Word) (s : State) : (accept v s).bbsSeed = s.bbsSeed := rfl
@[simp] theorem accept_mxBase (v : Word) (s : State) : (accept v s).mxBase = s.mxBase := rfl
@[simp] theorem accept_mxExp (v : Word) (s : State) : (accept v s).mxExp = s.mxExp := rfl
@[simp] theorem accept_mxMod (v : Word) (s : State) : (accept v s).mxMod = s.mxMod := rfl
@[simp] theorem accept_pgMaxIter (v : Word) (s : State) : (accept v s).pgMaxIter = s.pgMaxIter := rfl
@[simp] theorem accept_lram (v : Word) (s : State) : (accept v s).lram = s.lram := rfl
@[simp] theorem accept_epoch (v : Word) (s : State) : (accept v s).epoch = s.epoch := rfl
@[simp] theorem accept_entropy (v : Word) (s : State) : (accept v s).entropy = s.entropy := rfl
@[simp] theorem accept_busyReads (v : Word) (s : State) : (accept v s).busyReads = s.busyReads := rfl
@[simp] theorem accept_host (v : Word) (s : State) : (accept v s).host = s.host := rfl
@[simp] theorem accept_turns (v : Word) (s : State) : (accept v s).turns = s.turns := rfl

/-! ### dropWrite -/

@[simp] theorem dropWrite_cfg (s : State) : (dropWrite s).cfg = s.cfg := rfl
@[simp] theorem dropWrite_phase (s : State) : (dropWrite s).phase = s.phase := rfl
@[simp] theorem dropWrite_ieDone (s : State) : (dropWrite s).ieDone = s.ieDone := rfl
@[simp] theorem dropWrite_ieErr (s : State) : (dropWrite s).ieErr = s.ieErr := rfl
@[simp] theorem dropWrite_done (s : State) : (dropWrite s).done = s.done := rfl
@[simp] theorem dropWrite_err (s : State) : (dropWrite s).err = s.err := rfl
@[simp] theorem dropWrite_drop (s : State) : (dropWrite s).drop = true := rfl
@[simp] theorem dropWrite_bbsValid (s : State) : (dropWrite s).bbsValid = s.bbsValid := rfl
@[simp] theorem dropWrite_cmd (s : State) : (dropWrite s).cmd = s.cmd := rfl
@[simp] theorem dropWrite_cause (s : State) : (dropWrite s).cause = s.cause := rfl
@[simp] theorem dropWrite_info0 (s : State) : (dropWrite s).info0 = s.info0 := rfl
@[simp] theorem dropWrite_info1 (s : State) : (dropWrite s).info1 = s.info1 := rfl
@[simp] theorem dropWrite_res0 (s : State) : (dropWrite s).res0 = s.res0 := rfl
@[simp] theorem dropWrite_res1 (s : State) : (dropWrite s).res1 = s.res1 := rfl
@[simp] theorem dropWrite_src (s : State) : (dropWrite s).src = s.src := rfl
@[simp] theorem dropWrite_dst (s : State) : (dropWrite s).dst = s.dst := rfl
@[simp] theorem dropWrite_len (s : State) : (dropWrite s).len = s.len := rfl
@[simp] theorem dropWrite_adst (s : State) : (dropWrite s).adst = s.adst := rfl
@[simp] theorem dropWrite_lcgA (s : State) : (dropWrite s).lcgA = s.lcgA := rfl
@[simp] theorem dropWrite_lcgB (s : State) : (dropWrite s).lcgB = s.lcgB := rfl
@[simp] theorem dropWrite_lcgS (s : State) : (dropWrite s).lcgS = s.lcgS := rfl
@[simp] theorem dropWrite_bbsP (s : State) : (dropWrite s).bbsP = s.bbsP := rfl
@[simp] theorem dropWrite_bbsQ (s : State) : (dropWrite s).bbsQ = s.bbsQ := rfl
@[simp] theorem dropWrite_bbsN (s : State) : (dropWrite s).bbsN = s.bbsN := rfl
@[simp] theorem dropWrite_bbsX (s : State) : (dropWrite s).bbsX = s.bbsX := rfl
@[simp] theorem dropWrite_bbsSeed (s : State) : (dropWrite s).bbsSeed = s.bbsSeed := rfl
@[simp] theorem dropWrite_mxBase (s : State) : (dropWrite s).mxBase = s.mxBase := rfl
@[simp] theorem dropWrite_mxExp (s : State) : (dropWrite s).mxExp = s.mxExp := rfl
@[simp] theorem dropWrite_mxMod (s : State) : (dropWrite s).mxMod = s.mxMod := rfl
@[simp] theorem dropWrite_pgMaxIter (s : State) : (dropWrite s).pgMaxIter = s.pgMaxIter := rfl
@[simp] theorem dropWrite_lram (s : State) : (dropWrite s).lram = s.lram := rfl
@[simp] theorem dropWrite_epoch (s : State) : (dropWrite s).epoch = s.epoch := rfl
@[simp] theorem dropWrite_entropy (s : State) : (dropWrite s).entropy = s.entropy := rfl
@[simp] theorem dropWrite_busyReads (s : State) : (dropWrite s).busyReads = s.busyReads := rfl
@[simp] theorem dropWrite_host (s : State) : (dropWrite s).host = s.host := rfl
@[simp] theorem dropWrite_turns (s : State) : (dropWrite s).turns = s.turns := rfl

/-! ### clearStatus -/

@[simp] theorem clearStatus_cfg (v : Word) (s : State) : (clearStatus v s).cfg = s.cfg := rfl
@[simp] theorem clearStatus_phase (v : Word) (s : State) : (clearStatus v s).phase = s.phase := rfl
@[simp] theorem clearStatus_ieDone (v : Word) (s : State) : (clearStatus v s).ieDone = s.ieDone := rfl
@[simp] theorem clearStatus_ieErr (v : Word) (s : State) : (clearStatus v s).ieErr = s.ieErr := rfl
@[simp] theorem clearStatus_done (v : Word) (s : State) : (clearStatus v s).done = (s.done && !v.getLsbD 1) := rfl
@[simp] theorem clearStatus_err (v : Word) (s : State) : (clearStatus v s).err = (s.err && !v.getLsbD 2) := rfl
@[simp] theorem clearStatus_drop (v : Word) (s : State) : (clearStatus v s).drop = (s.drop && !v.getLsbD 3) := rfl
@[simp] theorem clearStatus_bbsValid (v : Word) (s : State) : (clearStatus v s).bbsValid = s.bbsValid := rfl
@[simp] theorem clearStatus_cmd (v : Word) (s : State) : (clearStatus v s).cmd = s.cmd := rfl
@[simp] theorem clearStatus_cause (v : Word) (s : State) : (clearStatus v s).cause = s.cause := rfl
@[simp] theorem clearStatus_info0 (v : Word) (s : State) : (clearStatus v s).info0 = s.info0 := rfl
@[simp] theorem clearStatus_info1 (v : Word) (s : State) : (clearStatus v s).info1 = s.info1 := rfl
@[simp] theorem clearStatus_res0 (v : Word) (s : State) : (clearStatus v s).res0 = s.res0 := rfl
@[simp] theorem clearStatus_res1 (v : Word) (s : State) : (clearStatus v s).res1 = s.res1 := rfl
@[simp] theorem clearStatus_src (v : Word) (s : State) : (clearStatus v s).src = s.src := rfl
@[simp] theorem clearStatus_dst (v : Word) (s : State) : (clearStatus v s).dst = s.dst := rfl
@[simp] theorem clearStatus_len (v : Word) (s : State) : (clearStatus v s).len = s.len := rfl
@[simp] theorem clearStatus_adst (v : Word) (s : State) : (clearStatus v s).adst = s.adst := rfl
@[simp] theorem clearStatus_lcgA (v : Word) (s : State) : (clearStatus v s).lcgA = s.lcgA := rfl
@[simp] theorem clearStatus_lcgB (v : Word) (s : State) : (clearStatus v s).lcgB = s.lcgB := rfl
@[simp] theorem clearStatus_lcgS (v : Word) (s : State) : (clearStatus v s).lcgS = s.lcgS := rfl
@[simp] theorem clearStatus_bbsP (v : Word) (s : State) : (clearStatus v s).bbsP = s.bbsP := rfl
@[simp] theorem clearStatus_bbsQ (v : Word) (s : State) : (clearStatus v s).bbsQ = s.bbsQ := rfl
@[simp] theorem clearStatus_bbsN (v : Word) (s : State) : (clearStatus v s).bbsN = s.bbsN := rfl
@[simp] theorem clearStatus_bbsX (v : Word) (s : State) : (clearStatus v s).bbsX = s.bbsX := rfl
@[simp] theorem clearStatus_bbsSeed (v : Word) (s : State) : (clearStatus v s).bbsSeed = s.bbsSeed := rfl
@[simp] theorem clearStatus_mxBase (v : Word) (s : State) : (clearStatus v s).mxBase = s.mxBase := rfl
@[simp] theorem clearStatus_mxExp (v : Word) (s : State) : (clearStatus v s).mxExp = s.mxExp := rfl
@[simp] theorem clearStatus_mxMod (v : Word) (s : State) : (clearStatus v s).mxMod = s.mxMod := rfl
@[simp] theorem clearStatus_pgMaxIter (v : Word) (s : State) : (clearStatus v s).pgMaxIter = s.pgMaxIter := rfl
@[simp] theorem clearStatus_lram (v : Word) (s : State) : (clearStatus v s).lram = s.lram := rfl
@[simp] theorem clearStatus_epoch (v : Word) (s : State) : (clearStatus v s).epoch = s.epoch := rfl
@[simp] theorem clearStatus_entropy (v : Word) (s : State) : (clearStatus v s).entropy = s.entropy := rfl
@[simp] theorem clearStatus_busyReads (v : Word) (s : State) : (clearStatus v s).busyReads = s.busyReads := rfl
@[simp] theorem clearStatus_host (v : Word) (s : State) : (clearStatus v s).host = s.host := rfl
@[simp] theorem clearStatus_turns (v : Word) (s : State) : (clearStatus v s).turns = s.turns := rfl

/-! ### writeCtrl -/

@[simp] theorem writeCtrl_cfg (v : Word) (s : State) : (writeCtrl v s).cfg = s.cfg := rfl
@[simp] theorem writeCtrl_phase (v : Word) (s : State) : (writeCtrl v s).phase = s.phase := rfl
@[simp] theorem writeCtrl_ieDone (v : Word) (s : State) : (writeCtrl v s).ieDone = v.getLsbD 0 := rfl
@[simp] theorem writeCtrl_ieErr (v : Word) (s : State) : (writeCtrl v s).ieErr = v.getLsbD 1 := rfl
@[simp] theorem writeCtrl_done (v : Word) (s : State) : (writeCtrl v s).done = s.done := rfl
@[simp] theorem writeCtrl_err (v : Word) (s : State) : (writeCtrl v s).err = s.err := rfl
@[simp] theorem writeCtrl_drop (v : Word) (s : State) : (writeCtrl v s).drop = s.drop := rfl
@[simp] theorem writeCtrl_bbsValid (v : Word) (s : State) : (writeCtrl v s).bbsValid = s.bbsValid := rfl
@[simp] theorem writeCtrl_cmd (v : Word) (s : State) : (writeCtrl v s).cmd = s.cmd := rfl
@[simp] theorem writeCtrl_cause (v : Word) (s : State) : (writeCtrl v s).cause = s.cause := rfl
@[simp] theorem writeCtrl_info0 (v : Word) (s : State) : (writeCtrl v s).info0 = s.info0 := rfl
@[simp] theorem writeCtrl_info1 (v : Word) (s : State) : (writeCtrl v s).info1 = s.info1 := rfl
@[simp] theorem writeCtrl_res0 (v : Word) (s : State) : (writeCtrl v s).res0 = s.res0 := rfl
@[simp] theorem writeCtrl_res1 (v : Word) (s : State) : (writeCtrl v s).res1 = s.res1 := rfl
@[simp] theorem writeCtrl_src (v : Word) (s : State) : (writeCtrl v s).src = s.src := rfl
@[simp] theorem writeCtrl_dst (v : Word) (s : State) : (writeCtrl v s).dst = s.dst := rfl
@[simp] theorem writeCtrl_len (v : Word) (s : State) : (writeCtrl v s).len = s.len := rfl
@[simp] theorem writeCtrl_adst (v : Word) (s : State) : (writeCtrl v s).adst = s.adst := rfl
@[simp] theorem writeCtrl_lcgA (v : Word) (s : State) : (writeCtrl v s).lcgA = s.lcgA := rfl
@[simp] theorem writeCtrl_lcgB (v : Word) (s : State) : (writeCtrl v s).lcgB = s.lcgB := rfl
@[simp] theorem writeCtrl_lcgS (v : Word) (s : State) : (writeCtrl v s).lcgS = s.lcgS := rfl
@[simp] theorem writeCtrl_bbsP (v : Word) (s : State) : (writeCtrl v s).bbsP = s.bbsP := rfl
@[simp] theorem writeCtrl_bbsQ (v : Word) (s : State) : (writeCtrl v s).bbsQ = s.bbsQ := rfl
@[simp] theorem writeCtrl_bbsN (v : Word) (s : State) : (writeCtrl v s).bbsN = s.bbsN := rfl
@[simp] theorem writeCtrl_bbsX (v : Word) (s : State) : (writeCtrl v s).bbsX = s.bbsX := rfl
@[simp] theorem writeCtrl_bbsSeed (v : Word) (s : State) : (writeCtrl v s).bbsSeed = s.bbsSeed := rfl
@[simp] theorem writeCtrl_mxBase (v : Word) (s : State) : (writeCtrl v s).mxBase = s.mxBase := rfl
@[simp] theorem writeCtrl_mxExp (v : Word) (s : State) : (writeCtrl v s).mxExp = s.mxExp := rfl
@[simp] theorem writeCtrl_mxMod (v : Word) (s : State) : (writeCtrl v s).mxMod = s.mxMod := rfl
@[simp] theorem writeCtrl_pgMaxIter (v : Word) (s : State) : (writeCtrl v s).pgMaxIter = s.pgMaxIter := rfl
@[simp] theorem writeCtrl_lram (v : Word) (s : State) : (writeCtrl v s).lram = s.lram := rfl
@[simp] theorem writeCtrl_epoch (v : Word) (s : State) : (writeCtrl v s).epoch = s.epoch := rfl
@[simp] theorem writeCtrl_entropy (v : Word) (s : State) : (writeCtrl v s).entropy = s.entropy := rfl
@[simp] theorem writeCtrl_busyReads (v : Word) (s : State) : (writeCtrl v s).busyReads = s.busyReads := rfl
@[simp] theorem writeCtrl_host (v : Word) (s : State) : (writeCtrl v s).host = s.host := rfl
@[simp] theorem writeCtrl_turns (v : Word) (s : State) : (writeCtrl v s).turns = s.turns := rfl

/-! ### writeBytes -/

@[simp] theorem writeBytes_cfg (s : State) (a : Nat) (bs : List Byte) : (s.writeBytes a bs).cfg = s.cfg := rfl
@[simp] theorem writeBytes_phase (s : State) (a : Nat) (bs : List Byte) : (s.writeBytes a bs).phase = s.phase := rfl
@[simp] theorem writeBytes_ieDone (s : State) (a : Nat) (bs : List Byte) : (s.writeBytes a bs).ieDone = s.ieDone := rfl
@[simp] theorem writeBytes_ieErr (s : State) (a : Nat) (bs : List Byte) : (s.writeBytes a bs).ieErr = s.ieErr := rfl
@[simp] theorem writeBytes_done (s : State) (a : Nat) (bs : List Byte) : (s.writeBytes a bs).done = s.done := rfl
@[simp] theorem writeBytes_err (s : State) (a : Nat) (bs : List Byte) : (s.writeBytes a bs).err = s.err := rfl
@[simp] theorem writeBytes_drop (s : State) (a : Nat) (bs : List Byte) : (s.writeBytes a bs).drop = s.drop := rfl
@[simp] theorem writeBytes_bbsValid (s : State) (a : Nat) (bs : List Byte) : (s.writeBytes a bs).bbsValid = s.bbsValid := rfl
@[simp] theorem writeBytes_cmd (s : State) (a : Nat) (bs : List Byte) : (s.writeBytes a bs).cmd = s.cmd := rfl
@[simp] theorem writeBytes_cause (s : State) (a : Nat) (bs : List Byte) : (s.writeBytes a bs).cause = s.cause := rfl
@[simp] theorem writeBytes_info0 (s : State) (a : Nat) (bs : List Byte) : (s.writeBytes a bs).info0 = s.info0 := rfl
@[simp] theorem writeBytes_info1 (s : State) (a : Nat) (bs : List Byte) : (s.writeBytes a bs).info1 = s.info1 := rfl
@[simp] theorem writeBytes_res0 (s : State) (a : Nat) (bs : List Byte) : (s.writeBytes a bs).res0 = s.res0 := rfl
@[simp] theorem writeBytes_res1 (s : State) (a : Nat) (bs : List Byte) : (s.writeBytes a bs).res1 = s.res1 := rfl
@[simp] theorem writeBytes_src (s : State) (a : Nat) (bs : List Byte) : (s.writeBytes a bs).src = s.src := rfl
@[simp] theorem writeBytes_dst (s : State) (a : Nat) (bs : List Byte) : (s.writeBytes a bs).dst = s.dst := rfl
@[simp] theorem writeBytes_len (s : State) (a : Nat) (bs : List Byte) : (s.writeBytes a bs).len = s.len := rfl
@[simp] theorem writeBytes_adst (s : State) (a : Nat) (bs : List Byte) : (s.writeBytes a bs).adst = s.adst := rfl
@[simp] theorem writeBytes_lcgA (s : State) (a : Nat) (bs : List Byte) : (s.writeBytes a bs).lcgA = s.lcgA := rfl
@[simp] theorem writeBytes_lcgB (s : State) (a : Nat) (bs : List Byte) : (s.writeBytes a bs).lcgB = s.lcgB := rfl
@[simp] theorem writeBytes_lcgS (s : State) (a : Nat) (bs : List Byte) : (s.writeBytes a bs).lcgS = s.lcgS := rfl
@[simp] theorem writeBytes_bbsP (s : State) (a : Nat) (bs : List Byte) : (s.writeBytes a bs).bbsP = s.bbsP := rfl
@[simp] theorem writeBytes_bbsQ (s : State) (a : Nat) (bs : List Byte) : (s.writeBytes a bs).bbsQ = s.bbsQ := rfl
@[simp] theorem writeBytes_bbsN (s : State) (a : Nat) (bs : List Byte) : (s.writeBytes a bs).bbsN = s.bbsN := rfl
@[simp] theorem writeBytes_bbsX (s : State) (a : Nat) (bs : List Byte) : (s.writeBytes a bs).bbsX = s.bbsX := rfl
@[simp] theorem writeBytes_bbsSeed (s : State) (a : Nat) (bs : List Byte) : (s.writeBytes a bs).bbsSeed = s.bbsSeed := rfl
@[simp] theorem writeBytes_mxBase (s : State) (a : Nat) (bs : List Byte) : (s.writeBytes a bs).mxBase = s.mxBase := rfl
@[simp] theorem writeBytes_mxExp (s : State) (a : Nat) (bs : List Byte) : (s.writeBytes a bs).mxExp = s.mxExp := rfl
@[simp] theorem writeBytes_mxMod (s : State) (a : Nat) (bs : List Byte) : (s.writeBytes a bs).mxMod = s.mxMod := rfl
@[simp] theorem writeBytes_pgMaxIter (s : State) (a : Nat) (bs : List Byte) : (s.writeBytes a bs).pgMaxIter = s.pgMaxIter := rfl
@[simp] theorem writeBytes_lram (s : State) (a : Nat) (bs : List Byte) : (s.writeBytes a bs).lram = s.lram.writeBytes a bs := rfl
@[simp] theorem writeBytes_epoch (s : State) (a : Nat) (bs : List Byte) : (s.writeBytes a bs).epoch = s.epoch := rfl
@[simp] theorem writeBytes_entropy (s : State) (a : Nat) (bs : List Byte) : (s.writeBytes a bs).entropy = s.entropy := rfl
@[simp] theorem writeBytes_busyReads (s : State) (a : Nat) (bs : List Byte) : (s.writeBytes a bs).busyReads = s.busyReads := rfl
@[simp] theorem writeBytes_host (s : State) (a : Nat) (bs : List Byte) : (s.writeBytes a bs).host = s.host := rfl
@[simp] theorem writeBytes_turns (s : State) (a : Nat) (bs : List Byte) : (s.writeBytes a bs).turns = s.turns := rfl

/-! ### hostGoto -/

@[simp] theorem hostGoto_cfg (pc : Nat) (s : State) : (hostGoto pc s).cfg = s.cfg := rfl
@[simp] theorem hostGoto_phase (pc : Nat) (s : State) : (hostGoto pc s).phase = s.phase := rfl
@[simp] theorem hostGoto_ieDone (pc : Nat) (s : State) : (hostGoto pc s).ieDone = s.ieDone := rfl
@[simp] theorem hostGoto_ieErr (pc : Nat) (s : State) : (hostGoto pc s).ieErr = s.ieErr := rfl
@[simp] theorem hostGoto_done (pc : Nat) (s : State) : (hostGoto pc s).done = s.done := rfl
@[simp] theorem hostGoto_err (pc : Nat) (s : State) : (hostGoto pc s).err = s.err := rfl
@[simp] theorem hostGoto_drop (pc : Nat) (s : State) : (hostGoto pc s).drop = s.drop := rfl
@[simp] theorem hostGoto_bbsValid (pc : Nat) (s : State) : (hostGoto pc s).bbsValid = s.bbsValid := rfl
@[simp] theorem hostGoto_cmd (pc : Nat) (s : State) : (hostGoto pc s).cmd = s.cmd := rfl
@[simp] theorem hostGoto_cause (pc : Nat) (s : State) : (hostGoto pc s).cause = s.cause := rfl
@[simp] theorem hostGoto_info0 (pc : Nat) (s : State) : (hostGoto pc s).info0 = s.info0 := rfl
@[simp] theorem hostGoto_info1 (pc : Nat) (s : State) : (hostGoto pc s).info1 = s.info1 := rfl
@[simp] theorem hostGoto_res0 (pc : Nat) (s : State) : (hostGoto pc s).res0 = s.res0 := rfl
@[simp] theorem hostGoto_res1 (pc : Nat) (s : State) : (hostGoto pc s).res1 = s.res1 := rfl
@[simp] theorem hostGoto_src (pc : Nat) (s : State) : (hostGoto pc s).src = s.src := rfl
@[simp] theorem hostGoto_dst (pc : Nat) (s : State) : (hostGoto pc s).dst = s.dst := rfl
@[simp] theorem hostGoto_len (pc : Nat) (s : State) : (hostGoto pc s).len = s.len := rfl
@[simp] theorem hostGoto_adst (pc : Nat) (s : State) : (hostGoto pc s).adst = s.adst := rfl
@[simp] theorem hostGoto_lcgA (pc : Nat) (s : State) : (hostGoto pc s).lcgA = s.lcgA := rfl
@[simp] theorem hostGoto_lcgB (pc : Nat) (s : State) : (hostGoto pc s).lcgB = s.lcgB := rfl
@[simp] theorem hostGoto_lcgS (pc : Nat) (s : State) : (hostGoto pc s).lcgS = s.lcgS := rfl
@[simp] theorem hostGoto_bbsP (pc : Nat) (s : State) : (hostGoto pc s).bbsP = s.bbsP := rfl
@[simp] theorem hostGoto_bbsQ (pc : Nat) (s : State) : (hostGoto pc s).bbsQ = s.bbsQ := rfl
@[simp] theorem hostGoto_bbsN (pc : Nat) (s : State) : (hostGoto pc s).bbsN = s.bbsN := rfl
@[simp] theorem hostGoto_bbsX (pc : Nat) (s : State) : (hostGoto pc s).bbsX = s.bbsX := rfl
@[simp] theorem hostGoto_bbsSeed (pc : Nat) (s : State) : (hostGoto pc s).bbsSeed = s.bbsSeed := rfl
@[simp] theorem hostGoto_mxBase (pc : Nat) (s : State) : (hostGoto pc s).mxBase = s.mxBase := rfl
@[simp] theorem hostGoto_mxExp (pc : Nat) (s : State) : (hostGoto pc s).mxExp = s.mxExp := rfl
@[simp] theorem hostGoto_mxMod (pc : Nat) (s : State) : (hostGoto pc s).mxMod = s.mxMod := rfl
@[simp] theorem hostGoto_pgMaxIter (pc : Nat) (s : State) : (hostGoto pc s).pgMaxIter = s.pgMaxIter := rfl
@[simp] theorem hostGoto_lram (pc : Nat) (s : State) : (hostGoto pc s).lram = s.lram := rfl
@[simp] theorem hostGoto_epoch (pc : Nat) (s : State) : (hostGoto pc s).epoch = s.epoch := rfl
@[simp] theorem hostGoto_entropy (pc : Nat) (s : State) : (hostGoto pc s).entropy = s.entropy := rfl
@[simp] theorem hostGoto_busyReads (pc : Nat) (s : State) : (hostGoto pc s).busyReads = s.busyReads := rfl
@[simp] theorem hostGoto_host (pc : Nat) (s : State) : (hostGoto pc s).host = { s.host with pc := pc } := rfl
@[simp] theorem hostGoto_turns (pc : Nat) (s : State) : (hostGoto pc s).turns = s.turns := rfl

/-! ### popTurn -/

@[simp] theorem popTurn_cfg (s : State) : (popTurn s).cfg = s.cfg := rfl
@[simp] theorem popTurn_phase (s : State) : (popTurn s).phase = s.phase := rfl
@[simp] theorem popTurn_ieDone (s : State) : (popTurn s).ieDone = s.ieDone := rfl
@[simp] theorem popTurn_ieErr (s : State) : (popTurn s).ieErr = s.ieErr := rfl
@[simp] theorem popTurn_done (s : State) : (popTurn s).done = s.done := rfl
@[simp] theorem popTurn_err (s : State) : (popTurn s).err = s.err := rfl
@[simp] theorem popTurn_drop (s : State) : (popTurn s).drop = s.drop := rfl
@[simp] theorem popTurn_bbsValid (s : State) : (popTurn s).bbsValid = s.bbsValid := rfl
@[simp] theorem popTurn_cmd (s : State) : (popTurn s).cmd = s.cmd := rfl
@[simp] theorem popTurn_cause (s : State) : (popTurn s).cause = s.cause := rfl
@[simp] theorem popTurn_info0 (s : State) : (popTurn s).info0 = s.info0 := rfl
@[simp] theorem popTurn_info1 (s : State) : (popTurn s).info1 = s.info1 := rfl
@[simp] theorem popTurn_res0 (s : State) : (popTurn s).res0 = s.res0 := rfl
@[simp] theorem popTurn_res1 (s : State) : (popTurn s).res1 = s.res1 := rfl
@[simp] theorem popTurn_src (s : State) : (popTurn s).src = s.src := rfl
@[simp] theorem popTurn_dst (s : State) : (popTurn s).dst = s.dst := rfl
@[simp] theorem popTurn_len (s : State) : (popTurn s).len = s.len := rfl
@[simp] theorem popTurn_adst (s : State) : (popTurn s).adst = s.adst := rfl
@[simp] theorem popTurn_lcgA (s : State) : (popTurn s).lcgA = s.lcgA := rfl
@[simp] theorem popTurn_lcgB (s : State) : (popTurn s).lcgB = s.lcgB := rfl
@[simp] theorem popTurn_lcgS (s : State) : (popTurn s).lcgS = s.lcgS := rfl
@[simp] theorem popTurn_bbsP (s : State) : (popTurn s).bbsP = s.bbsP := rfl
@[simp] theorem popTurn_bbsQ (s : State) : (popTurn s).bbsQ = s.bbsQ := rfl
@[simp] theorem popTurn_bbsN (s : State) : (popTurn s).bbsN = s.bbsN := rfl
@[simp] theorem popTurn_bbsX (s : State) : (popTurn s).bbsX = s.bbsX := rfl
@[simp] theorem popTurn_bbsSeed (s : State) : (popTurn s).bbsSeed = s.bbsSeed := rfl
@[simp] theorem popTurn_mxBase (s : State) : (popTurn s).mxBase = s.mxBase := rfl
@[simp] theorem popTurn_mxExp (s : State) : (popTurn s).mxExp = s.mxExp := rfl
@[simp] theorem popTurn_mxMod (s : State) : (popTurn s).mxMod = s.mxMod := rfl
@[simp] theorem popTurn_pgMaxIter (s : State) : (popTurn s).pgMaxIter = s.pgMaxIter := rfl
@[simp] theorem popTurn_lram (s : State) : (popTurn s).lram = s.lram := rfl
@[simp] theorem popTurn_epoch (s : State) : (popTurn s).epoch = s.epoch := rfl
@[simp] theorem popTurn_entropy (s : State) : (popTurn s).entropy = s.entropy := rfl
@[simp] theorem popTurn_busyReads (s : State) : (popTurn s).busyReads = s.busyReads := rfl
@[simp] theorem popTurn_host (s : State) : (popTurn s).host = s.host := rfl
@[simp] theorem popTurn_turns (s : State) : (popTurn s).turns = s.turns.tail := rfl

end Sys2Proof.Machine
end

