-- ==== Sys2Proof/Laws/Memory.lean ====
section
/-! SUPPORT. The laws of the LRAM: a read after a write, what a write leaves alone, and that every memory operation keeps the canonical form. -/

namespace Sys2Proof.Machine

/-! ### One byte -/

theorem Memory.get?_set_self (m : Memory) (a : Nat) (b : Byte) : (Memory.set m a b).get? a = some b := by
  induction m with
  | nil => simp [Memory.set, Memory.get?]
  | cons c m ih =>
    obtain ⟨a', b'⟩ := c
    rw [Memory.set]
    split
    · simp [Memory.get?]
    · split
      · simp [Memory.get?]
      · rename_i h1 h2
        rw [Memory.get?, if_neg (by omega), ih]

theorem Memory.get?_set_of_ne (m : Memory) (a x : Nat) (b : Byte) (h : x ≠ a) :
    (Memory.set m a b).get? x = m.get? x := by
  induction m with
  | nil => simp [Memory.set, Memory.get?, h.symm]
  | cons c m ih =>
    obtain ⟨a', b'⟩ := c
    rw [Memory.set]
    split
    · rw [Memory.get?, if_neg h.symm]
    · split
      · rename_i h2
        subst h2
        rw [Memory.get?, if_neg h.symm, Memory.get?, if_neg h.symm]
      · rw [Memory.get?, Memory.get?, ih]

theorem Memory.mem_set (m : Memory) (a : Nat) (b : Byte) (c : Host.Cell) (h : c ∈ Memory.set m a b) :
    c = (a, b) ∨ c ∈ m := by
  induction m with
  | nil => simpa [Memory.set] using h
  | cons d m ih =>
    obtain ⟨a', b'⟩ := d
    rw [Memory.set] at h
    split at h
    · simpa using h
    · split at h
      · rcases List.mem_cons.mp h with h | h
        · exact .inl h
        · exact .inr (List.mem_cons_of_mem _ h)
      · rcases List.mem_cons.mp h with h | h
        · exact .inr (h ▸ List.mem_cons_self)
        · exact (ih h).imp_right (List.mem_cons_of_mem _)

/-- A write keeps the canonical form. -/
theorem Memory.set_wf (m : Memory) (a : Nat) (b : Byte) (h : m.wf) : Memory.wf (Memory.set m a b) := by
  induction m with
  | nil => simp [Memory.set]
  | cons c m ih =>
    obtain ⟨a', b'⟩ := c
    have h' := List.pairwise_cons.mp h
    rw [Memory.set]
    split
    · rename_i hlt
      refine List.pairwise_cons.mpr ⟨fun d hd => ?_, h⟩
      rcases List.mem_cons.mp hd with rfl | hd
      · exact hlt
      · exact Nat.lt_trans hlt (h'.1 d hd)
    · split
      · rename_i h2
        subst h2
        exact List.pairwise_cons.mpr ⟨fun d hd => h'.1 d hd, h'.2⟩
      · rename_i h1 h2
        refine List.pairwise_cons.mpr ⟨fun d hd => ?_, ih h'.2⟩
        rcases Memory.mem_set m a b d hd with rfl | hd
        · show a' < a
          omega
        · exact h'.1 d hd

/-! ### Several bytes -/

theorem Memory.writeBytes_wf (m : Memory) (a : Nat) (bs : List Byte) (h : m.wf) :
    Memory.wf (Memory.writeBytes m a bs) := by
  induction bs generalizing m a with
  | nil => exact h
  | cons b bs ih => exact ih _ _ (Memory.set_wf m a b h)

theorem Memory.writeBytes_inside (m : Memory) (a : Nat) (bs : List Byte) (size : Nat)
    (h : ∀ c ∈ m, c.1 < size) (hb : bs ≠ [] → a + bs.length ≤ size) :
    ∀ c ∈ Memory.writeBytes m a bs, c.1 < size := by
  induction bs generalizing m a with
  | nil => exact h
  | cons b bs ih =>
    have hsz := hb (by simp)
    simp only [List.length_cons] at hsz
    refine ih _ _ (fun c hc => ?_) (fun _ => by omega)
    rcases Memory.mem_set m a b c hc with rfl | hc
    · show a < size
      omega
    · exact h c hc

/-- What a byte of memory is after a write of several bytes: the byte written there, else what it was. -/
theorem Memory.get?_writeBytes (m : Memory) (a x : Nat) (bs : List Byte) :
    (Memory.writeBytes m a bs).get? x = if a ≤ x ∧ x < a + bs.length then bs[x - a]? else m.get? x := by
  induction bs generalizing m a with
  | nil =>
    rw [Memory.writeBytes, if_neg]
    simp only [List.length_nil]; omega
  | cons b bs ih =>
    rw [Memory.writeBytes, ih]
    simp only [List.length_cons]
    by_cases hx : x = a
    · subst hx
      rw [if_neg (by omega), if_pos (by omega), Memory.get?_set_self, Nat.sub_self, List.getElem?_cons_zero]
    · by_cases hr : a ≤ x ∧ x < a + (bs.length + 1)
      · rw [if_pos (by omega), if_pos hr, show x - a = (x - (a + 1)) + 1 by omega, List.getElem?_cons_succ]
      · rw [if_neg (by omega), if_neg hr, Memory.get?_set_of_ne _ _ _ _ hx]

/-! ### Through the state -/

theorem readByte_congr {s t : State} (hl : t.lram = s.lram) (he : t.epoch = s.epoch) (x : Nat) :
    t.readByte x = s.readByte x := by simp [State.readByte, hl, he]

/-- Reading a byte after a write of several bytes (20_memory.md R61). -/
theorem readByte_writeBytes (s : State) (a x : Nat) (bs : List Byte) :
    (s.writeBytes a bs).readByte x =
      if a ≤ x ∧ x < a + bs.length then (bs[x - a]?).getD 0#8 else s.readByte x := by
  simp only [State.readByte, writeBytes_lram, writeBytes_epoch, Memory.get?_writeBytes]
  split
  · rename_i h
    obtain ⟨b, hb⟩ : ∃ b, bs[x - a]? = some b := ⟨bs[x - a]'(by omega), List.getElem?_eq_getElem _⟩
    simp [hb]
  · rfl

/-- A write leaves every other byte alone. -/
theorem readByte_writeBytes_outside (s : State) (a x : Nat) (bs : List Byte) (h : x < a ∨ a + bs.length ≤ x) :
    (s.writeBytes a bs).readByte x = s.readByte x := by
  rw [readByte_writeBytes, if_neg (by omega)]

/-- A byte read where it was written is the byte written. -/
theorem readByte_writeBytes_at (s : State) (a i : Nat) (bs : List Byte) (b : Byte) (h : bs[i]? = some b) :
    (s.writeBytes a bs).readByte (a + i) = b := by
  have hi : i < bs.length := (List.getElem?_eq_some_iff.mp h).1
  rw [readByte_writeBytes, if_pos (by omega), Nat.add_sub_cancel_left, h]; rfl

@[simp] theorem readBytes_length (s : State) (a n : Nat) : (s.readBytes a n).length = n := by
  induction n generalizing a with
  | zero => rfl
  | succ n ih => simp [State.readBytes, ih]

theorem readBytes_getElem? (s : State) (a n i : Nat) (h : i < n) : (s.readBytes a n)[i]? = some (s.readByte (a + i)) := by
  induction n generalizing a i with
  | zero => omega
  | succ n ih =>
    cases i with
    | zero => rfl
    | succ i =>
      simp only [State.readBytes, List.getElem?_cons_succ, ih (a + 1) i (by omega)]
      congr 2; omega

theorem readBytes_congr {s t : State} (a n : Nat) (h : ∀ x, a ≤ x → x < a + n → t.readByte x = s.readByte x) :
    t.readBytes a n = s.readBytes a n := by
  induction n generalizing a with
  | zero => rfl
  | succ n ih =>
    rw [State.readBytes, State.readBytes, h a le_rfl (by omega), ih (a + 1) (fun x h1 h2 => h x (by omega) (by omega))]

/-- Reading the region just written gives the bytes written. -/
theorem readBytes_writeBytes (s : State) (a : Nat) (bs : List Byte) : (s.writeBytes a bs).readBytes a bs.length = bs := by
  refine List.ext_getElem? fun i => ?_
  by_cases hi : i < bs.length
  · rw [readBytes_getElem? _ _ _ _ hi, readByte_writeBytes_at s a i bs bs[i] (List.getElem?_eq_getElem hi),
      List.getElem?_eq_getElem hi]
  · rw [List.getElem?_eq_none (by simpa using hi), List.getElem?_eq_none (by simpa using hi)]

end Sys2Proof.Machine
end

