-- ==== Sys2Proof/Laws/Commands.lean ====
section
/-! SUPPORT. What the shared ends and checks of the commands do: one lemma per operation, which a proof about a command cites instead of unfolding it. -/

namespace Sys2Proof.Machine

/-! ### The end of a command -/

@[simp] theorem conclude_some (f : FaultInfo) (effect : State → State) (s : State) :
    conclude (some f) effect s = takeFault f s := rfl

@[simp] theorem conclude_none (effect : State → State) (s : State) :
    conclude none effect s = complete (effect s) := rfl

/-- A command ends in the fault its checks name, or in its effect and the completion. -/
theorem conclude_cases (fault : Option FaultInfo) (effect : State → State) (s : State) :
    (∃ f, fault = some f ∧ conclude fault effect s = takeFault f s) ∨
      (fault = none ∧ conclude fault effect s = complete (effect s)) := by
  cases fault with
  | none => exact .inr ⟨rfl, rfl⟩
  | some f => exact .inl ⟨f, rfl, rfl⟩

/-- No check fails when neither does (60_exceptions.md R216). -/
theorem orElse_eq_none_iff {α : Type} {a b : Option α} : (a <|> b) = none ↔ a = none ∧ b = none := by
  cases a with
  | none => exact ⟨fun h => ⟨rfl, h⟩, fun h => h.2⟩
  | some x => exact ⟨fun h => (nomatch h), fun h => (nomatch h.1)⟩

/-- The first of two checks that fails is reported (60_exceptions.md R216). -/
theorem orElse_eq_some_cases {α : Type} {a b : Option α} {f : α} (h : (a <|> b) = some f) : a = some f ∨ b = some f := by
  cases a with
  | none => exact .inr h
  | some x => exact .inl h

/-! ### The checks -/

/-- `CheckRegion` passes exactly when the region is empty or lies in the LRAM (20_memory.md R65). -/
theorem checkRegion_eq_none_iff (cfg : Config) (a len : Nat) :
    checkRegion cfg a len = none ↔ len = 0 ∨ a + len ≤ cfg.lramBytes := by
  rw [checkRegion]
  split <;> simp <;> omega

theorem checkRegion_eq_some (cfg : Config) (a len : Nat) (h : ¬(len = 0 ∨ a + len ≤ cfg.lramBytes)) :
    checkRegion cfg a len = some ⟨.addressRange, a, len⟩ := if_pos (by omega)

theorem checkRegion_some_cases {cfg : Config} {a len : Nat} {f : FaultInfo} (h : checkRegion cfg a len = some f) :
    f = ⟨.addressRange, a, len⟩ := by
  rw [checkRegion] at h
  split at h
  · exact (Option.some.inj h).symm
  · cases h

/-- No byte above 127: no symbol fault (40_codec.md R101). -/
theorem symbolFault_eq_none (i : Nat) (cs : List Byte) (h : ∀ c ∈ cs, c.toNat ≤ Config.symMax) :
    symbolFault i cs = none := by
  induction cs generalizing i with
  | nil => rfl
  | cons c cs ih =>
    rw [symbolFault, if_neg (Nat.not_lt.mpr (h c List.mem_cons_self))]
    exact ih _ fun d hd => h d (List.mem_cons_of_mem _ hd)

/-- The lowest offending index is reported (40_codec.md R101). -/
theorem symbolFault_eq_some (i k : Nat) (cs : List Byte) (c : Byte) (hc : cs[k]? = some c) (hbad : Config.symMax < c.toNat)
    (hbefore : ∀ j d, j < k → cs[j]? = some d → d.toNat ≤ Config.symMax) :
    symbolFault i cs = some ⟨.outOfRangeSymbol, c.toNat, i + k⟩ := by
  induction cs generalizing i k with
  | nil => simp at hc
  | cons d cs ih =>
    cases k with
    | zero =>
      obtain rfl : d = c := by simpa using hc
      rw [symbolFault, if_pos hbad, Nat.add_zero]
    | succ k =>
      have hd := hbefore 0 d (by omega) rfl
      rw [symbolFault, if_neg (Nat.not_lt.mpr hd), ih (i + 1) k (by simpa using hc)
        fun j e hj he => hbefore (j + 1) e (by omega) (by simpa using he)]
      congr 2; omega

theorem symbolFault_some_cause {i : Nat} {cs : List Byte} {f : FaultInfo} (h : symbolFault i cs = some f) :
    f.cause = .outOfRangeSymbol := by
  induction cs generalizing i with
  | nil => cases h
  | cons c cs ih =>
    rw [symbolFault] at h
    split at h
    · rw [← Option.some.inj h]
    · exact ih h

/-- `BbsCheck` passes exactly when both parameters are below 2^32 and not 0 (43_bbs.md R171). -/
theorem bbsCheck_eq_none_iff (s : State) :
    bbsCheck s = none ↔ (1 ≤ s.bbsP.toNat ∧ s.bbsP.toNat < 2 ^ 32) ∧ 1 ≤ s.bbsQ.toNat ∧ s.bbsQ.toNat < 2 ^ 32 := by
  have : Config.pqLimit = 2 ^ 32 := rfl
  rw [bbsCheck, this]
  split
  · simp; omega
  · split
    · simp; omega
    · split
      · simp; omega
      · split
        · simp; omega
        · simp; omega

theorem bbsCheck_some_cause {s : State} {f : FaultInfo} (h : bbsCheck s = some f) : f.cause = .paramRange := by
  rw [bbsCheck] at h
  repeat' split at h
  all_goals first
    | exact (Option.some.inj h) ▸ rfl
    | cases h

end Sys2Proof.Machine
end

