-- ==== Sys2Proof/Laws/Codec.lean ====
section
/-! SUPPORT. Bitstrings in the LRAM (20_memory.md R63) and the two directions of the codec (40_codec.md R100 to R103). -/

namespace Sys2Proof.Machine

/-! ### Bitstrings in the LRAM -/

/-- Bit `k` of `ReadBits` is bit `7 - (k mod 8)` of byte `k div 8`. -/
theorem readBits_getElem? (s : State) (a nbits k : Nat) (h : k < nbits) :
    (s.readBits a nbits)[k]? = some ((s.readByte (a + k / 8)).toNat.testBit (7 - k % 8)) := by
  have hb : k / 8 < ceilDiv nbits 8 := by unfold ceilDiv; omega
  have key := getElem?_flatMap_const (fun b : Byte => be 8 b.toNat) 8 (fun b => be_length 8 b.toNat)
    (s.readBytes a (ceilDiv nbits 8)) (k / 8) (k % 8) _ (readBytes_getElem? s a _ _ hb) (Nat.mod_lt _ (by decide))
  rw [State.readBits, unpackBits, List.getElem?_take_of_lt h]
  rw [Nat.div_add_mod] at key
  rw [key, be_getElem? _ _ _ (Nat.mod_lt _ (by decide))]

@[simp] theorem readBits_length (s : State) (a nbits : Nat) : (s.readBits a nbits).length = nbits := by
  rw [State.readBits, unpackBits_length, readBytes_length]
  unfold ceilDiv; omega

/-- Bit `k` of the bytes `WriteBits` wrote is bit `k` of the bitstring, or a zero pad bit. -/
theorem writeBits_bit (s : State) (a : Nat) (bits : List Bool) (k : Nat) (h : k < 8 * ceilDiv bits.length 8) :
    ((s.writeBits a bits).readByte (a + k / 8)).toNat.testBit (7 - k % 8) = (bits[k]?).getD false := by
  have hb : k / 8 < (packBits bits).length := by rw [packBits_length]; omega
  have hx : (packBits bits)[k / 8]? = some (packBits bits)[k / 8] := List.getElem?_eq_getElem hb
  rw [State.writeBits, readByte_writeBytes_at s a (k / 8) _ _ hx]
  have key := getElem?_flatMap_const (fun b : Byte => be 8 b.toNat) 8 (fun b => be_length 8 b.toNat)
    (packBits bits) (k / 8) (k % 8) _ hx (Nat.mod_lt _ (by decide))
  have hl : bits.length ≤ 8 * ceilDiv bits.length 8 := by unfold ceilDiv; omega
  have hp : (packBits bits).flatMap (fun b => be 8 b.toNat) =
      bits ++ List.replicate (8 * ceilDiv bits.length 8 - bits.length) false := flatMap_be_packBytes _ _ hl
  rw [Nat.div_add_mod, hp, be_getElem? _ _ _ (Nat.mod_lt _ (by decide)), List.getElem?_append] at key
  split at key
  · rw [key]; rfl
  · rename_i hk
    rw [List.getElem?_replicate] at key
    split at key
    · rw [List.getElem?_eq_none (by omega)]
      exact (Option.some.inj key).symm
    · cases key

theorem readByte_writeBits_outside (s : State) (a : Nat) (bits : List Bool) (x : Nat)
    (h : x < a ∨ a + ceilDiv bits.length 8 ≤ x) : (s.writeBits a bits).readByte x = s.readByte x :=
  readByte_writeBytes_outside s a x _ (by rwa [packBits_length])

/-! ### Symbols -/

@[simp] theorem symbolBits_length (syms : List Byte) : (symbolBits syms).length = 7 * syms.length :=
  length_flatMap_const (fun c : Byte => be Config.symBits c.toNat) 7 (fun _ => be_length 7 _) syms

/-- Bit `7·i + j` of the concatenated codes is bit `6 - j` of symbol `i` (40_codec.md R100, R101). -/
theorem symbolBits_getElem? (syms : List Byte) (i j : Nat) (c : Byte) (hc : syms[i]? = some c) (hj : j < 7) :
    (symbolBits syms)[7 * i + j]? = some (c.toNat.testBit (6 - j)) := by
  rw [symbolBits, getElem?_flatMap_const (fun c : Byte => be Config.symBits c.toNat) 7 (fun _ => be_length 7 _) syms i j c
    hc hj]
  exact be_getElem? 7 _ j hj

@[simp] theorem groupSymbols_length (k : Nat) (bits : List Bool) : (groupSymbols k bits).length = k := by
  induction k generalizing bits with
  | zero => rfl
  | succ k ih => simp [groupSymbols, ih]

/-- Symbol `i` of the 7-bit groups is the value of group `i` (40_codec.md R102). -/
theorem groupSymbols_getElem? (k : Nat) (bits : List Bool) (i : Nat) (h : i < k) :
    (groupSymbols k bits)[i]? = some (BitVec.ofNat 8 (bitsVal ((bits.drop (7 * i)).take 7))) := by
  induction k generalizing bits i with
  | zero => omega
  | succ k ih =>
    cases i with
    | zero => simp [groupSymbols, Config.symBits]
    | succ i =>
      rw [groupSymbols, List.getElem?_cons_succ, ih _ i (by omega), List.drop_drop]
      congr 5
      show 7 + 7 * i = 7 * (i + 1)
      omega

/-- The value of a 7-bit group is a legal symbol. -/
theorem group_toNat (bits : List Bool) : (BitVec.ofNat 8 (bitsVal (bits.take 7))).toNat = bitsVal (bits.take 7) ∧
    bitsVal (bits.take 7) ≤ 127 := by
  have h := bitsVal_lt (bits.take 7)
  have hl : 2 ^ (bits.take 7).length ≤ 2 ^ 7 := Nat.pow_le_pow_right (by decide) (List.length_take_le _ _)
  rw [BitVec.toNat_ofNat]
  omega

/-- The groups of the codes of legal symbols are the symbols (40_codec.md R103). -/
theorem groupSymbols_symbolBits (syms : List Byte) (h : ∀ c ∈ syms, c.toNat ≤ 127) :
    groupSymbols syms.length (symbolBits syms) = syms := by
  induction syms with
  | nil => rfl
  | cons c cs ih =>
    have hc := h c List.mem_cons_self
    have hl : (be Config.symBits c.toNat).length = Config.symBits := be_length _ _
    rw [List.length_cons, groupSymbols, symbolBits, List.flatMap_cons, List.take_append_of_le_length (by rw [hl]),
      List.take_of_length_le (by rw [hl]), List.drop_append_of_le_length (by rw [hl]),
      List.drop_eq_nil_of_le (by rw [hl]), List.nil_append, bitsVal_be]
    have ih' := ih fun d hd => h d (List.mem_cons_of_mem _ hd)
    rw [symbolBits] at ih'
    rw [ih', Nat.mod_eq_of_lt (by show c.toNat < 128; omega), BitVec.ofNat_toNat, BitVec.setWidth_eq]

/-- The codes of the groups of a bitstring of `7·k` bits are the bitstring (40_codec.md R103). -/
theorem symbolBits_groupSymbols (k : Nat) (bits : List Bool) (h : bits.length = 7 * k) :
    symbolBits (groupSymbols k bits) = bits := by
  induction k generalizing bits with
  | zero => exact (List.eq_nil_of_length_eq_zero (by omega)).symm
  | succ k ih =>
    have hd : (bits.drop Config.symBits).length = 7 * k := by rw [List.length_drop]; show _ - 7 = _; omega
    have ht : (bits.take 7).length = 7 := by rw [List.length_take]; omega
    have hb := be_bitsVal (bits.take 7)
    rw [ht] at hb
    have ih' := ih _ hd
    rw [symbolBits] at ih'
    rw [groupSymbols, symbolBits, List.flatMap_cons, ih']
    show be 7 (BitVec.ofNat 8 (bitsVal (bits.take 7))).toNat ++ bits.drop 7 = bits
    rw [(group_toNat bits).1, hb, List.take_append_drop]

end Sys2Proof.Machine
end

