-- ==== Sys2Proof/Laws/Encoding.lean ====
section
/-! SUPPORT. The fields of a command word and the shape of what decodes (30_encoding.md R80, R81, R84, R85). -/

namespace Sys2Proof

theorem field_eq (v lo width : Nat) : field v lo width = v / 2 ^ lo % 2 ^ width := by
  rw [field, Nat.shiftRight_eq_div_pow]

/-- The fields of a well-formed command fit their places (30_encoding.md R80). -/
theorem encodeFields_bounds (i : Instr) (h : i.wellFormed = true) :
    (encodeFields i).1 < 256 ∧ (encodeFields i).2.1 < 256 ∧ (encodeFields i).2.2 < 65536 := by
  cases i <;> simp only [Instr.wellFormed, Instr.count, Option.all_some, decide_eq_true_eq] at h <;>
    simp only [encodeFields] <;> try omega
  rename_i a; cases a <;> decide

/-- The value of a well-formed command, from its fields. -/
theorem commandValue_toNat (i : Instr) (h : i.wellFormed = true) :
    (commandValue i).toNat =
      (encodeFields i).1 * 0x1000000 + (encodeFields i).2.1 * 0x10000 + (encodeFields i).2.2 := by
  obtain ⟨h1, h2, h3⟩ := encodeFields_bounds i h
  simp only [commandValue, encode]
  rw [BitVec.toNat_setWidth, BitVec.toNat_ofNat]
  omega

/-- What a value that decodes looks like: the three checks of 30_encoding.md R85 passed. -/
theorem decode_ok_cases {v : Word} {i : Instr} (h : decode v = .ok i) :
    field v.toNat 32 32 = 0 ∧ ∃ fmt make, opcodeRow (field v.toNat 24 8) = some (fmt, make) ∧
      reservedNonzero fmt (field v.toNat 16 8) (field v.toNat 0 16) = false ∧
      i = make (field v.toNat 0 16) (v.toNat.testBit 16) := by
  unfold decode at h
  split at h
  · cases h
  · rename_i h0
    refine ⟨by simpa using h0, ?_⟩
    split at h
    · cases h
    · rename_i fmt make hr
      split at h
      · cases h
      · rename_i hres
        exact ⟨fmt, make, hr, by simpa using hres, (Except.ok.inj h).symm⟩

end Sys2Proof
end

