-- ==== Sys2Proof/Laws/Instance.lean ====
section
/-! SUPPORT. The BBS instance and words in the LRAM: the invariant of 43_bbs.md R175 under construction and squaring, the closed form of the states, and what a write of big-endian words leaves. -/

namespace Sys2Proof.Machine

/-! ### The BBS instance -/

theorem coprime_mod {x n : Nat} (h : Nat.Coprime x n) : Nat.Coprime (x % n) n := by
  rw [Nat.Coprime, ← Nat.gcd_rec, Nat.gcd_comm]; exact h

/-- A constructed instance meets the invariant (43_bbs.md R170, R175). -/
theorem BbsInstance.initial (n seed : Nat) (hn : 1 ≤ n) (hb : n < 2 ^ 64) : BbsInstance n (bbsInitial n seed) where
  pos := hn
  bound := hb
  reduced := Nat.mod_lt _ hn
  square := ⟨_, rfl⟩
  coprime := coprime_mod (Nat.Coprime.pow_left 2 (repairCount_spec n seed hn).2.1)

/-- A squaring keeps the invariant (43_bbs.md R175). -/
theorem BbsInstance.sqMod {n x : Nat} (h : BbsInstance n x) : BbsInstance n (sqMod x n) where
  pos := h.pos
  bound := h.bound
  reduced := Nat.mod_lt _ h.pos
  square := ⟨x, by rw [Machine.sqMod, Nat.pow_two]⟩
  coprime := coprime_mod (Nat.Coprime.mul_left h.coprime h.coprime)

theorem BbsInstance.iterate {n x : Nat} (h : BbsInstance n x) (c : Nat) :
    BbsInstance n ((fun y => Machine.sqMod y n)^[c] x) := by
  induction c generalizing x with
  | zero => exact h
  | succ c ih => exact ih h.sqMod

/-- The registers hold modulus and state exactly (43_bbs.md R175). -/
theorem BbsInstance.word {n x : Nat} (h : BbsInstance n x) :
    BbsInstance (BitVec.ofNat 64 n).toNat (BitVec.ofNat 64 x).toNat := by
  rw [BitVec.toNat_ofNat, BitVec.toNat_ofNat, Nat.mod_eq_of_lt h.bound, Nat.mod_eq_of_lt (Nat.lt_trans h.reduced h.bound)]
  exact h

/-- Accepted parameters give a modulus from 1 below 2^64 (43_bbs.md R171). -/
theorem bbsModulus_bounds {s : State} (h : bbsCheck s = none) : 1 ≤ bbsModulus s ∧ bbsModulus s < 2 ^ 64 := by
  obtain ⟨⟨h1, h2⟩, h3, h4⟩ := (bbsCheck_eq_none_iff s).mp h
  refine ⟨Nat.mul_pos h1 h3, ?_⟩
  calc bbsModulus s < 2 ^ 32 * 2 ^ 32 := Nat.mul_lt_mul'' h2 h4
    _ = 2 ^ 64 := by norm_num

/-- State number `k` of the squaring sequence is `x^(2^k) mod n` (43_bbs.md R174, R177). -/
theorem iterate_sqMod (n x k : Nat) (hx : x < n) : (fun y => sqMod y n)^[k] x = x ^ 2 ^ k % n := by
  induction k with
  | zero => rw [Function.iterate_zero_apply, Nat.pow_zero, Nat.pow_one, Nat.mod_eq_of_lt hx]
  | succ k ih =>
    rw [Function.iterate_succ_apply', ih, sqMod, ← Nat.mul_mod, ← Nat.pow_two, ← pow_mul, pow_succ]

theorem bbsInitialized_eq_none_iff (s : State) : bbsInitialized s = none ↔ s.bbsValid = true := by
  rw [bbsInitialized]
  split <;> simp_all

theorem bbsInitialized_some {s : State} {f : FaultInfo} (h : bbsInitialized s = some f) :
    s.bbsValid = false ∧ f = ⟨.bbsNotInitialized, 0, 0⟩ := by
  rw [bbsInitialized] at h
  split at h
  · cases h
  · rename_i hv
    exact ⟨by simpa using hv, (Option.some.inj h).symm⟩

/-! ### Words in the LRAM -/

/-- A write of a region that lies in the LRAM keeps the memory's part of the invariant. -/
theorem writeBytes_memoryInv {s : State} (hw : s.lram.wf) (hin : ∀ c ∈ s.lram, c.1 < s.cfg.lramBytes) (a : Nat)
    (bs : List Byte) (h : bs.length = 0 ∨ a + bs.length ≤ s.cfg.lramBytes) :
    Memory.wf (s.lram.writeBytes a bs) ∧ ∀ c ∈ s.lram.writeBytes a bs, c.1 < s.cfg.lramBytes := by
  refine ⟨Memory.writeBytes_wf _ _ _ hw, Memory.writeBytes_inside _ _ _ _ hin fun hne => ?_⟩
  rcases h with h | h
  · exact absurd (List.eq_nil_of_length_eq_zero h) hne
  · exact h

theorem wordBytes_length (w : Nat) (vs : List Nat) : (vs.flatMap (beBytes w)).length = w * vs.length :=
  length_flatMap_const _ w (fun v => beBytes_length w v) vs

/-- Byte `j` of word `i` of a list of `w`-byte big-endian words written at `a` (20_memory.md R62). -/
theorem readByte_words (s : State) (a w i j v : Nat) (vs : List Nat) (hi : vs[i]? = some v) (hj : j < w) :
    (s.writeBytes a (vs.flatMap (beBytes w))).readByte (a + w * i + j) = BitVec.ofNat 8 (v / 256 ^ (w - 1 - j)) := by
  have h := getElem?_flatMap_const (beBytes w) w (fun v => beBytes_length w v) vs i j v hi hj
  rw [beBytes_getElem? w v j hj] at h
  rw [Nat.add_assoc, readByte_writeBytes_at s a _ _ _ h, Nat.shiftRight_eq_div_pow, pow_mul]
  rfl

end Sys2Proof.Machine
end

