-- ==== Sys2Proof/Laws/Keystream.lean ====
section
/-! SUPPORT. The rounds of the keystream orchestrator (44_gamma.md R190 to R199): which round starts from which LCG state, its outputs, and the bits of the gamma. -/

namespace Sys2Proof.Machine

/-- The LCG state that round `r` starts from (44_gamma.md R197, R202). -/
def gammaState (a b n s r : Nat) : Nat := (fun x => (gammaRound a b n x).feedback)^[r] s

theorem gammaState_zero (a b n s : Nat) : gammaState a b n s 0 = s := rfl

theorem gammaState_succ (a b n s r : Nat) :
    gammaState a b n s (r + 1) = (gammaRound a b n (gammaState a b n s r)).feedback :=
  Function.iterate_succ_apply' _ r s

/-- Rounds run one after another: those after round `r` are the rounds from its state on. -/
theorem gammaState_add (a b n s r q : Nat) : gammaState a b n s (r + q) = gammaState a b n (gammaState a b n s r) q := by
  rw [gammaState, Nat.add_comm, Function.iterate_add_apply]; rfl

/-- The rounds, each by its number (44_gamma.md R190). -/
theorem gammaRounds_eq (a b n count s : Nat) :
    gammaRounds a b n count s = (List.range count).map fun r => gammaRound a b n (gammaState a b n s r) := by
  induction count generalizing s with
  | zero => rfl
  | succ count ih =>
    rw [gammaRounds, ih, List.range_succ_eq_map, List.map_cons, List.map_map]
    congr 1

@[simp] theorem gammaRounds_length (a b n count s : Nat) : (gammaRounds a b n count s).length = count := by
  rw [gammaRounds_eq, List.length_map, List.length_range]

theorem gammaOutputs_length (n seed : Nat) : (gammaOutputs n seed).length = 5 := bbsStates_length _ _ _

/-- Output `j` of a round is the state after `j + 1` squarings of the fresh instance (44_gamma.md R195). -/
theorem gammaOutputs_getElem? (n seed j : Nat) (h : j < 5) :
    (gammaOutputs n seed)[j]? = some ((fun y => sqMod y n)^[j + 1] (bbsInitial n seed)) := bbsStates_getElem? _ _ _ _ h

theorem gammaRound_outs_length (a b n s : Nat) : (gammaRound a b n s).outs.length = 5 := gammaOutputs_length _ _

theorem gammaRound_lastOut (a b n s : Nat) :
    (gammaRound a b n s).lastOut = (fun y => sqMod y n)^[5] (bbsInitial n (gammaRound a b n s).seed) := by
  rw [← bbsStates_getLastD]; rfl

/-- The outputs `Y` by round and place (44_gamma.md R190). -/
theorem gammaWords_eq (s : State) :
    gammaWords s = (List.range (gammaCount s)).flatMap fun r =>
      (gammaRound s.lcgA.toNat s.lcgB.toNat (bbsModulus s)
        (gammaState s.lcgA.toNat s.lcgB.toNat (bbsModulus s) s.lcgS.toNat r)).outs := by
  rw [gammaWords, gammaRun, gammaRounds_eq, List.flatMap_map]

@[simp] theorem gammaWords_length (s : State) : (gammaWords s).length = 5 * gammaCount s := by
  rw [gammaWords_eq, length_flatMap_const _ 5 (fun _ => gammaRound_outs_length _ _ _ _), List.length_range]

/-- Output number `5·r + j` of the run. -/
theorem gammaWords_getElem? (s : State) (r j : Nat) (hr : r < gammaCount s) (hj : j < 5) :
    (gammaWords s)[5 * r + j]? = some ((fun y => sqMod y (bbsModulus s))^[j + 1] (bbsInitial (bbsModulus s)
      (gammaRound s.lcgA.toNat s.lcgB.toNat (bbsModulus s)
        (gammaState s.lcgA.toNat s.lcgB.toNat (bbsModulus s) s.lcgS.toNat r)).seed)) := by
  rw [gammaWords_eq, getElem?_flatMap_const _ 5 (fun _ => gammaRound_outs_length _ _ _ _) _ r j r (List.getElem?_range hr) hj]
  exact gammaOutputs_getElem? _ _ j hj

theorem gammaCount_eq (s : State) : gammaCount s = (s.len.toNat + 319) / 320 := by
  have : gammaCount s = (s.len.toNat + 320 - 1) / 320 := rfl
  omega

theorem gammaCount_ne_zero (s : State) (h : s.len.toNat ≠ 0) : gammaCount s ≠ 0 := by rw [gammaCount_eq]; omega

/-- The last round (44_gamma.md R199). -/
theorem gammaLast_eq (s : State) (h : gammaCount s ≠ 0) :
    gammaLast s = gammaRound s.lcgA.toNat s.lcgB.toNat (bbsModulus s)
      (gammaState s.lcgA.toNat s.lcgB.toNat (bbsModulus s) s.lcgS.toNat (gammaCount s - 1)) := by
  rw [gammaLast, gammaRun, gammaRounds_eq, List.getLastD_eq_getLast?, List.getLast?_eq_getElem?, List.length_map,
    List.length_range, List.getElem?_map, List.getElem?_range (by omega)]
  rfl

theorem outBits_length (vs : List Nat) : (vs.flatMap (be Config.outBits)).length = 64 * vs.length :=
  length_flatMap_const _ 64 (fun _ => be_length 64 _) vs

@[simp] theorem gammaBits_length (s : State) : (gammaBits s).length = s.len.toNat := by
  rw [gammaBits, List.length_take, outBits_length, gammaWords_length, gammaCount_eq]
  omega

/-- Bit `k` of the gamma is bit `63 - (k mod 64)` of output `k div 64` (44_gamma.md R195). -/
theorem gammaBits_getElem? (s : State) (k v : Nat) (hk : k < s.len.toNat) (hv : (gammaWords s)[k / 64]? = some v) :
    (gammaBits s)[k]? = some (v.testBit (63 - k % 64)) := by
  have h := getElem?_flatMap_const (be Config.outBits) 64 (fun _ => be_length 64 _) (gammaWords s) (k / 64) (k % 64) v hv
    (Nat.mod_lt _ (by decide))
  rw [Nat.div_add_mod] at h
  rw [gammaBits, List.getElem?_take_of_lt hk, h]
  exact be_getElem? 64 v _ (Nat.mod_lt _ (by decide))

/-- The key's check and the regions of `GAMMA` with at least one round (44_gamma.md R193). -/
theorem gammaFault_eq_none_iff (audit : Bool) (s : State) (h : gammaCount s ≠ 0) :
    gammaFault audit s = none ↔ bbsCheck s = none ∧ checkRegion s.cfg s.dst.toNat (ceilDiv s.len.toNat 8) = none ∧
      (audit = true → checkRegion s.cfg s.adst.toNat (40 * gammaCount s) = none) := by
  rw [gammaFault, if_neg h, orElse_eq_none_iff, orElse_eq_none_iff]
  cases audit <;> simp

end Sys2Proof.Machine
end

