-- ==== Sys2Proof/Laws/Primality.lean ====
section
/-! SUPPORT. What the Miller–Rabin engine decides (41_primality.md R121 to R127): trial division, witnesses, whole tests, candidates and the search. -/

namespace Sys2Proof.Machine

/-! ### Trial division and the decomposition -/

/-- Trial division answers true for a listed prime, whatever stands before it in the list. -/
theorem trialDivision_mem (n : Nat) (ps : List Nat) (hp : ∀ p ∈ ps, p ≠ 1 ∧ p ≠ 0)
    (hn : ∀ p ∈ ps, n % p = 0 → n = p) (h : n ∈ ps) : trialDivision n ps = some true := by
  induction ps with
  | nil => cases h
  | cons p ps ih =>
    rw [trialDivision]
    split
    · rfl
    · rename_i hne
      rw [if_neg (fun h0 => hne (hn p List.mem_cons_self h0))]
      refine ih (fun q hq => hp q (List.mem_cons_of_mem _ hq)) (fun q hq => hn q (List.mem_cons_of_mem _ hq)) ?_
      rcases List.mem_cons.mp h with h | h
      · exact absurd h hne
      · exact h

/-- Trial division answers false for an unlisted multiple of a listed prime. -/
theorem trialDivision_multiple (n : Nat) (ps : List Nat) (hn : n ∉ ps) (h : ∃ p ∈ ps, n % p = 0) :
    trialDivision n ps = some false := by
  induction ps with
  | nil => obtain ⟨p, hp, -⟩ := h; cases hp
  | cons p ps ih =>
    have hne : n ≠ p := fun he => hn (he ▸ List.mem_cons_self)
    rw [trialDivision, if_neg hne]
    split
    · rfl
    · rename_i h0
      refine ih (fun hm => hn (List.mem_cons_of_mem _ hm)) ?_
      obtain ⟨q, hq, hq0⟩ := h
      rcases List.mem_cons.mp hq with rfl | hq
      · exact absurd hq0 h0
      · exact ⟨q, hq, hq0⟩

/-- The decomposition finds the only odd `d` and the only `k` with `n = d·2^k` (41_primality.md R122). -/
theorem splitTwos_eq (fuel d k s : Nat) (hd : d % 2 = 1) (h : k < fuel) : splitTwos fuel (d * 2 ^ k) s = (d, s + k) := by
  induction k generalizing fuel s with
  | zero =>
    obtain ⟨f, rfl⟩ : ∃ f, fuel = f + 1 := ⟨fuel - 1, by omega⟩
    rw [splitTwos, Nat.pow_zero, Nat.mul_one, if_neg (by omega)]; rfl
  | succ k ih =>
    obtain ⟨f, rfl⟩ : ∃ f, fuel = f + 1 := ⟨fuel - 1, by omega⟩
    have e : d * 2 ^ (k + 1) = 2 * (d * 2 ^ k) := by ring
    rw [splitTwos, e, if_pos (Nat.mul_mod_right 2 _), Nat.mul_div_cancel_left _ (by decide), ih f (s + 1) (by omega)]
    congr 1; omega

theorem splitTwos_word (n d k : Nat) (hn : 1 ≤ n) (hb : n < 2 ^ 64) (h : n = d * 2 ^ k) (hd : d % 2 = 1) :
    splitTwos 64 n 0 = (d, k) := by
  have hk : k < 64 := by
    by_contra hk
    have h1 : 2 ^ 64 ≤ 2 ^ k := Nat.pow_le_pow_right (by decide) (by omega)
    have h2 : 2 ^ k ≤ n := by rw [h]; exact Nat.le_mul_of_pos_left _ (by omega)
    omega
  rw [h, splitTwos_eq 64 d k 0 hd hk, Nat.zero_add]

/-! ### Witnesses -/

theorem seekMinusOne_iff (n k y : Nat) :
    seekMinusOne n k y = true ↔ ∃ r, 1 ≤ r ∧ r ≤ k ∧ y ^ 2 ^ r % n = n - 1 := by
  induction k generalizing y with
  | zero => simp only [seekMinusOne, Bool.false_eq_true, false_iff]; rintro ⟨r, h1, h2, -⟩; omega
  | succ k ih =>
    have hs : ∀ r, sqMod y n ^ 2 ^ r % n = y ^ 2 ^ (r + 1) % n := fun r => by
      rw [sqMod, ← Nat.pow_mod, ← Nat.pow_two, ← pow_mul, pow_succ' 2 r]
    rw [seekMinusOne]
    split
    · rename_i h
      refine ⟨fun _ => ⟨1, le_rfl, by omega, ?_⟩, fun _ => rfl⟩
      rw [pow_one, Nat.pow_two]; exact h
    · rename_i h
      rw [ih]
      constructor
      · rintro ⟨r, h1, h2, h3⟩
        exact ⟨r + 1, by omega, by omega, by rw [← hs]; exact h3⟩
      · rintro ⟨r, h1, h2, h3⟩
        have hr : r ≠ 1 := by
          rintro rfl
          rw [pow_one, Nat.pow_two] at h3; exact h h3
        refine ⟨r - 1, by omega, by omega, ?_⟩
        rw [hs, show r - 1 + 1 = r by omega]; exact h3

/-- A witness accepts as 41_primality.md R123 says, in terms of exact powers. -/
theorem witnessAccepts_iff (n d s a : Nat) (hs : 1 ≤ s) :
    witnessAccepts n d s a = true ↔ a ^ d % n = 1 ∨ ∃ r, r < s ∧ a ^ (d * 2 ^ r) % n = n - 1 := by
  have hpow : ∀ r, (a ^ d % n) ^ 2 ^ r % n = a ^ (d * 2 ^ r) % n := fun r => by rw [← Nat.pow_mod, ← pow_mul]
  simp only [witnessAccepts, powmod_eq, Bool.or_eq_true, beq_iff_eq, seekMinusOne_iff, hpow]
  constructor
  · rintro ((h | h) | ⟨r, h1, h2, h3⟩)
    · exact .inl h
    · exact .inr ⟨0, hs, by simpa using h⟩
    · exact .inr ⟨r, by omega, h3⟩
  · rintro (h | ⟨r, h1, h2⟩)
    · exact .inl (.inl h)
    · rcases Nat.eq_zero_or_pos r with rfl | hr
      · exact .inl (.inr (by simpa using h2))
      · exact .inr ⟨r, hr, by omega, h2⟩

/-- In a field, a 2^s-th root of 1 is 1 or has a power -1 on the way. -/
theorem root_of_one {F : Type} [Field F] (x : F) (s : Nat) (h : x ^ 2 ^ s = 1) : x = 1 ∨ ∃ r, r < s ∧ x ^ 2 ^ r = -1 := by
  induction s with
  | zero => exact .inl (by simpa using h)
  | succ s ih =>
    rw [pow_succ, pow_mul] at h
    rcases eq_or_eq_neg_of_sq_eq_sq _ 1 (h.trans (one_pow 2).symm) with h | h
    · rcases ih h with h | ⟨r, h1, h2⟩
      · exact .inl h
      · exact .inr ⟨r, by omega, h2⟩
    · exact .inr ⟨s, by omega, h⟩

/-- Every witness of the range accepts a prime (41_primality.md R125 (a)). -/
theorem witnessAccepts_prime (p d s a : Nat) (hp : p.Prime) (hs : 1 ≤ s) (hd : p - 1 = d * 2 ^ s) (h1 : 2 ≤ a)
    (h2 : a ≤ p - 2) : witnessAccepts p d s a = true := by
  have hp2 := hp.two_le
  have : Fact p.Prime := ⟨hp⟩
  rw [witnessAccepts_iff _ _ _ _ hs]
  have hne : (a : ZMod p) ≠ 0 := by
    intro h0
    have := Nat.le_of_dvd (by omega) ((ZMod.natCast_eq_zero_iff a p).mp h0)
    omega
  have hf : ((a : ZMod p) ^ d) ^ 2 ^ s = 1 := by rw [← pow_mul, ← hd]; exact ZMod.pow_card_sub_one_eq_one hne
  rcases root_of_one _ s hf with h | ⟨r, h3, h4⟩
  · left
    have : ((a ^ d : Nat) : ZMod p) = ((1 : Nat) : ZMod p) := by push_cast; exact h
    have := (ZMod.natCast_eq_natCast_iff' _ _ _).mp this
    rwa [Nat.mod_eq_of_lt (show 1 < p by omega)] at this
  · right
    refine ⟨r, h3, ?_⟩
    have : ((a ^ (d * 2 ^ r) : Nat) : ZMod p) = ((p - 1 : Nat) : ZMod p) := by
      rw [Nat.cast_sub (by omega)]
      push_cast
      rw [pow_mul, h4]; simp
    have := (ZMod.natCast_eq_natCast_iff' _ _ _).mp this
    rwa [Nat.mod_eq_of_lt (show p - 1 < p by omega)] at this

/-! ### Whole tests -/

/-- The next answer to a draw, when one is pending and lies in the range (00_scope.md R12). -/
theorem drawRange_pending (lo hi v : Nat) (rest : List Word) (k : Nat) (h1 : lo ≤ v) (h2 : v ≤ hi) (hv : v < 2 ^ 64) :
    (Entropy.mk (BitVec.ofNat 64 v :: rest) k).drawRange lo hi = (v, ⟨rest, k⟩) := by
  simp only [Entropy.drawRange, Entropy.raw, BitVec.toNat_ofNat]
  rw [Nat.mod_eq_of_lt hv, intoRange_self _ _ _ h1 h2]

theorem witnessRounds_succ (n d s rounds drawn : Nat) (e : Entropy) :
    witnessRounds n d s (rounds + 1) drawn e =
      if witnessAccepts n d s (e.drawRange 2 (n - 2)).1 then
        witnessRounds n d s rounds (drawn + 1) (e.drawRange 2 (n - 2)).2
      else ⟨false, drawn + 1, (e.drawRange 2 (n - 2)).2⟩ := rfl

/-- The witness rounds draw at most one witness a round, and all of them when the verdict is true. -/
theorem witnessRounds_drawn (n d s rounds drawn : Nat) (e : Entropy) :
    drawn ≤ (witnessRounds n d s rounds drawn e).drawn ∧ (witnessRounds n d s rounds drawn e).drawn ≤ drawn + rounds ∧
      ((witnessRounds n d s rounds drawn e).probablePrime = true →
        (witnessRounds n d s rounds drawn e).drawn = drawn + rounds) := by
  induction rounds generalizing drawn e with
  | zero => simp [witnessRounds]
  | succ rounds ih =>
    rw [witnessRounds_succ]
    split
    · obtain ⟨h1, h2, h3⟩ := ih (drawn + 1) (e.drawRange 2 (n - 2)).2
      exact ⟨by omega, by omega, fun h => by rw [h3 h]; omega⟩
    · exact ⟨by simp, by simp, fun h => by cases h⟩

/-- A true verdict stands on one accepting witness of the range a round (41_primality.md R123). -/
theorem witnessRounds_true (n d s rounds drawn : Nat) (e : Entropy) (hn : 4 ≤ n)
    (h : (witnessRounds n d s rounds drawn e).probablePrime = true) :
    ∃ ws : List Nat, ws.length = rounds ∧ ∀ a ∈ ws, 2 ≤ a ∧ a ≤ n - 2 ∧ witnessAccepts n d s a = true := by
  induction rounds generalizing drawn e with
  | zero => exact ⟨[], rfl, fun a ha => nomatch ha⟩
  | succ rounds ih =>
    rw [witnessRounds_succ] at h
    split at h
    · rename_i ha
      obtain ⟨ws, h1, h2⟩ := ih _ _ h
      obtain ⟨r1, r2⟩ := drawRange_mem 2 (n - 2) e (by omega)
      refine ⟨(e.drawRange 2 (n - 2)).1 :: ws, by rw [List.length_cons, h1], fun b hb => ?_⟩
      rcases List.mem_cons.mp hb with rfl | hb
      · exact ⟨r1, r2, ha⟩
      · exact h2 b hb
    · cases h

/-- If every witness of the range accepts, the verdict is true. -/
theorem witnessRounds_all (n d s rounds drawn : Nat) (e : Entropy) (hn : 4 ≤ n)
    (h : ∀ a, 2 ≤ a → a ≤ n - 2 → witnessAccepts n d s a = true) :
    (witnessRounds n d s rounds drawn e).probablePrime = true := by
  induction rounds generalizing drawn e with
  | zero => rfl
  | succ rounds ih =>
    obtain ⟨h1, h2⟩ := drawRange_mem 2 (n - 2) e (by omega)
    rw [witnessRounds_succ, if_pos (h _ h1 h2)]
    exact ih _ _

/-- Pending answers in the range that all accept are used up, one a round. -/
theorem witnessRounds_pending (n d s more drawn k : Nat) (ws : List Nat) (rest : List Word) (hb : n < 2 ^ 64)
    (h : ∀ a ∈ ws, 2 ≤ a ∧ a ≤ n - 2 ∧ witnessAccepts n d s a = true) :
    witnessRounds n d s (ws.length + more) drawn ⟨ws.map (BitVec.ofNat 64) ++ rest, k⟩ =
      witnessRounds n d s more (drawn + ws.length) ⟨rest, k⟩ := by
  induction ws generalizing drawn with
  | nil => simp
  | cons a ws ih =>
    obtain ⟨h1, h2, h3⟩ := h a List.mem_cons_self
    rw [List.length_cons, show ws.length + 1 + more = ws.length + more + 1 by omega, witnessRounds_succ, List.map_cons,
      List.cons_append, drawRange_pending _ _ _ _ _ h1 h2 (by omega), if_pos h3,
      ih _ fun b hb => h b (List.mem_cons_of_mem _ hb)]
    congr 1; omega

/-- What a test draws at most (41_primality.md R124). -/
theorem millerRabin_drawn (n rounds : Nat) (e : Entropy) : (millerRabin n rounds e).drawn ≤ rounds := by
  rw [millerRabin]
  split
  · exact Nat.zero_le _
  · split
    · exact Nat.zero_le _
    · have := (witnessRounds_drawn n (splitTwos 64 (n - 1) 0).1 (splitTwos 64 (n - 1) 0).2 rounds 0 e).2.1
      omega

/-- A number below 2 is composite, with no draw (41_primality.md R121). -/
theorem millerRabin_small (n rounds : Nat) (e : Entropy) (h : n < 2) : millerRabin n rounds e = ⟨false, 0, e⟩ := if_pos h

/-- A test that trial division decides draws nothing (41_primality.md R121). -/
theorem millerRabin_decided (n rounds : Nat) (e : Entropy) (verdict : Bool) (h2 : 2 ≤ n)
    (h : trialDivision n Config.smallPrimes = some verdict) : millerRabin n rounds e = ⟨verdict, 0, e⟩ := by
  rw [millerRabin, if_neg (by omega), h]

theorem smallPrimes_prime : ∀ p ∈ Config.smallPrimes, p.Prime := by
  intro p hp
  simp only [Config.smallPrimes, List.mem_cons, List.not_mem_nil, or_false] at hp
  rcases hp with rfl | rfl | rfl | rfl | rfl | rfl | rfl | rfl | rfl | rfl <;> norm_num

theorem millerRabin_smallPrime (n rounds : Nat) (e : Entropy) (h : n ∈ Config.smallPrimes) :
    millerRabin n rounds e = ⟨true, 0, e⟩ := by
  have hp := smallPrimes_prime n h
  refine millerRabin_decided _ _ _ _ hp.two_le (trialDivision_mem n _ ?_ ?_ h)
  · intro q hq
    have := smallPrimes_prime q hq
    exact ⟨this.one_lt.ne', this.pos.ne'⟩
  · intro q hq h0
    exact ((Nat.prime_dvd_prime_iff_eq (smallPrimes_prime q hq) hp).mp (Nat.dvd_of_mod_eq_zero h0)).symm

theorem millerRabin_multiple (n rounds : Nat) (e : Entropy) (h2 : 2 ≤ n) (hn : n ∉ Config.smallPrimes)
    (h : ∃ p ∈ Config.smallPrimes, p ∣ n) : millerRabin n rounds e = ⟨false, 0, e⟩ := by
  obtain ⟨p, hp, hd⟩ := h
  exact millerRabin_decided _ _ _ _ h2 (trialDivision_multiple n _ hn ⟨p, hp, Nat.mod_eq_zero_of_dvd hd⟩)

/-- A test that trial division does not decide is its witness rounds (41_primality.md R121, R122, R123). -/
theorem millerRabin_undecided (n rounds d k : Nat) (e : Entropy) (h2 : 2 ≤ n) (hb : n < 2 ^ 64)
    (h : ∀ p ∈ Config.smallPrimes, ¬p ∣ n) (hd : n - 1 = d * 2 ^ k) (ho : d % 2 = 1) :
    millerRabin n rounds e = witnessRounds n d k rounds 0 e := by
  have ht : trialDivision n Config.smallPrimes = none :=
    (trialDivision_none_iff n _ fun p hp => (smallPrimes_prime p hp).pos.ne').mpr
      fun p hp h0 => h p hp (Nat.dvd_of_mod_eq_zero h0)
  rw [millerRabin, if_neg (by omega), ht]
  simp only [splitTwos_word (n - 1) d k (by omega) (by omega) hd ho]

/-- A test whose pending witnesses all accept is passed and uses them up (41_primality.md R123). -/
theorem millerRabin_passes (n d k c : Nat) (ws : List Nat) (rest : List Word) (h2 : 2 ≤ n) (hb : n < 2 ^ 64)
    (h : ∀ p ∈ Config.smallPrimes, ¬p ∣ n) (hd : n - 1 = d * 2 ^ k) (ho : d % 2 = 1)
    (hw : ∀ a ∈ ws, 2 ≤ a ∧ a ≤ n - 2 ∧ witnessAccepts n d k a = true) :
    millerRabin n ws.length ⟨ws.map (BitVec.ofNat 64) ++ rest, c⟩ = ⟨true, ws.length, ⟨rest, c⟩⟩ := by
  rw [millerRabin_undecided n ws.length d k _ h2 hb h hd ho]
  simpa [witnessRounds] using witnessRounds_pending n d k 0 0 c ws rest hb hw

/-- A test whose pending witnesses all accept up to one that does not is failed and draws no further (41_primality.md
R123). -/
theorem millerRabin_fails (n rounds d k c bad : Nat) (good : List Nat) (rest : List Word) (h2 : 2 ≤ n) (hb : n < 2 ^ 64)
    (h : ∀ p ∈ Config.smallPrimes, ¬p ∣ n) (hd : n - 1 = d * 2 ^ k) (ho : d % 2 = 1)
    (hw : ∀ a ∈ good, 2 ≤ a ∧ a ≤ n - 2 ∧ witnessAccepts n d k a = true) (b1 : 2 ≤ bad) (b2 : bad ≤ n - 2)
    (hna : witnessAccepts n d k bad = false) (hl : good.length < rounds) :
    millerRabin n rounds ⟨(good ++ [bad]).map (BitVec.ofNat 64) ++ rest, c⟩ = ⟨false, good.length + 1, ⟨rest, c⟩⟩ := by
  obtain ⟨m, rfl⟩ : ∃ m, rounds = good.length + (m + 1) := ⟨rounds - good.length - 1, by omega⟩
  rw [millerRabin_undecided n _ d k _ h2 hb h hd ho, List.map_append, List.append_assoc,
    witnessRounds_pending n d k (m + 1) 0 c good _ hb hw, witnessRounds_succ]
  simp only [List.map_cons, List.map_nil, List.cons_append, List.nil_append]
  rw [drawRange_pending _ _ _ _ _ b1 b2 (by omega), hna, if_neg Bool.false_ne_true, Nat.zero_add]

/-- Every number from 1 on is odd times a power of 2. -/
theorem exists_odd_split (n : Nat) (h : 1 ≤ n) (hb : n < 2 ^ 64) : ∃ d k, n = d * 2 ^ k ∧ d % 2 = 1 := by
  obtain ⟨k, -, h2, h3⟩ := splitTwos_spec 64 n 0 h hb
  exact ⟨_, k, h2, h3⟩

/-- An odd number has at least one factor 2 below it. -/
theorem split_pos (n d k : Nat) (h : ¬2 ∣ n) (h2 : 2 ≤ n) (hd : n - 1 = d * 2 ^ k) (ho : d % 2 = 1) : 1 ≤ k := by
  rcases Nat.eq_zero_or_pos k with rfl | hk
  · rw [Nat.pow_zero, Nat.mul_one] at hd; omega
  · exact hk

/-- A true verdict on a number beyond the small primes: none of them divides it, and each round's witness accepted it. -/
theorem millerRabin_true (n rounds : Nat) (e : Entropy) (hn : 31 ≤ n) (hb : n < 2 ^ 64)
    (h : (millerRabin n rounds e).probablePrime = true) :
    (∀ p ∈ Config.smallPrimes, ¬p ∣ n) ∧ ∃ d k ws, n - 1 = d * 2 ^ k ∧ d % 2 = 1 ∧ 1 ≤ k ∧ List.length ws = rounds ∧
      ∀ a ∈ ws, 2 ≤ a ∧ a ≤ n - 2 ∧ witnessAccepts n d k a = true := by
  have hs : n ∉ Config.smallPrimes := by
    intro hc
    have : ∀ p ∈ Config.smallPrimes, p ≤ 29 := by decide
    have := this _ hc
    omega
  have hnd : ∀ p ∈ Config.smallPrimes, ¬p ∣ n := fun p hp hd => by
    rw [millerRabin_multiple n rounds e (by omega) hs ⟨p, hp, hd⟩] at h
    cases h
  obtain ⟨d, k, hd, ho⟩ := exists_odd_split (n - 1) (by omega) (by omega)
  rw [millerRabin_undecided n rounds d k e (by omega) hb hnd hd ho] at h
  obtain ⟨ws, h1, h2⟩ := witnessRounds_true n d k rounds 0 e (by omega) h
  exact ⟨hnd, d, k, ws, hd, ho, split_pos n d k (hnd 2 (by decide)) (by omega) hd ho, h1, h2⟩

/-- A prime is never rejected (41_primality.md R125 (a)). -/
theorem millerRabin_prime (n rounds : Nat) (e : Entropy) (hp : n.Prime) (hb : n < 2 ^ 64) :
    (millerRabin n rounds e).probablePrime = true ∧
      (millerRabin n rounds e).drawn = if n ∈ Config.smallPrimes then 0 else rounds := by
  by_cases hs : n ∈ Config.smallPrimes
  · rw [millerRabin_smallPrime n rounds e hs, if_pos hs]; exact ⟨rfl, rfl⟩
  · have h2 := hp.two_le
    have hnd : ∀ p ∈ Config.smallPrimes, ¬p ∣ n := fun p hpm hd =>
      hs ((Nat.prime_dvd_prime_iff_eq (smallPrimes_prime p hpm) hp).mp hd ▸ hpm)
    obtain ⟨d, k, hd, ho⟩ := exists_odd_split (n - 1) (by omega) (by omega)
    have h2' := hnd 2 (by decide)
    have hn4 : 4 ≤ n := by
      have : n ≠ 3 := fun h => hs (h ▸ by decide)
      have : n ≠ 2 := fun h => hs (h ▸ by decide)
      omega
    have hk := split_pos n d k h2' h2 hd ho
    rw [millerRabin_undecided n rounds d k e h2 hb hnd hd ho, if_neg hs]
    have hv := witnessRounds_all n d k rounds 0 e hn4 fun a h1 h3 => witnessAccepts_prime n d k a hp hk hd h1 h3
    exact ⟨hv, by rw [(witnessRounds_drawn n d k rounds 0 e).2.2 hv, Nat.zero_add]⟩

/-! ### Candidates and the search -/

theorem or_mask_odd (v : Nat) : (v ||| 0x80000001) % 2 = 1 := by
  simp

theorem or_mask_lower (v : Nat) : 0x80000001 ≤ v ||| 0x80000001 := Nat.right_le_or

theorem or_mask_upper (v : Nat) (h : v < 2 ^ 32) : v ||| 0x80000001 < 2 ^ 32 := Nat.or_lt_two_pow h (by decide)

/-- A candidate: 3 modulo 4, between 2^31 + 3 and 2^32 - 1 (41_primality.md R126). -/
theorem primeCandidate_spec (v : Nat) (h : v < 2 ^ 32) :
    primeCandidate v % 4 = 3 ∧ 2 ^ 31 + 3 ≤ primeCandidate v ∧ primeCandidate v ≤ 2 ^ 32 - 1 := by
  have h1 := or_mask_odd v
  have h2 := or_mask_lower v
  have h3 := or_mask_upper v h
  rw [primeCandidate]; omega

theorem draw32_lt (e : Entropy) : e.draw32.1 < 2 ^ 32 := by
  have := (drawRange_mem 0 0xFFFFFFFF e (by omega)).2
  rw [Entropy.draw32]; omega

theorem primeSearch_succ (rounds left k : Nat) (e : Entropy) :
    primeSearch rounds (left + 1) k e =
      if (millerRabin (primeCandidate e.draw32.1) rounds e.draw32.2).probablePrime then
        ⟨some (primeCandidate e.draw32.1, k + 1), (millerRabin (primeCandidate e.draw32.1) rounds e.draw32.2).entropy⟩
      else primeSearch rounds left (k + 1) (millerRabin (primeCandidate e.draw32.1) rounds e.draw32.2).entropy := by
  rw [primeSearch]
  cases h : millerRabin (primeCandidate e.draw32.1) rounds e.draw32.2 with
  | mk verdict drawn e' =>
    simp only [h]
    cases verdict <;> rfl

/-- What a search finds (41_primality.md R127). -/
theorem primeSearch_found (rounds left k : Nat) (e : Entropy) (c j : Nat)
    (h : (primeSearch rounds left k e).found = some (c, j)) :
    (∃ v, v < 2 ^ 32 ∧ c = primeCandidate v) ∧ (∃ e', (millerRabin c rounds e').probablePrime = true) ∧ k + 1 ≤ j ∧
      j ≤ k + left := by
  induction left generalizing k e with
  | zero => cases h
  | succ left ih =>
    rw [primeSearch_succ] at h
    split at h
    · rename_i hv
      obtain ⟨rfl, rfl⟩ := Prod.mk.inj (Option.some.inj h)
      exact ⟨⟨_, draw32_lt e, rfl⟩, ⟨_, hv⟩, le_rfl, by omega⟩
    · obtain ⟨h1, h2, h3, h4⟩ := ih _ _ h
      exact ⟨h1, h2, by omega, by omega⟩

theorem primeCandidate_not_small (v : Nat) (h : v < 2 ^ 32) : primeCandidate v ∉ Config.smallPrimes := by
  have hc := (primeCandidate_spec v h).2.1
  have : ∀ p ∈ Config.smallPrimes, p ≤ 29 := by decide
  intro hm
  have := this _ hm
  omega

/-- The next answer to a `Draw32`, when one is pending (00_scope.md R12). -/
theorem draw32_pending (v : Nat) (rest : List Word) (k : Nat) (h : v < 2 ^ 32) :
    (Entropy.mk (BitVec.ofNat 64 v :: rest) k).draw32 = (v, ⟨rest, k⟩) :=
  drawRange_pending _ _ _ _ _ (by omega) (by omega) (by omega)

/-- Attempts that fail, each an answer to `Draw32` and the answers its test draws, are used up one after another
(41_primality.md R127). -/
theorem primeSearch_fails (rounds left k c : Nat) (attempts : List (Nat × List Nat)) (rest : List Word)
    (h : ∀ t ∈ attempts, t.1 < 2 ^ 32 ∧ ∀ tail, millerRabin (primeCandidate t.1) rounds
      ⟨t.2.map (BitVec.ofNat 64) ++ tail, c⟩ = ⟨false, t.2.length, ⟨tail, c⟩⟩) :
    primeSearch rounds (attempts.length + left) k
        ⟨(attempts.flatMap fun t => t.1 :: t.2).map (BitVec.ofNat 64) ++ rest, c⟩ =
      primeSearch rounds left (k + attempts.length) ⟨rest, c⟩ := by
  induction attempts generalizing k with
  | nil => simp
  | cons t attempts ih =>
    obtain ⟨hv, hf⟩ := h t List.mem_cons_self
    rw [List.length_cons, show attempts.length + 1 + left = attempts.length + left + 1 by omega, primeSearch_succ,
      List.flatMap_cons, List.cons_append, List.map_cons, List.cons_append, draw32_pending _ _ _ hv, List.map_append,
      List.append_assoc, hf, if_neg Bool.false_ne_true, ih _ fun u hu => h u (List.mem_cons_of_mem _ hu)]
    congr 1; omega

end Sys2Proof.Machine
end

