-- ==== Sys2Proof/Laws/Exec.lean ====
section
/-! SUPPORT. How `exec` ends, said once for all commands, and the invariant under the shared ends and under a change of the parts it does not read. -/

namespace Sys2Proof.Machine

/-- A command whose checks all pass answers its effect and the completion. -/
theorem conclude_next {fault : Option FaultInfo} (h : fault = none) (effect : State → State) (s : State) :
    (.next (conclude fault effect s) : Host.Outcome State Fault Refusal) = .next (complete (effect s)) := by
  rw [h]; rfl

/-- The two ends of a command: the fault its checks name, or its effect and the completion. -/
theorem conclude_next_cases {fault : Option FaultInfo} {effect : State → State} {s t : State}
    (h : (.next (conclude fault effect s) : Host.Outcome State Fault Refusal) = .next t) :
    (∃ f, fault = some f ∧ t = takeFault f s) ∨ (fault = none ∧ t = complete (effect s)) := by
  have ht := Host.Outcome.next.inj h
  rcases conclude_cases fault effect s with ⟨f, h1, h2⟩ | ⟨h1, h2⟩
  · exact .inl ⟨f, h1, by rw [← ht, h2]⟩
  · exact .inr ⟨h1, by rw [← ht, h2]⟩

/-- `PRIME_GEN` by the result of its search (41_primality.md R127). -/
theorem execPrimeGen_cases (rounds : Nat) (s : State) :
    exec (.primeGen rounds) s = .next
      (match (primeGenSearch rounds s).found with
        | some (c, k) => complete { s with
            res0 := BitVec.ofNat 64 c, res1 := BitVec.ofNat 64 k, entropy := (primeGenSearch rounds s).entropy }
        | none => takeFault ⟨.primeGenerationFailure, s.pgMaxIter.toNat, rounds⟩
            { s with entropy := (primeGenSearch rounds s).entropy }) := by
  show Host.Outcome.next (conclude (primeGenFault rounds s (primeGenSearch rounds s).found)
    (primeGenEffect (primeGenSearch rounds s).found) { s with entropy := (primeGenSearch rounds s).entropy }) = _
  cases (primeGenSearch rounds s).found <;> rfl

/-- Every command ends in a fault taken, in the state but for draws consumed, or in the completion of an effect that leaves
`ERR` and `CMD` alone. -/
theorem exec_ends {i : Instr} {s t : State} (h : exec i s = .next t) :
    (∃ f e, t = takeFault f { s with entropy := e }) ∨ ∃ u, t = complete u ∧ u.err = s.err ∧ u.cmd = s.cmd := by
  have key : ∀ (fault : Option FaultInfo) (effect : State → State), (effect s).err = s.err → (effect s).cmd = s.cmd →
      (.next (conclude fault effect s) : Host.Outcome State Fault Refusal) = .next t →
      (∃ f e, t = takeFault f { s with entropy := e }) ∨ ∃ u, t = complete u ∧ u.err = s.err ∧ u.cmd = s.cmd := by
    intro fault effect h1 h2 h3
    rcases conclude_next_cases h3 with ⟨f, -, h4⟩ | ⟨-, h4⟩
    · exact .inl ⟨f, s.entropy, h4⟩
    · exact .inr ⟨_, h4, h1, h2⟩
  cases i with
  | enc7 => exact key _ _ rfl rfl h
  | dec7 => exact key _ _ rfl rfl h
  | modexp => exact key _ _ rfl rfl h
  | mrTest rounds => exact key _ _ rfl rfl h
  | lcgNext => exact key _ _ rfl rfl h
  | lcgGenn n => exact key _ _ rfl rfl h
  | bbsInit => exact key _ _ rfl rfl h
  | bbsNext => exact key _ _ rfl rfl h
  | bbsOut count => exact key _ _ rfl rfl h
  | primeGen rounds =>
    rw [execPrimeGen_cases] at h
    have ht := (Host.Outcome.next.inj h).symm
    cases hf : (primeGenSearch rounds s).found with
    | none => rw [hf] at ht; exact .inl ⟨_, _, ht⟩
    | some p => rw [hf] at ht; exact .inr ⟨_, ht, rfl, rfl⟩
  | gamma audit =>
    refine key _ _ ?_ ?_ h <;> simp only [gammaEffect, gammaWrites] <;> split <;> (try rfl) <;> split <;> rfl

/-- A fault taken from a sound running state leaves a sound state, whatever draws it consumed. -/
theorem State.Inv.takeFault {s : State} {f : FaultInfo} {e : Entropy} (hi : s.Inv) (hd : s.done = false)
    (hf : f.cause ≠ .none) : (takeFault f { s with entropy := e }).Inv where
  size := hi.size
  memory := hi.memory
  inside := hi.inside
  doneErr := by simp [hd]
  running := by simp
  instanceValid := hi.instanceValid
  noInstance := hi.noInstance
  causeNamed := fun _ => hf

/-- The completion of an effect that keeps the parameter and `ERR`, and leaves memory and instance sound. -/
theorem State.Inv.complete {s u : State} (hi : s.Inv) (he : s.err = false) (hcfg : u.cfg = s.cfg) (hw : u.lram.wf)
    (hin : ∀ c ∈ u.lram, c.1 < s.cfg.lramBytes) (herr : u.err = s.err)
    (hx : (u.bbsValid = true → BbsInstance u.bbsN.toNat u.bbsX.toNat) ∧
      (u.bbsValid = false → u.bbsN = 0#64 ∧ u.bbsX = 0#64)) : (complete u).Inv where
  size := by rw [complete_cfg, hcfg]; exact hi.size
  memory := hw
  inside := by simpa [hcfg] using hin
  doneErr := by simp [herr, he]
  running := by simp
  instanceValid := hx.1
  noInstance := hx.2
  causeNamed := by simp [herr, he]

/-- The invariant does not read the host agent, the counters and the inputs. -/
theorem State.Inv.of_agents {s : State} (hi : s.Inv) (host : HostAgent) (busyReads : Nat) (turns : List Turn) :
    ({ s with host := host, busyReads := busyReads, turns := turns } : State).Inv :=
  ⟨hi.size, hi.memory, hi.inside, hi.doneErr, hi.running, hi.instanceValid, hi.noInstance, hi.causeNamed⟩

end Sys2Proof.Machine
end

