-- ==== Sys2Proof/Laws/PerInstr.lean ====
section
/-! SUPPORT. One lemma per command: the word it is issued with is the word its rule writes out. -/

namespace Sys2Proof.Laws.TableRow

/-- The word of each command, as its own rule gives it: 40_codec.md R101, R102; 41_primality.md R120, R124, R127; 42_lcg.md
R151, R152; 43_bbs.md R172, R173, R174; 44_gamma.md R190. -/
def ruleWord : Instr → Nat
  | .enc7 => 0x10000000
  | .dec7 => 0x11000000
  | .modexp => 0x20000000
  | .mrTest rounds => 0x21000000 + rounds
  | .primeGen rounds => 0x22000000 + rounds
  | .lcgNext => 0x30000000
  | .lcgGenn n => 0x31000000 + n
  | .bbsInit => 0x40000000
  | .bbsNext => 0x41000000
  | .bbsOut count => 0x42000000 + count
  | .gamma audit => if audit then 0x50010000 else 0x50000000

/-- A well-formed command is issued with the word its rule writes out. -/
def Statement (i : Instr) : Prop := i.wellFormed = true → (encode i).toNat = ruleWord i

theorem counted {n : Nat} (i : Instr) (hc : i.count = some n) (opc : Nat) (he : encodeFields i = (opc, 0, n)) (ho : opc < 256)
    (h : i.wellFormed = true) : (encode i).toNat = opc * 0x1000000 + n := by
  have hn : n < 65536 := by simpa [Instr.wellFormed, hc] using h
  rw [encode, he, BitVec.toNat_ofNat]
  show (opc * 0x1000000 + 0 * 0x10000 + n) % 2 ^ 32 = _
  omega

theorem enc7 : Statement .enc7 := fun _ => rfl

theorem dec7 : Statement .dec7 := fun _ => rfl

theorem modexp : Statement .modexp := fun _ => rfl

theorem mrTest (rounds : Nat) : Statement (.mrTest rounds) := counted (.mrTest rounds) rfl 0x21 rfl (by decide)

theorem primeGen (rounds : Nat) : Statement (.primeGen rounds) := counted (.primeGen rounds) rfl 0x22 rfl (by decide)

theorem lcgNext : Statement .lcgNext := fun _ => rfl

theorem lcgGenn (n : Nat) : Statement (.lcgGenn n) := counted (.lcgGenn n) rfl 0x31 rfl (by decide)

theorem bbsInit : Statement .bbsInit := fun _ => rfl

theorem bbsNext : Statement .bbsNext := fun _ => rfl

theorem bbsOut (count : Nat) : Statement (.bbsOut count) := counted (.bbsOut count) rfl 0x42 rfl (by decide)

theorem gamma (audit : Bool) : Statement (.gamma audit) := by
  intro _
  cases audit <;> rfl

end Sys2Proof.Laws.TableRow
end

