-- ==== Sys2Proof/Laws/Port.lean ====
section
/-! SUPPORT. The register port, index by index: which register and access class an index reaches, and the bits of `STATUS` and `CTRL` (10_state.md R22 to R31, R46). -/

namespace Sys2Proof.Machine

theorem State.busy_of_idle {s : State} (h : s.phase = .idle) : s.busy = false := by rw [State.busy, h]; rfl

theorem State.busy_of_busy {s : State} {w : Word} (h : s.phase = .busy w) : s.busy = true := by rw [State.busy, h]; rfl

/-- A write to a mapped index, by the access class of its register. -/
theorem regWrite_of_regAt {index : Byte} {r : Reg} (h : regAt index = some r) (v : Word) (s : State) :
    regWrite index v s =
      match regAccess r with
      | .readOnly => s
      | .control => writeCtrl v s
      | .writeOneToClear => clearStatus v s
      | .command => issue v s
      | .operand => if s.busy then dropWrite s else writeOperand r v s := by
  cases hr : regAccess r <;> simp only [regWrite, h, hr]

/-- A read of a mapped index. -/
theorem regRead_of_regAt {index : Byte} {r : Reg} (h : regAt index = some r) (s : State) :
    regRead index s = if s.busy && unspecifiedWhileBusy r then unspecifiedRead s else (s.reg r, s) := by
  simp only [regRead, h]

/-- A read that the phase does not make unspecified gives what the register holds (10_state.md R48). -/
theorem regRead_specified {index : Byte} {r : Reg} (h : regAt index = some r)
    {s : State} (hs : s.busy = false ∨ unspecifiedWhileBusy r = false) : regRead index s = (s.reg r, s) := by
  rw [regRead_of_regAt h, if_neg]
  rcases hs with hs | hs <;> simp [hs]

theorem regWrite_ctrl (v : Word) (s : State) : regWrite 0x01#8 v s = writeCtrl v s :=
  regWrite_of_regAt (r := .ctrl) (by decide) v s

theorem regWrite_status (v : Word) (s : State) : regWrite 0x02#8 v s = clearStatus v s :=
  regWrite_of_regAt (r := .status) (by decide) v s

theorem regWrite_cmd (v : Word) (s : State) : regWrite 0x03#8 v s = issue v s :=
  regWrite_of_regAt (r := .cmd) (by decide) v s

theorem regRead_status (s : State) : regRead 0x02#8 s = (s.statusWord, s) :=
  regRead_specified (r := .status) (by decide) (.inr rfl)

theorem regRead_ctrl (s : State) : regRead 0x01#8 s = (s.ctrlWord, s) :=
  regRead_specified (r := .ctrl) (by decide) (.inr rfl)

theorem regWrite_operand_idle {index : Byte} {r : Reg} (h : regAt index = some r) (hr : regAccess r = .operand)
    (v : Word) {s : State} (hs : s.busy = false) : regWrite index v s = writeOperand r v s := by
  rw [regWrite_of_regAt h, hr]; simp [hs]

theorem regWrite_operand_busy {index : Byte} {r : Reg} (h : regAt index = some r) (hr : regAccess r = .operand)
    (v : Word) {s : State} (hs : s.busy = true) : regWrite index v s = dropWrite s := by
  rw [regWrite_of_regAt h, hr]; simp [hs]

/-- Two indices that reach one register are the same index (10_state.md R23). -/
theorem regAt_unique {i j : Byte} {r : Reg} (hi : regAt i = some r) (hj : regAt j = some r) : i = j := by
  have h1 := List.find?_some hi
  have h2 := List.find?_some hj
  simp only [beq_iff_eq] at h1 h2
  exact BitVec.eq_of_toNat_eq (by rw [← h1, ← h2])

/-- The write of an operand register changes no other register but through the register itself. -/
theorem writeOperand_reg_other {r r' : Reg} (v : Word) (s : State) (h : r' ≠ r) :
    (writeOperand r v s).reg r' = s.reg r' := by
  cases r <;> cases r' <;> first | rfl | exact absurd rfl h

/-- The bits of `STATUS` (10_state.md R26). -/
theorem statusWord_bits (s : State) :
    s.statusWord.getLsbD 0 = s.busy ∧ s.statusWord.getLsbD 1 = s.done ∧ s.statusWord.getLsbD 2 = s.err ∧
      s.statusWord.getLsbD 3 = s.drop ∧ s.statusWord.getLsbD 4 = s.bbsValid ∧ s.statusWord.getLsbD 5 = s.irq ∧
      ∀ k, 6 ≤ k → s.statusWord.getLsbD k = false := by
  unfold State.statusWord
  have low : ∀ a b c d e f : Bool,
      let w := BitVec.ofNat 64
        (a.toNat + 2 * b.toNat + 4 * c.toNat + 8 * d.toNat + 16 * e.toNat + 32 * f.toNat)
      w.getLsbD 0 = a ∧ w.getLsbD 1 = b ∧ w.getLsbD 2 = c ∧ w.getLsbD 3 = d ∧ w.getLsbD 4 = e ∧ w.getLsbD 5 = f := by
    decide
  obtain ⟨h0, h1, h2, h3, h4, h5⟩ := low s.busy s.done s.err s.drop s.bbsValid s.irq
  refine ⟨h0, h1, h2, h3, h4, h5, fun k hk => ?_⟩
  have b : ∀ x : Bool, x.toNat ≤ 1 := Bool.toNat_le
  have := b s.busy; have := b s.done; have := b s.err; have := b s.drop; have := b s.bbsValid; have := b s.irq
  rw [BitVec.getLsbD_ofNat, Nat.testBit_lt_two_pow, Bool.and_false]
  calc _ < 2 ^ 6 := by omega
    _ ≤ 2 ^ k := Nat.pow_le_pow_right (by norm_num) hk

end Sys2Proof.Machine
end

