-- ==== Sys2Proof/Laws/Step.lean ====
section
/-! SUPPORT. What one step can do, said once: the step's cases, and those of the host's operations. -/

namespace Sys2Proof.Machine

/-- Whoever moved, this is all a step can have done. -/
theorem step_cases {s t : State} (h : step s = .next t) :
    (nextTurn s = .host ∧ t = hostStep (popTurn s)) ∨
    (nextTurn s = .reset ∧ t = unitReset (popTurn s)) ∨
    (nextTurn s = .sequencer ∧ s.phase = .idle ∧ t = popTurn s) ∨
    (∃ v i, nextTurn s = .sequencer ∧ s.phase = .busy v ∧ decode v = .ok i ∧ exec i (popTurn s) = .next t) ∨
    (∃ v e, nextTurn s = .sequencer ∧ s.phase = .busy v ∧ decode v = .error e ∧
      t = takeFault (illegalCommand v e) (popTurn s)) := by
  unfold step at h
  cases hT : nextTurn s with
  | host =>
    rw [hT] at h
    exact .inl ⟨rfl, (Host.Outcome.next.inj h).symm⟩
  | reset =>
    rw [hT] at h
    exact .inr (.inl ⟨rfl, (Host.Outcome.next.inj h).symm⟩)
  | sequencer =>
    rw [hT] at h
    simp only [runTurn, sequencerStep, popTurn_phase] at h
    cases hp : s.phase with
    | idle =>
      rw [hp] at h
      exact .inr (.inr (.inl ⟨rfl, rfl, (Host.Outcome.next.inj h).symm⟩))
    | busy v =>
      rw [hp] at h
      cases hd : decode v with
      | ok i =>
        simp only [hd] at h
        exact .inr (.inr (.inr (.inl ⟨v, i, rfl, rfl, hd, h⟩)))
      | error e =>
        simp only [hd] at h
        exact .inr (.inr (.inr (.inr ⟨v, e, rfl, rfl, hd, (Host.Outcome.next.inj h).symm⟩)))

/-- All a register write can do to the state. -/
theorem regWrite_cases (index : Byte) (v : Word) (s : State) :
    regWrite index v s = s ∨ regWrite index v s = writeCtrl v s ∨ regWrite index v s = clearStatus v s ∨
    (s.busy = false ∧ s.err = false ∧ regWrite index v s = accept v s) ∨
    ((s.busy = true ∨ s.err = true) ∧ regWrite index v s = dropWrite s) ∨
    (∃ r, s.busy = false ∧ regAccess r = .operand ∧ regWrite index v s = writeOperand r v s) := by
  rw [regWrite]
  cases regAt index with
  | none => exact .inl rfl
  | some r =>
    cases ha : regAccess r with
    | readOnly => exact .inl (by simp only [ha])
    | control => exact .inr (.inl (by simp only [ha]))
    | writeOneToClear => exact .inr (.inr (.inl (by simp only [ha])))
    | command =>
      simp only [ha, issue]
      cases hb : s.busy <;> cases he : s.err <;> simp
    | operand =>
      simp only [ha]
      cases hb : s.busy
      · exact .inr (.inr (.inr (.inr (.inr ⟨r, rfl, ha, rfl⟩))))
      · simp

/-- All a register read can do to the state. -/
theorem regRead_snd_cases (index : Byte) (s : State) :
    (regRead index s).2 = s ∨ (s.busy = true ∧ (regRead index s).2 = { s with busyReads := s.busyReads + 1 }) := by
  rw [regRead]
  cases regAt index with
  | none => exact .inl rfl
  | some r =>
    simp only
    split
    · rename_i h
      exact .inr ⟨(Bool.and_eq_true_iff.mp h).1, rfl⟩
    · exact .inl rfl

/-- All a byte read can do to the state. -/
theorem memRead8_snd_cases (a : Nat) (s : State) :
    (memRead8 a s).2 = s ∨ (s.busy = true ∧ (memRead8 a s).2 = { s with busyReads := s.busyReads + 1 }) := by
  rw [memRead8]
  split
  · rename_i h; exact .inr ⟨h, rfl⟩
  · split <;> exact .inl rfl

/-- All a byte write can do to the state. -/
theorem memWrite8_cases (a : Nat) (v : Word) (s : State) :
    memWrite8 a v s = s ∨ (s.busy = true ∧ memWrite8 a v s = dropWrite s) ∨
    (s.busy = false ∧ a < s.cfg.lramBytes ∧ memWrite8 a v s = s.writeBytes a [v.setWidth 8]) := by
  rw [memWrite8]
  split
  · rename_i h; exact .inr (.inl ⟨h, rfl⟩)
  · rename_i hb
    split
    · rename_i h; exact .inr (.inr ⟨by simpa using hb, h, rfl⟩)
    · exact .inl rfl

/-- A step of the host is one access through a port, after which only the host agent's own fields differ. -/
theorem hostStep_cases (s : State) :
    ∃ (u : State) (h : HostAgent), hostStep s = { u with host := h } ∧
      (u = s ∨ (∃ index v, u = regWrite index v s) ∨ (∃ index, u = (regRead index s).2) ∨
        (∃ a v, u = memWrite8 a v s) ∨ ∃ a, u = (memRead8 a s).2) := by
  rw [hostStep]
  cases s.host.program[s.host.pc]? with
  | none => exact ⟨s, s.host, rfl, .inl rfl⟩
  | some op =>
    cases op with
    | wr index v => exact ⟨_, _, rfl, .inr (.inl ⟨index, v, rfl⟩)⟩
    | rd index => exact ⟨(regRead index s).2, (hostOperation (.rd index) s).host, rfl, .inr (.inr (.inl ⟨index, rfl⟩))⟩
    | cmd i => exact ⟨_, _, rfl, .inr (.inl ⟨_, _, rfl⟩)⟩
    | mw8 a v => exact ⟨_, _, rfl, .inr (.inr (.inr (.inl ⟨a, v, rfl⟩)))⟩
    | mr8 a => exact ⟨(memRead8 a s).2, (hostOperation (.mr8 a) s).host, rfl, .inr (.inr (.inr (.inr ⟨a, rfl⟩)))⟩
    | brset index mask label =>
      exact ⟨(regRead index s).2, (hostOperation (.brset index mask label) s).host, rfl, .inr (.inr (.inl ⟨index, rfl⟩))⟩
    | brclr index mask label =>
      exact ⟨(regRead index s).2, (hostOperation (.brclr index mask label) s).host, rfl, .inr (.inr (.inl ⟨index, rfl⟩))⟩
    | halt => exact ⟨s, s.host, rfl, .inl rfl⟩

end Sys2Proof.Machine
end

