-- ==== Sys2Proof/Tests/Slice0.lean ====
section
/-! SUPPORT. The model's own tests: words decoded, ill-formed terms refused, one step of each command with values taken from 95_test_vectors.md and the command files, and a witness for the hypotheses of every statement. -/

namespace Sys2Proof.Tests

open Sys2Proof.Machine Sys2Proof.Claims

/-- The next state of an outcome. -/
def nextOf (o : Host.Outcome State Fault Refusal) : Option State :=
  match o with
  | .next s => some s
  | .fault _ => none
  | .refused _ => none

/-- The key `K32` of 95_test_vectors.md. -/
def k32 : State := { State.reset with lcgA := 1664525#64, lcgB := 1013904223#64, bbsP := 4294967291#64, bbsQ := 4294967279#64 }

/-- The key `K77` of 95_test_vectors.md. -/
def k77 : State := { State.reset with lcgA := 1664525#64, lcgB := 1013904223#64, bbsP := 7#64, bbsQ := 11#64, bbsSeed := 5#64 }

/-- The instance of vector 2.5.1. -/
def x25 : State := { k77 with bbsN := 77#64, bbsX := 25#64, bbsValid := true }

/-- A unit that runs the accepted value `v`, the given turn coming next. -/
def running (v : Word) (turn : Turn) : State := { State.reset with phase := .busy v, cmd := v, turns := [turn] }

/-- A unit with an unacknowledged fault. -/
def erred : State := { State.reset with err := true, cause := .paramRange, info0 := 0x18#64, turns := [.host] }

/-- "Hi" at 0 (vector 2.2.1). -/
def hi : State := { State.reset with lram := [(0, 0x48#8), (1, 0x69#8)], len := 2#64, dst := 0x100#64 }

/-- The bits of "Hi" at 0x100 (vector 2.2.9). -/
def hiBits : State :=
  { State.reset with lram := [(0x100, 0x91#8), (0x101, 0xA4#8)], src := 0x100#64, len := 14#64, dst := 0x200#64 }

/-! ### Words, written out from 30_encoding.md R81 and R84 -/

theorem test_decode_enc7 : decode 0b00010000000000000000000000000000#64 = .ok .enc7 := by decide
theorem test_decode_dec7 : decode 0b00010001000000000000000000000000#64 = .ok .dec7 := by decide
theorem test_decode_modexp : decode 0b00100000000000000000000000000000#64 = .ok .modexp := by decide
theorem test_decode_mrTest : decode 0b00100001000000000000000000001010#64 = .ok (.mrTest 10) := by decide
theorem test_decode_primeGen : decode 0b00100010000000001111111111111111#64 = .ok (.primeGen 65535) := by decide
theorem test_decode_lcgNext : decode 0b00110000000000000000000000000000#64 = .ok .lcgNext := by decide
theorem test_decode_lcgGenn : decode 0b00110001000000000000000000000111#64 = .ok (.lcgGenn 7) := by decide
theorem test_decode_bbsInit : decode 0b01000000000000000000000000000000#64 = .ok .bbsInit := by decide
theorem test_decode_bbsNext : decode 0b01000001000000000000000000000000#64 = .ok .bbsNext := by decide
theorem test_decode_bbsOut : decode 0b01000010000000001000000000000001#64 = .ok (.bbsOut 0x8001) := by decide
theorem test_decode_gamma : decode 0b01010000000000000000000000000000#64 = .ok (.gamma false) := by decide
theorem test_decode_gamma_audit : decode 0b01010000000000010000000000000000#64 = .ok (.gamma true) := by decide

/-- The fault rows of 95_test_vectors.md section 2.1. -/
theorem test_decode_illegal :
    decode 0x12000000#64 = .error .opcode ∧ decode 0x10000001#64 = .error .reservedField ∧
      decode 0x21010005#64 = .error .reservedField ∧ decode 0x50010001#64 = .error .reservedField ∧
      decode 0x110000000#64 = .error .highHalf := by decide

/-- The first four bytes of the table row are the whole instruction. -/
theorem test_decodeTableWord :
    decodeTableWord 32 0x31000007 = some (.lcgGenn 7) ∧ decodeTableWord 32 0x51000000 = none := by decide

/-- A placed word is what the very next step runs. -/
theorem test_withFetchWord : step (State.reset.withFetchWord 32 0x41000000) =
    exec .bbsNext (popTurn (State.reset.withFetchWord 32 0x41000000)) := by rfl

/-! ### Ill-formed terms -/

theorem test_count_refused : Instr.wellFormed (.mrTest 65536) = false ∧ Instr.wellFormed (.primeGen 65536) = false ∧
    Instr.wellFormed (.lcgGenn 65536) = false ∧ Instr.wellFormed (.bbsOut 65536) = false := by decide
theorem test_label_refused : HostOp.wellFormed 3 (.brset 0x02#8 1#64 4) = false ∧
    HostOp.wellFormed 3 (.brclr 0x02#8 1#64 4) = false ∧ HostOp.wellFormed 3 (.brclr 0x02#8 1#64 3) = true := by decide
theorem test_nested_command_refused : HostOp.wellFormed 1 (.cmd (.lcgGenn 65536)) = false ∧
    hostProgramWellFormed [.halt, .cmd (.lcgGenn 65536)] = false := by decide

/-! ### One step of each command, values from 95_test_vectors.md section 2 -/

theorem test_enc7 : (nextOf (exec .enc7 hi)).map (fun t => (t.readBytes 0x100 2, t.res0)) =
    some ([0x91#8, 0xA4#8], 14#64) := by decide +kernel
theorem test_enc7_symbol : (nextOf (exec .enc7 { hi with lram := [(0, 0x41#8), (1, 0xC8#8)] })).map
    (fun t => (t.cause, t.info0, t.info1, t.statusWord)) = some (.outOfRangeSymbol, 200#64, 1#64, 4#64) := by decide +kernel
theorem test_dec7 : (nextOf (exec .dec7 { hiBits with lram := [(0x100, 0x91#8), (0x101, 0xA7#8)] })).map
    (fun t => (t.readBytes 0x200 2, t.res0)) = some ([0x48#8, 0x69#8], 2#64) := by decide +kernel
theorem test_dec7_length : (nextOf (exec .dec7 { hiBits with len := 13#64 })).map (fun t => (t.cause, t.info0, t.info1)) =
    some (.misalignedLength, 13#64, 0#64) := by decide
theorem test_modexp : (nextOf (exec .modexp { State.reset with
    mxBase := 0xFFFFFFFFFFFFFFFF#64, mxExp := 0xFFFFFFFFFFFFFFFF#64, mxMod := 0xFFFFFFFFFFFFFFC5#64 })).map (·.res0) =
    some 4959809447704153900#64 := by decide +kernel
theorem test_modexp_one : (nextOf (exec .modexp { State.reset with mxBase := 5#64, mxExp := 3#64, mxMod := 1#64 })).map
    (·.res0) = some 0#64 := by decide
theorem test_mrTest_liars : (nextOf (exec (.mrTest 4) { State.reset with
    mxMod := 3215031751#64, entropy := ⟨[2#64, 3#64, 5#64, 7#64], 0⟩ })).map (fun t => (t.res0, t.res1)) =
    some (1#64, 4#64) := by decide +kernel
theorem test_mrTest_witness : (nextOf (exec (.mrTest 2) { State.reset with
    mxMod := 3215031751#64, entropy := ⟨[2#64, 11#64], 0⟩ })).map (fun t => (t.res0, t.res1)) = some (0#64, 2#64) := by
  decide +kernel
theorem test_primeGen : (nextOf (exec (.primeGen 1) { State.reset with
    entropy := ⟨[0#64, 2#64, 4#64, 8#64, 2#64], 0⟩ })).map (fun t => (t.res0, t.res1, t.entropy)) =
    some (2147483659#64, 3#64, ⟨[], 0⟩) := by decide +kernel
theorem test_primeGen_bound : (nextOf (exec (.primeGen 1) { State.reset with
    pgMaxIter := 2#64, entropy := ⟨[0#64, 2#64, 4#64, 8#64], 0⟩ })).map (fun t => (t.cause, t.info0, t.info1, t.entropy)) =
    some (.primeGenerationFailure, 2#64, 1#64, ⟨[8#64], 0⟩) := by decide +kernel
theorem test_lcgNext : (nextOf (exec .lcgNext k32)).map (fun t => (t.res0, t.lcgS)) = some (979807#64, 979807#20) := by
  decide
theorem test_lcgNext_negative : (nextOf (exec .lcgNext { State.reset with
    lcgA := 0xFFFFFFFFFFFFFFFD#64, lcgB := 7#64, lcgS := 5#20 })).map (·.res0) = some 1048568#64 := by decide
theorem test_lcgGenn : (nextOf (exec (.lcgGenn 7) { k32 with dst := 65508#64 })).map
    (fun t => (t.readBytes 65528 8, t.res0, t.lcgS)) =
    some ([0x00#8, 0x0E#8, 0xC6#8, 0x86#8, 0x00#8, 0x0E#8, 0x6C#8, 0x2D#8], 4554340#64, 945197#20) := by decide +kernel
theorem test_lcgGenn_region : (nextOf (exec (.lcgGenn 7) { k32 with dst := 65509#64 })).map
    (fun t => (t.cause, t.info0, t.info1, t.lcgS)) = some (.addressRange, 65509#64, 28#64, 0#20) := by decide
theorem test_bbsInit : (nextOf (exec .bbsInit { k77 with bbsSeed := 21#64 })).map (fun t => (t.bbsN, t.bbsX, t.res0)) =
    some (77#64, 67#64, 2#64) := by decide
theorem test_bbsInit_width : (nextOf (exec .bbsInit { k77 with bbsP := 0x100000000#64, bbsQ := 0#64 })).map
    (fun t => (t.cause, t.info0, t.info1, t.bbsValid)) = some (.paramRange, 0x18#64, 0x100000000#64, false) := by decide
theorem test_bbsNext : (nextOf (exec .bbsNext x25)).map (fun t => (t.bbsX, t.res0)) = some (9#64, 9#64) := by decide
theorem test_bbsNext_reset : (nextOf (exec .bbsNext State.reset)).map (fun t => (t.cause, t.info0, t.info1, t.err)) =
    some (.bbsNotInitialized, 0#64, 0#64, true) := by decide
theorem test_bbsOut : (nextOf (exec (.bbsOut 5) x25)).map (fun t => (t.readBytes 23 9, t.bbsX, t.res0)) =
    some ([16#8, 0#8, 0#8, 0#8, 0#8, 0#8, 0#8, 0#8, 25#8], 9#64, 9#64) := by decide +kernel
theorem test_bbsOut_region : (nextOf (exec (.bbsOut 1) { x25 with dst := 65535#64 })).map
    (fun t => (t.cause, t.info0, t.info1, t.bbsX)) = some (.addressRange, 65535#64, 8#64, 25#64) := by decide
theorem test_gamma : (nextOf (exec (.gamma true) { k32 with len := 700#64, adst := 0x100#64 })).map
    (fun t => (t.lcgS, t.bbsX, t.res0, t.res1, t.readBytes 84 4)) =
    some (0x7A34C#20, 0x7A34C775240A66DC#64, 3#64, 3985773#64, [0x14#8, 0xD6#8, 0x3F#8, 0x00#8]) := by decide +kernel
theorem test_gamma_small : (nextOf (exec (.gamma false) { k32 with len := 14#64, dst := 0x200#64 })).map
    (fun t => (t.readBytes 0x200 2, t.lcgS, t.res1)) = some ([0x97#8, 0xBC#8], 0xAA436#20, 4554340#64) := by decide +kernel

/-! ### Witnesses: concrete states and operands that meet the hypotheses of each statement, clause by clause -/

/-- A running unit meets the invariant. -/
theorem running_inv (v : Word) (turn : Turn) : (running v turn).Inv where
  size := (by decide : Config.standard.wf)
  memory := List.Pairwise.nil
  inside := fun c hc => nomatch hc
  doneErr := fun h => nomatch h.1
  running := fun w hw => ⟨Phase.busy.inj hw, rfl, rfl⟩
  instanceValid := fun h => nomatch h
  noInstance := fun _ => ⟨rfl, rfl⟩
  causeNamed := fun h => nomatch h

/-- A unit with an unacknowledged fault meets the invariant. -/
theorem erred_inv : erred.Inv where
  size := by decide
  memory := by decide
  inside := fun c hc => nomatch hc
  doneErr := by decide
  running := fun w hw => nomatch hw
  instanceValid := fun h => nomatch h
  noInstance := fun _ => ⟨rfl, rfl⟩
  causeNamed := by decide

/-- A unit with a valid instance meets the invariant. -/
theorem x25_inv : x25.Inv where
  size := by decide
  memory := by decide
  inside := fun c hc => nomatch hc
  doneErr := by decide
  running := fun w hw => nomatch hw
  instanceValid := fun _ => ⟨by decide, by decide, by decide, ⟨5, by decide⟩, by decide⟩
  noInstance := fun h => nomatch h
  causeNamed := fun h => nomatch h

/-- A unit without an instance, idle and without a fault, meets the invariant. -/
theorem k77_inv : k77.Inv where
  size := by decide
  memory := by decide
  inside := fun c hc => nomatch hc
  doneErr := by decide
  running := fun w hw => nomatch hw
  instanceValid := fun h => nomatch h
  noInstance := fun _ => ⟨rfl, rfl⟩
  causeNamed := fun h => nomatch h

theorem witness_DecodeOfEncodedCommand :
    Instr.wellFormed (.mrTest 65535) = true ∧ Instr.wellFormed (.bbsOut 0) = true ∧ Instr.wellFormed (.gamma true) = true := by
  decide

theorem witness_LegalValueIsOneCommand : decode 0x2200FFFF#64 = .ok (.primeGen 65535) ∧ decode 0x50010000#64 = .ok (.gamma true) := by
  decide

/-- Each clause of `IllegalReasons` at the edge of its range. -/
theorem witness_IllegalReasons :
    2 ^ 32 ≤ (0x100000000#64).toNat ∧
    ((0xFFFFFFFF#64).toNat < 2 ^ 32 ∧ (0xFFFFFFFF#64).toNat / 2 ^ 24 ∉ zOpcodes ∧
      (0xFFFFFFFF#64).toNat / 2 ^ 24 ∉ iOpcodes ∧ (0xFFFFFFFF#64).toNat / 2 ^ 24 ≠ 0x50) ∧
    ((0x10000001#64).toNat < 2 ^ 32 ∧ (0x10000001#64).toNat / 2 ^ 24 ∈ zOpcodes ∧ (0x10000001#64).toNat % 2 ^ 24 ≠ 0) ∧
    ((0x42010000#64).toNat < 2 ^ 32 ∧ (0x42010000#64).toNat / 2 ^ 24 ∈ iOpcodes ∧
      (0x42010000#64).toNat / 2 ^ 16 % 2 ^ 8 ≠ 0) ∧
    ((0x50010001#64).toNat < 2 ^ 32 ∧ (0x50010001#64).toNat / 2 ^ 24 = 0x50 ∧ (0x50010001#64).toNat % 2 ^ 24 ≠ 0 ∧
      (0x50010001#64).toNat % 2 ^ 24 ≠ 2 ^ 16) := by decide

/-- Also meets the hypotheses of `HighHalfIsIllegal`, `EveryCommandEnds` and `StepKeepsInvariant`. -/
theorem witness_StepRunsDecodedCommand :
    (running 0x30000000#64 .sequencer).phase = .busy 0x30000000#64 ∧ nextTurn (running 0x30000000#64 .sequencer) = .sequencer ∧
      decode 0x30000000#64 = .ok .lcgNext ∧ decode 0x51000000#64 = .error .opcode ∧
      ({ running 0x30000000#64 .sequencer with turns := [] } : State).turns = [] := by decide

theorem witness_HighHalfIsIllegal :
    (running 0x130000000#64 .sequencer).phase = .busy 0x130000000#64 ∧
      nextTurn (running 0x130000000#64 .sequencer) = .sequencer ∧ (0x130000000#64).toNat / 2 ^ 32 ≠ 0 := by decide

theorem witness_EveryCommandEnds :
    (running 0x41000000#64 .sequencer).Inv ∧ (running 0x41000000#64 .sequencer).phase = .busy 0x41000000#64 ∧
      nextTurn (running 0x41000000#64 .sequencer) = .sequencer ∧ ∃ t, step (running 0x41000000#64 .sequencer) = .next t :=
  ⟨running_inv _ _, rfl, rfl, _, rfl⟩

theorem witness_HostLeavesRunningCommandAlone :
    (running 0x30000000#64 .host).Inv ∧ (running 0x30000000#64 .host).phase = .busy 0x30000000#64 ∧
      nextTurn (running 0x30000000#64 .host) = .host := ⟨running_inv _ _, rfl, rfl⟩

theorem witness_ResetInputResetsUnit : nextTurn (running 0x30000000#64 .reset) = .reset := by decide

theorem witness_StepKeepsInvariant : x25.Inv ∧ (∃ t, step x25 = .next t) ∧ erred.Inv ∧ ∃ t, step erred = .next t :=
  ⟨x25_inv, ⟨_, rfl⟩, erred_inv, _, rfl⟩

/-- Both clauses: a valid instance over a step, and a step that makes one. -/
theorem witness_BbsValidOnlyResetClears :
    (x25.bbsValid = true ∧ nextTurn x25 ≠ .reset ∧ ∃ t, step x25 = .next t) ∧
    ∃ t, step { k77 with phase := .busy 0x40000000#64, turns := [.sequencer] } = .next t ∧ k77.bbsValid = false ∧
      t.bbsValid = true := ⟨⟨rfl, by decide, _, rfl⟩, _, rfl, rfl, rfl⟩

theorem witness_UnacknowledgedFaultIsKept :
    erred.Inv ∧ erred.err = true ∧ nextTurn erred ≠ .reset ∧ ∃ t, step erred = .next t :=
  ⟨erred_inv, rfl, by decide, _, rfl⟩

theorem witness_OnlyFaultsWriteFaultRegisters :
    (running 0#64 .sequencer).Inv ∧ nextTurn (running 0#64 .sequencer) ≠ .reset ∧
      ∃ t, step (running 0#64 .sequencer) = .next t ∧ t.cause ≠ (running 0#64 .sequencer).cause :=
  ⟨running_inv _ _, by decide, _, rfl, by decide⟩

/-- Accepted, with a legal and with an illegal value; dropped for either reason. -/
theorem witness_CommandWriteAcceptedOrDropped :
    (State.reset.phase = .idle ∧ State.reset.err = false ∧ decode 0x30000000#64 = .ok .lcgNext ∧
      decode 0x100000000#64 = .error .highHalf) ∧
    ((running 0x30000000#64 .host).phase ≠ .idle) ∧ erred.err = true := by decide

theorem witness_CommandRegisterHoldsLastAccepted :
    (State.reset.phase = .idle ∧ State.reset.err = false) ∧ nextTurn State.reset ≠ .reset ∧ ∃ t, step State.reset = .next t :=
  ⟨⟨rfl, rfl⟩, by decide, _, rfl⟩

/-- The first and the last of the listed indices, busy and idle, and another index. -/
theorem witness_OperandWriteDroppedWhileBusy :
    0x09#8 ∈ operandIndices ∧ 0x23#8 ∈ operandIndices ∧ 0x13#8 ∈ operandIndices ∧
      (running 0x30000000#64 .host).phase = .busy 0x30000000#64 ∧ State.reset.phase = .idle ∧ 0x22#8 ≠ 0x23#8 := by decide

theorem witness_LcgStateIsWarl :
    State.reset.phase = .idle ∧ 0x23#8 ∈ operandIndices ∧ 0x23#8 ≠ 0x13#8 ∧ 2 ^ 20 ≤ (0x100000#64).toNat := by decide

theorem witness_ReadOnlyRegistersIgnoreWrites :
    0x00#8 ∈ readOnlyIndices ∧ 0x1B#8 ∈ readOnlyIndices ∧ regAccess .bbsX = .readOnly ∧
      (nextOf (exec .lcgNext k32)).isSome = true := by decide

theorem witness_UnmappedAndConstantRegisters :
    0x0D#8 ∉ mappedIndices ∧ 0x24#8 ∉ mappedIndices ∧ 0xFF#8 ∉ mappedIndices := by decide

theorem witness_ReadsHaveNoSideEffects :
    State.reset.phase = .idle ∧ (running 0x30000000#64 .host).phase = .busy 0x30000000#64 ∧ 0x04#8 ∈ unspecifiedIndices ∧
      0x1B#8 ∈ unspecifiedIndices ∧ 0x03#8 ∉ unspecifiedIndices ∧ 0x03#8 ≠ 0x02#8 := by decide

/-- The last byte of the LRAM and the first address beyond it. -/
theorem witness_HostBytePort :
    State.reset.phase = .idle ∧ 65535 < State.reset.cfg.lramBytes ∧ State.reset.cfg.lramBytes ≤ 65536 ∧
      (running 0x30000000#64 .host).phase = .busy 0x30000000#64 := by decide

/-- A host about to run the one operation of its program. -/
def hostAt (op : HostOp) : State := { State.reset with host := ⟨[op], 0, 0#64⟩ }

theorem witness_HostProgramRuns :
    nextTurn State.reset = .host ∧ State.reset.host.program[State.reset.host.pc]? = none ∧
      ∀ op, nextTurn (hostAt op) = .host ∧ (hostAt op).host.program[(hostAt op).host.pc]? = some op :=
  ⟨rfl, rfl, fun _ => ⟨rfl, rfl⟩⟩

/-- The ends of the ranges: a range of one value at the top of the words, and the largest 32-bit answer. -/
theorem witness_EntropyAnswersAreFree :
    2 ^ 64 - 1 ≤ 2 ^ 64 - 1 ∧ 2 ^ 64 - 1 < 2 ^ 64 ∧ 0xFFFFFFFF < 2 ^ 32 := by decide

theorem hi_src : InLram hi hi.src.toNat hi.len.toNat := .inr (by decide)

theorem hi_dst : InLram hi hi.dst.toNat (bytesFor (7 * hi.len.toNat)) := .inr (by decide)

theorem hi_symbols : ∀ i, i < hi.len.toNat → (hi.readByte (hi.src.toNat + i)).toNat ≤ 127 := by decide

theorem witness_Enc7WritesSymbolCodes :
    hi.cfg.wf ∧ InLram hi hi.src.toNat hi.len.toNat ∧ InLram hi hi.dst.toNat (bytesFor (7 * hi.len.toNat)) ∧
      ∀ i, i < hi.len.toNat → (hi.readByte (hi.src.toNat + i)).toNat ≤ 127 :=
  ⟨by decide, hi_src, hi_dst, hi_symbols⟩

/-- Vectors 2.2.16, 2.2.17 and 2.2.14. -/
theorem witness_Enc7FaultsInOrder :
    ¬InLram { hi with src := 65535#64 } 65535 2 ∧
    (InLram hi 0 2 ∧ ¬InLram { hi with dst := 65535#64 } 65535 (bytesFor 14)) ∧
    (1 < hi.len.toNat ∧ 127 < (({ hi with lram := [(0, 0x41#8), (1, 0xC8#8)] } : State).readByte 1).toNat ∧
      ∀ j, j < 1 → (({ hi with lram := [(0, 0x41#8), (1, 0xC8#8)] } : State).readByte j).toNat ≤ 127) := by
  unfold InLram; decide

theorem witness_Dec7WritesSymbols :
    hiBits.len.toNat % 7 = 0 ∧ InLram hiBits hiBits.src.toNat (bytesFor hiBits.len.toNat) ∧
      InLram hiBits hiBits.dst.toNat (hiBits.len.toNat / 7) := ⟨by decide, .inr (by decide), .inr (by decide)⟩

theorem witness_Dec7FaultsInOrder :
    13 % 7 ≠ 0 ∧ (14 % 7 = 0 ∧ ¬InLram { hiBits with src := 65535#64 } 65535 (bytesFor 14)) ∧
      (InLram hiBits 0x100 (bytesFor 14) ∧ ¬InLram { hiBits with dst := 65535#64 } 65535 (14 / 7)) := by
  unfold InLram; decide

theorem witness_CodecRoundTrips :
    (hi.cfg.wf ∧ InLram hi hi.src.toNat hi.len.toNat ∧ InLram hi hi.dst.toNat (bytesFor (7 * hi.len.toNat)) ∧
      InLram hi (0x200#64).toNat hi.len.toNat ∧ ∀ i, i < hi.len.toNat → (hi.readByte (hi.src.toNat + i)).toNat ≤ 127) ∧
    (hiBits.cfg.wf ∧ hiBits.len.toNat % 7 = 0 ∧ InLram hiBits hiBits.src.toNat (bytesFor hiBits.len.toNat) ∧
      InLram hiBits hiBits.dst.toNat (hiBits.len.toNat / 7) ∧
      InLram hiBits (0x300#64).toNat (bytesFor hiBits.len.toNat)) :=
  ⟨⟨by decide, hi_src, hi_dst, .inr (by decide), hi_symbols⟩, by decide, by decide, .inr (by decide), .inr (by decide),
    .inr (by decide)⟩

/-- A unit that tests the candidate `n` with the given answers pending. -/
def testing (n : Word) (answers : List Word) : State := { State.reset with mxMod := n, entropy := ⟨answers, 0⟩ }

theorem witness_ModexpIsPowerModulo : (testing 1#64 []).mxMod.toNat ≠ 0 ∧ (testing 0#64 []).mxMod.toNat = 0 := by decide

/-- n = 1; n = 2 and n = 29; n = 961 has no small factor, n = 91 has. -/
theorem witness_MrTestTrialDivision :
    (testing 1#64 []).mxMod.toNat < 2 ∧ (testing 2#64 []).mxMod.toNat ∈ smallPrimes ∧
      (testing 29#64 []).mxMod.toNat ∈ smallPrimes ∧ (2 ≤ (testing 91#64 []).mxMod.toNat ∧
        (testing 91#64 []).mxMod.toNat ∉ smallPrimes ∧ ∃ p ∈ smallPrimes, p ∣ (testing 91#64 []).mxMod.toNat) := by decide

/-- n = 31 with its least and its largest witness; n = 961 with its least and its largest rejecting witness. -/
theorem witness_MrTestFollowsWitnesses :
    ((∀ p ∈ smallPrimes, ¬p ∣ 31) ∧ 31 - 1 = 15 * 2 ^ 1 ∧ 15 % 2 = 1 ∧
      (∀ a ∈ [2, 29], 2 ≤ a ∧ a ≤ 31 - 2 ∧ Accepts 31 15 1 a) ∧
      (testing 31#64 [2#64, 29#64]).entropy.queue = [2, 29].map (BitVec.ofNat 64) ++ []) ∧
    ((∀ p ∈ smallPrimes, ¬p ∣ 961) ∧ 961 - 1 = 15 * 2 ^ 6 ∧ ¬Accepts 961 15 6 2 ∧ ¬Accepts 961 15 6 959 ∧
      (testing 961#64 [959#64]).entropy.queue = [].map (BitVec.ofNat 64) ++ BitVec.ofNat 64 959 :: []) := by
  unfold Accepts; decide +kernel

theorem witness_MrTestCompletes : 65535 < 65536 ∧ 0 < 65536 := by decide

theorem witness_PrimeIsNeverRejected :
    65535 < 65536 ∧ Nat.Prime (testing 31#64 []).mxMod.toNat ∧ Nat.Prime (testing 2#64 []).mxMod.toNat :=
  ⟨by decide, show Nat.Prime 31 by norm_num, show Nat.Prime 2 by norm_num⟩

theorem pow_eq_one_iff_powmod (p a e : Nat) (h1 : 1 < p) : (a : ZMod p) ^ e = 1 ↔ powmod a e p = 1 := by
  have h := ZMod.natCast_eq_natCast_iff' (a ^ e) 1 p
  rw [Nat.mod_eq_of_lt h1, ← powmod_eq] at h
  push_cast at h
  exact h

/-- 2147483659 is prime: 2 is a primitive root, and 2147483658 = 2·3·149·2402107. -/
theorem prime_2147483659 : Nat.Prime 2147483659 := by
  refine lucas_primality 2147483659 ((2 : Nat) : ZMod 2147483659) ?_ fun q hq hd => ?_
  · exact (pow_eq_one_iff_powmod _ _ _ (by norm_num)).mpr (by decide +kernel)
  · have hf : 2147483659 - 1 = 2 * 3 * 149 * 2402107 := by norm_num
    rw [hf] at hd
    have eqs : ∀ r, Nat.Prime r → q ∣ r → q = r := fun r hr h => (Nat.prime_dvd_prime_iff_eq hq hr).mp h
    have hcase : q = 2 ∨ q = 3 ∨ q = 149 ∨ q = 2402107 := by
      rcases (Nat.Prime.dvd_mul hq).mp hd with hd | hd
      · rcases (Nat.Prime.dvd_mul hq).mp hd with hd | hd
        · rcases (Nat.Prime.dvd_mul hq).mp hd with hd | hd
          · exact .inl (eqs 2 (by norm_num) hd)
          · exact .inr (.inl (eqs 3 (by norm_num) hd))
        · exact .inr (.inr (.inl (eqs 149 (by norm_num) hd)))
      · exact .inr (.inr (.inr (eqs 2402107 (by norm_num) hd)))
    rcases hcase with rfl | rfl | rfl | rfl <;>
      exact fun h => absurd ((pow_eq_one_iff_powmod _ _ _ (by norm_num)).mp h) (by decide +kernel)

theorem accepts_of_powmod {n d s a : Nat} (hs : 1 ≤ s) : Accepts n d s a ↔ witnessAccepts n d s a = true :=
  (witnessAccepts_iff n d s a hs).symm

/-- The attempts of the example of 41_primality.md R127: answer 0 gives 2147483651, which witness 2 rejects, and answer 4 a
multiple of 5. -/
def exampleAttempts : List Attempt := [(0, [2]), (4, [])]

theorem example_fails : AllFail 1 exampleAttempts := by
  intro t ht
  simp only [exampleAttempts, List.mem_cons, List.not_mem_nil, or_false] at ht
  rcases ht with rfl | rfl
  · refine ⟨by decide, .inr ⟨by decide, by decide, 1073741825, 1, [], 2, by decide, by decide, rfl, fun _ h => (nomatch h),
      by decide, by decide, ?_⟩⟩
    rw [accepts_of_powmod le_rfl]; decide +kernel
  · exact ⟨by decide, .inl ⟨⟨5, by decide, by decide⟩, rfl⟩⟩

/-- That example: answer 8 gives the prime 2147483659, which witness 2 accepts; and no rounds, where even the composite
2147483651 passes. -/
theorem witness_PrimeGenAcceptsFirstPassing :
    AllFail 1 exampleAttempts ∧ exampleAttempts.length < State.reset.pgMaxIter.toNat ∧
      ({ State.reset with entropy := ⟨[0#64, 2#64, 4#64, 8#64, 2#64], 0⟩ } : State).entropy.queue =
        (answersOf exampleAttempts ++ 8 :: [2]).map (BitVec.ofNat 64) ++ [] ∧
      candidate 8 = 2147483659 ∧ Nat.Prime 2147483659 ∧ Passes (candidate 8) 1 [2] ∧ Passes (candidate 0) 0 [] := by
  refine ⟨example_fails, by decide, by decide, by decide, prime_2147483659,
    ⟨by decide, rfl, 1073741829, 1, by decide, by decide, fun a ha => ?_⟩,
    ⟨by decide, rfl, 1073741825, 1, by decide, by decide, fun a ha => (nomatch ha)⟩⟩
  rw [List.mem_singleton.mp ha]
  exact ⟨by decide, by decide, (accepts_of_powmod le_rfl).mpr (by decide +kernel)⟩

theorem witness_PrimeGenOutcomes : 65535 < 65536 ∧ 0 < 65536 := by decide

/-- Vector 2.3 with a bound of 1 and the answers 0, 2; and a bound of 0. -/
theorem witness_PrimeGenExhausted :
    (AllFail 1 (exampleAttempts.take 1) ∧
      (exampleAttempts.take 1).length = ({ State.reset with pgMaxIter := 1#64 } : State).pgMaxIter.toNat ∧
      ({ State.reset with entropy := ⟨[0#64, 2#64], 0⟩ } : State).entropy.queue =
        (answersOf (exampleAttempts.take 1)).map (BitVec.ofNat 64) ++ []) ∧
    AllFail 1 [] ∧ ([] : List Attempt).length = ({ State.reset with pgMaxIter := 0#64 } : State).pgMaxIter.toNat :=
  ⟨⟨fun t ht => example_fails t (List.mem_of_mem_take ht), by decide, by decide⟩, fun _ ht => (nomatch ht), by decide⟩

/-- Integers of either sign and of any size. -/
theorem witness_LcgNextIsSourceDraw :
    ({ State.reset with lcgA := 0xFFFFFFFFFFFFFFFD#64 } : State).lcgA = BitVec.ofInt 64 (-3) ∧
      ({ State.reset with lcgB := 7#64 } : State).lcgB = BitVec.ofInt 64 (2 ^ 64 + 7) ∧
      ({ State.reset with lcgS := 0xFFFFF#20 } : State).lcgS = BitVec.ofInt 20 (-1) := by decide

/-- A region that ends with the LRAM, and the largest count. -/
theorem witness_LcgGennWritesDraws :
    7 < 65536 ∧ InLram { k32 with dst := 65508#64 } (65508#64).toNat (4 * 7) ∧ 65535 < 65536 ∧ InLram k32 0 (4 * 0) :=
  ⟨by decide, .inr (by decide), by decide, .inl rfl⟩

theorem k77_key : KeyLoaded k77 := ⟨by decide, by decide, by decide, by decide⟩

theorem witness_BbsInitConstructs : KeyLoaded k77 ∧ KeyLoaded { k77 with bbsP := 1#64, bbsQ := 0xFFFFFFFF#64 } :=
  ⟨k77_key, by decide, by decide, by decide, by decide⟩

theorem witness_BbsParameterFaults :
    (Instr.bbsInit = .bbsInit ∧ (∃ a, Instr.gamma true = .gamma a) ∧ ({ k77 with len := 1#64 } : State).len.toNat ≠ 0) ∧
    2 ^ 32 ≤ (0x100000000#64).toNat ∧ (0xFFFFFFFF#64).toNat < 2 ^ 32 ∧ (0#64).toNat = 0 ∧ 1 ≤ (1#64).toNat :=
  ⟨⟨rfl, ⟨true, rfl⟩, by decide⟩, by decide, by decide, by decide, by decide⟩

theorem witness_BbsNextSquares : (x25.Inv ∧ x25.bbsValid = true) ∧ (k77.Inv ∧ k77.bbsValid = false) :=
  ⟨⟨x25_inv, rfl⟩, k77_inv, rfl⟩

theorem witness_BbsOutWritesSquares :
    x25.Inv ∧ 5 < 65536 ∧ x25.bbsValid = true ∧ InLram x25 x25.dst.toNat (8 * 5) :=
  ⟨x25_inv, by decide, rfl, .inr (by decide)⟩

/-- One byte beyond the last region that fits. -/
theorem witness_WordRegionFaults :
    7 < 65536 ∧ ¬InLram { k32 with dst := 65509#64 } 65509 (4 * 7) ∧ k77.bbsValid = false ∧ x25.bbsValid = true ∧
      ¬InLram { x25 with dst := 65529#64 } 65529 (8 * 1) := by
  unfold InLram; decide

theorem witness_GammaZeroLength : State.reset.len.toNat = 0 := by decide

/-- `K77` with a length, a gamma region and an audit region. -/
def g77 (len dst adst : Word) : State := { k77 with len := len, dst := dst, adst := adst }

/-- Vectors 2.6.10 and 2.6.11, with `K77`. -/
theorem witness_GammaRegionFaults :
    (KeyLoaded (g77 524289#64 0#64 0#64) ∧ ¬InLram (g77 524289#64 0#64 0#64) 0 (bytesFor 524289)) ∧
    (KeyLoaded (g77 700#64 0#64 65417#64) ∧ InLram (g77 700#64 0#64 65417#64) 0 (bytesFor 700) ∧
      ¬InLram (g77 700#64 0#64 65417#64) 65417 (40 * roundsFor 700)) := by
  unfold KeyLoaded InLram; decide

/-- The gamma of vectors 2.6.7 and 2.6.8: every round of `K77` has the outputs 23, 67, 23, 67, 23 and the feedback 0. -/
theorem k77_run (rounds : Nat) :
    KeystreamRun 1664525 1013904223 77 0 rounds (fun _ => 0) (fun i => if i % 5 % 2 = 0 then 23 else 67) := by
  have repair : IsRepair 77 (lcgSum 1664525 1013904223 0 7) 2 := ⟨by decide +kernel, by decide +kernel⟩
  refine ⟨rfl, fun r _ => ⟨⟨2, repair, fun j hj => ?_⟩, ?_⟩⟩
  · have e : (5 * r + j) % 5 = j := by omega
    simp only [e]
    have all : ∀ j, j < 5 → (if j % 2 = 0 then 23 else 67) =
        (lcgSum 1664525 1013904223 0 7 + 2) ^ 2 ^ (j + 2) % 77 := by decide +kernel
    exact all j hj
  · have e : (5 * r + 4) % 5 = 4 := by omega
    simp [e]

theorem g77_run (len dst adst : Word) : ∃ st y, RunOf (g77 len dst adst) st y := ⟨_, _, k77_run _⟩

theorem g77_ready (audit : Bool) (len dst adst : Word) (h0 : len.toNat ≠ 0)
    (h1 : dst.toNat + bytesFor len.toNat ≤ 65536) (h2 : adst.toNat + 40 * roundsFor len.toNat ≤ 65536) :
    GammaReady audit (g77 len dst adst) := ⟨h0, k77_key, .inr h1, fun _ => .inr h2⟩

/-- Also meets the hypotheses of `GammaEndState` and `GammaIsDeterministic`: one bit, regions that end with the LRAM. -/
theorem witness_GammaWritesKeystream :
    GammaReady true (g77 1#64 65535#64 65496#64) ∧ ∃ st y, RunOf (g77 1#64 65535#64 65496#64) st y :=
  ⟨g77_ready _ _ _ _ (by decide) (by decide) (by decide), g77_run _ _ _⟩

theorem witness_GammaEndState : GammaReady false (g77 10#64 0#64 0#64) ∧ ∃ st y, RunOf (g77 10#64 0#64 0#64) st y :=
  ⟨g77_ready _ _ _ _ (by decide) (by decide) (by decide), g77_run _ _ _⟩

/-- Two whole rounds, the gamma region directly before the audit region. -/
theorem witness_GammaBytesAreOutputs :
    (g77 640#64 0#64 80#64).len.toNat % 8 = 0 ∧ (∃ st y, RunOf (g77 640#64 0#64 80#64) st y) ∧
      GammaReady false (g77 640#64 0#64 80#64) ∧ GammaReady true (g77 640#64 0#64 80#64) ∧
      (g77 640#64 0#64 80#64).len.toNat % 320 = 0 ∧
      (g77 640#64 0#64 80#64).dst.toNat + (g77 640#64 0#64 80#64).len.toNat / 8 ≤ (g77 640#64 0#64 80#64).adst.toNat ∧
      OutsideAudit (g77 640#64 0#64 80#64) ((g77 640#64 0#64 80#64).dst.toNat + 79) :=
  ⟨by decide, g77_run _ _ _, g77_ready _ _ _ _ (by decide) (by decide) (by decide),
    g77_ready _ _ _ _ (by decide) (by decide) (by decide), by decide, by decide, .inl (by decide)⟩

theorem witness_GammaIsDeterministic :
    GammaReady true (g77 10#64 0#64 0x100#64) ∧ GammaReady true { g77 10#64 0x200#64 0#64 with lram := [(0, 1#8)] } ∧
      (g77 10#64 0#64 0x100#64).lcgS = (g77 10#64 0x200#64 0#64).lcgS :=
  ⟨g77_ready _ _ _ _ (by decide) (by decide) (by decide), ⟨by decide, k77_key, .inr (by decide), fun _ => .inr (by decide)⟩,
    rfl⟩

/-- One whole round and one bit, with disjoint regions and audit; and either part empty. -/
theorem witness_GammaSplitsAtWholeRounds :
    ((320#64).toNat % 320 = 0 ∧ (g77 321#64 0#64 0x100#64).len.toNat = (320#64).toNat + (1#64).toNat ∧
      GammaPasses true (g77 321#64 0#64 0x100#64) ∧
      GammaPasses true (request 320#64 0x200#64 0x300#64 (g77 321#64 0#64 0x100#64)) ∧
      GammaPasses true (request 1#64 0x400#64 65496#64 (g77 321#64 0#64 0x100#64)) ∧
      OutsideAudit (g77 321#64 0#64 0x100#64) ((0#64).toNat + 320 / 8)) ∧
    GammaPasses true (request 0#64 0#64 0#64 (g77 320#64 0#64 0x100#64)) :=
  ⟨⟨by decide, by decide, .inr (g77_ready _ _ _ _ (by decide) (by decide) (by decide)),
    .inr (g77_ready true 320#64 0x200#64 0x300#64 (by decide) (by decide) (by decide)),
    .inr (g77_ready true 1#64 0x400#64 65496#64 (by decide) (by decide) (by decide)), .inl (by decide)⟩, .inl rfl⟩

/-- A fault of the decoding and a fault of a command. -/
theorem witness_FaultsArePrecise :
    (∃ t, step (running 0#64 .sequencer) = .next t ∧ t.err = true ∧ t.cause = .illegalCommand) ∧
    (∃ t, step (running 0x41000000#64 .sequencer) = .next t ∧ t.err = true ∧ t.cause = .bbsNotInitialized) ∧
    (running 0#64 .sequencer).err = false ∧ nextTurn (running 0#64 .sequencer) = .sequencer :=
  ⟨⟨_, rfl, rfl, rfl⟩, ⟨_, rfl, rfl, rfl⟩, rfl, rfl⟩

/-- Also meets the hypothesis of `OnlyNamedCommandsWrite`; each of its clauses has a command that makes the change. -/
theorem witness_CommandsLeaveOperandsAlone :
    (∃ t, exec (.mrTest 1) (testing 31#64 [2#64]) = .next t ∧ t.entropy ≠ (testing 31#64 [2#64]).entropy) ∧
    (∃ t, exec (.lcgGenn 1) k32 = .next t ∧ t.lram ≠ k32.lram ∧ t.lcgS ≠ k32.lcgS) ∧
    ∃ t, exec .bbsInit k77 = .next t ∧ t.bbsX ≠ k77.bbsX ∧ t.bbsN ≠ k77.bbsN :=
  ⟨⟨_, rfl, by decide +kernel⟩, ⟨_, rfl, by decide +kernel, by decide +kernel⟩, _, rfl, by decide, by decide⟩

theorem witness_OnlyNamedCommandsWrite : ∃ t, exec .bbsInit k77 = .next t ∧ t.bbsX ≠ k77.bbsX := ⟨_, rfl, by decide⟩

end Sys2Proof.Tests
end

section
/-! ## The statements of 00_scope.md -/

namespace Sys2Proof.Scope

open Sys2Proof.Machine

/-- Settles O28. The range is `drawRange_mem`; a value `v` of the range is the answer when `v` is the next pending input
(`drawRange_pending`), as the bound on `hi` lets `v` fit an input word. `Draw32` is the draw of 32 bits. -/
theorem entropyAnswersAreFree : Obligations.EntropyAnswersAreFree := by
  intro lo hi hle hlt
  refine ⟨fun e => drawRange_mem lo hi e hle, fun v rest k hlo hhi => ?_, draw32_lt, draw32_pending⟩
  have hv : v < 2 ^ 64 := hhi.trans_lt hlt
  exact drawRange_pending lo hi v rest k hlo hhi hv

end Sys2Proof.Scope
end

section
/-! ## What one command does

One form for all eleven commands: the fault its checks name, the effect where none fails, and what each of the two leaves
alone. -/

namespace Sys2Proof.Machine

open Sys2Proof.Claims

/-- The fault the checks of a command name, if any (60_exceptions.md R216). -/
def commandFault (i : Instr) (s : State) : Option FaultInfo :=
  match i with
  | .enc7 => enc7Fault s
  | .dec7 => dec7Fault s
  | .modexp => modexpFault s
  | .mrTest _ => none
  | .primeGen rounds => primeGenFault rounds s (primeGenSearch rounds s).found
  | .lcgNext => none
  | .lcgGenn n => lcgGennFault n s
  | .bbsInit => bbsCheck s
  | .bbsNext => bbsInitialized s
  | .bbsOut count => bbsOutFault count s
  | .gamma audit => gammaFault audit s

/-- The state in which a command takes its fault: the draws of `PRIME_GEN` are consumed (60_exceptions.md R215). -/
def afterDraws (i : Instr) (s : State) : State :=
  match i with
  | .primeGen rounds => { s with entropy := (primeGenSearch rounds s).entropy }
  | _ => s

/-- The writes of a command that raises no fault, before the completion. -/
def commandEffect (i : Instr) (s : State) : State :=
  match i with
  | .enc7 => enc7Effect s
  | .dec7 => dec7Effect s
  | .modexp => modexpEffect s
  | .mrTest rounds => mrTestEffect rounds s
  | .primeGen rounds =>
    primeGenEffect (primeGenSearch rounds s).found { s with entropy := (primeGenSearch rounds s).entropy }
  | .lcgNext => lcgNextEffect s
  | .lcgGenn n => lcgGennEffect n s
  | .bbsInit => bbsInitEffect s
  | .bbsNext => bbsNextEffect s
  | .bbsOut count => bbsOutEffect count s
  | .gamma audit => gammaEffect audit s

/-- Every command is its checks and its effect, put together in one way. -/
theorem exec_eq_conclude (i : Instr) (s : State) :
    exec i s = .next (conclude (commandFault i s) (fun _ => commandEffect i s) (afterDraws i s)) := by
  cases i <;> rfl

/-- All a command can have done: taken the fault its checks name, or completed its effect. -/
theorem exec_cases {i : Instr} {s t : State} (h : exec i s = .next t) :
    (∃ f, commandFault i s = some f ∧ t = takeFault f (afterDraws i s)) ∨
      (commandFault i s = none ∧ t = complete (commandEffect i s)) := by
  rw [exec_eq_conclude] at h
  exact conclude_next_cases h

/-! ### What a command leaves alone -/

/-- The draws are all that a fault can leave changed beside the fault registers. -/
theorem afterDraws_frame (i : Instr) (s : State) : afterDraws i s = { s with entropy := (afterDraws i s).entropy } := by
  cases i <;> rfl

/-- All that the effect of `GAMMA` can change. -/
theorem gammaEffect_frame (audit : Bool) (s : State) :
    gammaEffect audit s = { s with
      bbsValid := (gammaEffect audit s).bbsValid, res0 := (gammaEffect audit s).res0, res1 := (gammaEffect audit s).res1
      lcgS := (gammaEffect audit s).lcgS, bbsN := (gammaEffect audit s).bbsN, bbsX := (gammaEffect audit s).bbsX
      lram := (gammaEffect audit s).lram } := by
  unfold gammaEffect
  split
  · rfl
  · cases audit <;> rfl

/-- All that the effect of a command can change (30_encoding.md R92). -/
theorem commandEffect_frame (i : Instr) (s : State) :
    commandEffect i s = { s with
      bbsValid := (commandEffect i s).bbsValid, res0 := (commandEffect i s).res0, res1 := (commandEffect i s).res1
      lcgS := (commandEffect i s).lcgS, bbsN := (commandEffect i s).bbsN, bbsX := (commandEffect i s).bbsX
      lram := (commandEffect i s).lram, entropy := (commandEffect i s).entropy } := by
  cases i with
  | primeGen rounds =>
    simp only [commandEffect]
    cases (primeGenSearch rounds s).found <;> rfl
  | gamma audit =>
    have h := congrArg State.entropy (gammaEffect_frame audit s)
    rw [commandEffect, h]
    exact gammaEffect_frame audit s
  | _ => rfl

section
variable (i : Instr) (s : State)

@[simp] theorem commandEffect_cfg : (commandEffect i s).cfg = s.cfg := by rw [commandEffect_frame]
@[simp] theorem commandEffect_err : (commandEffect i s).err = s.err := by rw [commandEffect_frame]
@[simp] theorem commandEffect_cmd : (commandEffect i s).cmd = s.cmd := by rw [commandEffect_frame]
@[simp] theorem commandEffect_cause : (commandEffect i s).cause = s.cause := by rw [commandEffect_frame]
@[simp] theorem commandEffect_info0 : (commandEffect i s).info0 = s.info0 := by rw [commandEffect_frame]
@[simp] theorem commandEffect_info1 : (commandEffect i s).info1 = s.info1 := by rw [commandEffect_frame]

@[simp] theorem afterDraws_done : (afterDraws i s).done = s.done := by rw [afterDraws_frame]
@[simp] theorem afterDraws_cmd : (afterDraws i s).cmd = s.cmd := by rw [afterDraws_frame]
@[simp] theorem afterDraws_bbsValid : (afterDraws i s).bbsValid = s.bbsValid := by rw [afterDraws_frame]

end

/-- A command leaves `BBS_VALID` as it was, or is `BBS_INIT` or `GAMMA` and sets it (10_state.md R42). -/
theorem commandEffect_bbsValid_cases (i : Instr) (s : State) :
    (commandEffect i s).bbsValid = s.bbsValid ∨
      ((commandEffect i s).bbsValid = true ∧ (i = .bbsInit ∨ ∃ audit, i = .gamma audit)) := by
  cases i with
  | bbsInit => exact .inr ⟨rfl, .inl rfl⟩
  | gamma audit =>
    simp only [commandEffect, gammaEffect]
    split
    · exact .inl rfl
    · exact .inr ⟨rfl, .inr ⟨audit, rfl⟩⟩
  | primeGen rounds =>
    simp only [commandEffect]
    cases (primeGenSearch rounds s).found <;> exact .inl rfl
  | _ => exact .inl rfl

/-! ### The causes a command names (60_exceptions.md R211) -/

theorem checkRegion_some_cause {cfg : Config} {a len : Nat} {f : FaultInfo} (h : checkRegion cfg a len = some f) :
    f.cause = .addressRange := by rw [checkRegion_some_cases h]

theorem bbsInitialized_some_cause {s : State} {f : FaultInfo} (h : bbsInitialized s = some f) :
    f.cause = .bbsNotInitialized := by rw [(bbsInitialized_some h).2]

theorem enc7Fault_some_cause {s : State} {f : FaultInfo} (h : enc7Fault s = some f) :
    f.cause = .outOfRangeSymbol ∨ f.cause = .addressRange := by
  rcases orElse_eq_some_cases h with h | h
  · exact .inr (checkRegion_some_cause h)
  · rcases orElse_eq_some_cases h with h | h
    · exact .inr (checkRegion_some_cause h)
    · exact .inl (symbolFault_some_cause h)

theorem dec7Fault_some_cause {s : State} {f : FaultInfo} (h : dec7Fault s = some f) :
    f.cause = .misalignedLength ∨ f.cause = .addressRange := by
  rcases orElse_eq_some_cases h with h | h
  · split at h
    · cases h
    · exact .inl (congrArg FaultInfo.cause (Option.some.inj h).symm)
  · rcases orElse_eq_some_cases h with h | h
    · exact .inr (checkRegion_some_cause h)
    · exact .inr (checkRegion_some_cause h)

theorem modexpFault_some_cause {s : State} {f : FaultInfo} (h : modexpFault s = some f) : f.cause = .paramRange := by
  rw [modexpFault] at h
  split at h
  · exact congrArg FaultInfo.cause (Option.some.inj h).symm
  · cases h

theorem primeGenFault_some_cause {rounds : Nat} {s : State} {found : Option (Nat × Nat)} {f : FaultInfo}
    (h : primeGenFault rounds s found = some f) : f.cause = .primeGenerationFailure := by
  cases found with
  | none => exact congrArg FaultInfo.cause (Option.some.inj h).symm
  | some p => cases h

theorem bbsOutFault_some_cause {count : Nat} {s : State} {f : FaultInfo} (h : bbsOutFault count s = some f) :
    f.cause = .bbsNotInitialized ∨ f.cause = .addressRange := by
  rcases orElse_eq_some_cases h with h | h
  · exact .inl (bbsInitialized_some_cause h)
  · exact .inr (checkRegion_some_cause h)

theorem gammaFault_some_cause {audit : Bool} {s : State} {f : FaultInfo} (h : gammaFault audit s = some f) :
    f.cause = .paramRange ∨ f.cause = .addressRange := by
  rw [gammaFault] at h
  split at h
  · cases h
  · rcases orElse_eq_some_cases h with h | h
    · exact .inl (bbsCheck_some_cause h)
    · rcases orElse_eq_some_cases h with h | h
      · exact .inr (checkRegion_some_cause h)
      · cases audit with
        | true => exact .inr (checkRegion_some_cause h)
        | false => cases h

/-- A command raises only the causes of its own (60_exceptions.md R211). -/
theorem commandFault_raises {i : Instr} {s : State} {f : FaultInfo} (h : commandFault i s = some f) :
    f.cause ∈ raises i := by
  cases i with
  | enc7 => simpa [raises] using enc7Fault_some_cause h
  | dec7 => simpa [raises] using dec7Fault_some_cause h
  | modexp => simpa [raises] using modexpFault_some_cause h
  | mrTest rounds => cases h
  | primeGen rounds => simpa [raises] using primeGenFault_some_cause h
  | lcgNext => cases h
  | lcgGenn n => simpa [raises] using checkRegion_some_cause h
  | bbsInit => simpa [raises] using bbsCheck_some_cause h
  | bbsNext => simpa [raises] using bbsInitialized_some_cause h
  | bbsOut count => simpa [raises] using bbsOutFault_some_cause h
  | gamma audit => simpa [raises] using gammaFault_some_cause h

theorem none_notMem_raises (i : Instr) : Cause.none ∉ raises i := by cases i <;> simp [raises]

/-- Every fault of a command has a named cause. -/
theorem commandFault_named {i : Instr} {s : State} {f : FaultInfo} (h : commandFault i s = some f) : f.cause ≠ .none :=
  fun hc => none_notMem_raises i (hc ▸ commandFault_raises h)

end Sys2Proof.Machine
end

section
/-! ## What the host does to the unit

One operation of the host reaches the unit in one of eight ways; the rest of it is the host agent's own (30_encoding.md
R89). -/

namespace Sys2Proof.Machine

/-- The ways in which one operation of the host can leave the unit, each with the condition it needs. -/
inductive HostEffect (s : State) : State → Prop where
  /-- A read, a write that is ignored, or no access at all. -/
  | nothing : HostEffect s s
  /-- A write to `CTRL` (10_state.md R25). -/
  | control (v : Word) : HostEffect s (writeCtrl v s)
  /-- A write to `STATUS` (10_state.md R28). -/
  | acknowledge (v : Word) : HostEffect s (clearStatus v s)
  /-- An accepted write to `CMD` (10_state.md R29). -/
  | accepted (v : Word) (idle : s.busy = false) (noErr : s.err = false) : HostEffect s (accept v s)
  /-- A dropped write (10_state.md R29, R31; 20_memory.md R73). -/
  | dropped : HostEffect s (dropWrite s)
  /-- A write to an operand register (10_state.md R31). -/
  | operand (r : Reg) (v : Word) (idle : s.busy = false) (writable : regAccess r = .operand) :
    HostEffect s (writeOperand r v s)
  /-- A byte written to the LRAM (20_memory.md R64). -/
  | byte (a : Nat) (b : Byte) (idle : s.busy = false) (inside : a < s.cfg.lramBytes) : HostEffect s (s.writeBytes a [b])
  /-- An unspecified read, which the model counts (log entry 6). -/
  | unspecified (busy : s.busy = true) : HostEffect s { s with busyReads := s.busyReads + 1 }

theorem regWrite_hostEffect (index : Byte) (v : Word) (s : State) : HostEffect s (regWrite index v s) := by
  rcases regWrite_cases index v s with h | h | h | ⟨hb, he, h⟩ | ⟨-, h⟩ | ⟨r, hb, hr, h⟩
  · rw [h]; exact .nothing
  · rw [h]; exact .control v
  · rw [h]; exact .acknowledge v
  · rw [h]; exact .accepted v hb he
  · rw [h]; exact .dropped
  · rw [h]; exact .operand r v hb hr

theorem regRead_hostEffect (index : Byte) (s : State) : HostEffect s (regRead index s).2 := by
  rcases regRead_snd_cases index s with h | ⟨hb, h⟩
  · rw [h]; exact .nothing
  · rw [h]; exact .unspecified hb

theorem memRead8_hostEffect (a : Nat) (s : State) : HostEffect s (memRead8 a s).2 := by
  rcases memRead8_snd_cases a s with h | ⟨hb, h⟩
  · rw [h]; exact .nothing
  · rw [h]; exact .unspecified hb

theorem memWrite8_hostEffect (a : Nat) (v : Word) (s : State) : HostEffect s (memWrite8 a v s) := by
  rcases memWrite8_cases a v s with h | ⟨-, h⟩ | ⟨hb, ha, h⟩
  · rw [h]; exact .nothing
  · rw [h]; exact .dropped
  · rw [h]; exact .byte a _ hb ha

/-- A host operation is one access to the unit, beside which only the host agent changes (30_encoding.md R89). -/
theorem hostOperation_cases (op : HostOp) (s : State) :
    ∃ (u : State) (h : HostAgent), hostOperation op s = { u with host := h } ∧ HostEffect s u := by
  cases op with
  | wr index v => exact ⟨_, _, rfl, regWrite_hostEffect index v s⟩
  | rd index => exact ⟨(regRead index s).2, (hostOperation (.rd index) s).host, rfl, regRead_hostEffect index s⟩
  | cmd i => exact ⟨_, _, rfl, regWrite_hostEffect _ _ s⟩
  | mw8 a v => exact ⟨_, _, rfl, memWrite8_hostEffect a v s⟩
  | mr8 a => exact ⟨(memRead8 a s).2, (hostOperation (.mr8 a) s).host, rfl, memRead8_hostEffect a s⟩
  | brset index mask label =>
    exact ⟨(regRead index s).2, (hostOperation (.brset index mask label) s).host, rfl, regRead_hostEffect index s⟩
  | brclr index mask label =>
    exact ⟨(regRead index s).2, (hostOperation (.brclr index mask label) s).host, rfl, regRead_hostEffect index s⟩
  | halt => exact ⟨s, s.host, rfl, .nothing⟩

theorem hostStep_hostEffect (s : State) :
    ∃ (u : State) (h : HostAgent), hostStep s = { u with host := h } ∧ HostEffect s u := by
  rw [hostStep]
  cases s.host.program[s.host.pc]? with
  | none => exact ⟨s, s.host, rfl, .nothing⟩
  | some op => exact hostOperation_cases op s

/-! ### What a host operation leaves alone -/

/-- All that the write of an operand register can change (10_state.md R31). -/
theorem writeOperand_frame (r : Reg) (v : Word) (s : State) :
    writeOperand r v s = { s with
      src := (writeOperand r v s).src, dst := (writeOperand r v s).dst, len := (writeOperand r v s).len
      adst := (writeOperand r v s).adst, lcgA := (writeOperand r v s).lcgA, lcgB := (writeOperand r v s).lcgB
      lcgS := (writeOperand r v s).lcgS, bbsP := (writeOperand r v s).bbsP, bbsQ := (writeOperand r v s).bbsQ
      bbsSeed := (writeOperand r v s).bbsSeed, mxBase := (writeOperand r v s).mxBase
      mxExp := (writeOperand r v s).mxExp, mxMod := (writeOperand r v s).mxMod
      pgMaxIter := (writeOperand r v s).pgMaxIter } := by
  cases r <;> rfl

section
variable (r : Reg) (v : Word) (s : State)

@[simp] theorem writeOperand_cfg : (writeOperand r v s).cfg = s.cfg := by rw [writeOperand_frame]
@[simp] theorem writeOperand_phase : (writeOperand r v s).phase = s.phase := by rw [writeOperand_frame]
@[simp] theorem writeOperand_cmd : (writeOperand r v s).cmd = s.cmd := by rw [writeOperand_frame]
@[simp] theorem writeOperand_lram : (writeOperand r v s).lram = s.lram := by rw [writeOperand_frame]
@[simp] theorem writeOperand_epoch : (writeOperand r v s).epoch = s.epoch := by rw [writeOperand_frame]
@[simp] theorem writeOperand_host : (writeOperand r v s).host = s.host := by rw [writeOperand_frame]
@[simp] theorem writeOperand_entropy : (writeOperand r v s).entropy = s.entropy := by rw [writeOperand_frame]

end

/-- What only the unit's own commands write: the read-only registers that are not constants, and `BBS_VALID`
(10_state.md R24, R42). -/
structure SameResults (s u : State) : Prop where
  bbsValid : u.bbsValid = s.bbsValid
  cause : u.cause = s.cause
  info0 : u.info0 = s.info0
  info1 : u.info1 = s.info1
  res0 : u.res0 = s.res0
  res1 : u.res1 = s.res1
  bbsN : u.bbsN = s.bbsN
  bbsX : u.bbsX = s.bbsX

/-- No host operation writes what is the commands' to write. -/
theorem HostEffect.sameResults {s u : State} (h : HostEffect s u) : SameResults s u := by
  cases h with
  | operand r v =>
    rw [writeOperand_frame]
    exact ⟨rfl, rfl, rfl, rfl, rfl, rfl, rfl, rfl⟩
  | _ => exact ⟨rfl, rfl, rfl, rfl, rfl, rfl, rfl, rfl⟩

/-- The host agent's own fields are none of the commands' results. -/
theorem SameResults.of_host {s u : State} (h : SameResults s u) (host : HostAgent) :
    SameResults s { u with host := host } :=
  ⟨h.bbsValid, h.cause, h.info0, h.info1, h.res0, h.res1, h.bbsN, h.bbsX⟩

/-- A read-only register holds what it held where the commands' results are the same. -/
theorem SameResults.reg {s u : State} (h : SameResults s u) {r : Reg} (hr : regAccess r = .readOnly) :
    u.reg r = s.reg r := by
  obtain ⟨-, hcause, hinfo0, hinfo1, hres0, hres1, hbbsN, hbbsX⟩ := h
  cases r with
  | id => rfl
  | lcgM => rfl
  | cause => simp only [State.reg, hcause]
  | info0 => exact hinfo0
  | info1 => exact hinfo1
  | res0 => exact hres0
  | res1 => exact hres1
  | bbsN => exact hbbsN
  | bbsX => exact hbbsX
  | _ => cases hr

/-- The host changes `CMD` only by a write that is accepted (10_state.md R29, R30). -/
theorem HostEffect.cmd_cases {s u : State} (h : HostEffect s u) :
    u.cmd = s.cmd ∨ (s.busy = false ∧ s.err = false ∧ u.phase = .busy u.cmd) := by
  cases h with
  | accepted v idle noErr => exact .inr ⟨idle, noErr, rfl⟩
  | operand r v => exact .inl (writeOperand_cmd r v s)
  | _ => exact .inl rfl

/-- All that the host can change while a command runs (10_state.md R29, R31; 20_memory.md R73). -/
theorem HostEffect.frame_of_busy {s u : State} (h : HostEffect s u) (hb : s.busy = true) (hd : s.done = false)
    (he : s.err = false) :
    u = { s with ieDone := u.ieDone, ieErr := u.ieErr, drop := u.drop, busyReads := u.busyReads } := by
  cases h with
  | nothing => rfl
  | control v => rfl
  | acknowledge v => simp [clearStatus, hd, he]
  | accepted v idle => rw [hb] at idle; cases idle
  | dropped => rfl
  | operand r v idle => rw [hb] at idle; cases idle
  | byte a b idle => rw [hb] at idle; cases idle
  | unspecified => rfl

end Sys2Proof.Machine
end

section
/-! ## The invariant under the host, the commands and the reset input -/

namespace Sys2Proof.Machine

theorem State.phase_eq_idle {s : State} (h : s.busy = false) : s.phase = .idle := by
  cases hp : s.phase with
  | idle => rfl
  | busy w => rw [State.busy_of_busy hp] at h; cases h

/-- The part of the invariant that speaks of the BBS generator (43_bbs.md R175, 10_state.md R42). -/
def InstanceSound (s : State) : Prop :=
  (s.bbsValid = true → BbsInstance s.bbsN.toNat s.bbsX.toNat) ∧ (s.bbsValid = false → s.bbsN = 0#64 ∧ s.bbsX = 0#64)

/-- The part of the invariant that speaks of the LRAM (20_memory.md R61). -/
def MemorySound (s : State) : Prop := s.lram.wf ∧ ∀ c ∈ s.lram, c.1 < s.cfg.lramBytes

theorem State.Inv.instanceSound {s : State} (h : s.Inv) : InstanceSound s := ⟨h.instanceValid, h.noInstance⟩

theorem State.Inv.memorySound {s : State} (h : s.Inv) : MemorySound s := ⟨h.memory, h.inside⟩

/-- A write to a region that passed its check keeps the memory sound (20_memory.md R65). -/
theorem MemorySound.writeBytes {s : State} (h : MemorySound s) {a len : Nat} (hc : checkRegion s.cfg a len = none)
    {bs : List Byte} (hl : bs.length = len) : MemorySound (s.writeBytes a bs) := by
  subst hl
  exact writeBytes_memoryInv h.1 h.2 a bs ((checkRegion_eq_none_iff _ _ _).mp hc)

/-! ### The commands -/

/-- The gamma, then the audit words, each in its checked region (44_gamma.md R193, R196). -/
theorem gammaWrites_memorySound {audit : Bool} {s : State} (h : MemorySound s) (hn : gammaCount s ≠ 0)
    (hf : gammaFault audit s = none) : MemorySound (gammaWrites audit s) := by
  obtain ⟨-, hdst, hadst⟩ := (gammaFault_eq_none_iff audit s hn).mp hf
  have hgamma : MemorySound (s.writeBits s.dst.toNat (gammaBits s)) :=
    h.writeBytes hdst (by rw [packBits_length, gammaBits_length])
  cases audit with
  | false => exact hgamma
  | true => exact hgamma.writeBytes (hadst rfl) (by rw [wordBytes_length, gammaWords_length]; omega)

/-- A command whose checks pass writes inside the LRAM and keeps the memory's canonical form. -/
theorem commandEffect_memorySound {i : Instr} {s : State} (h : MemorySound s)
    (hf : commandFault i s = none) : MemorySound (commandEffect i s) := by
  cases i with
  | enc7 =>
    obtain ⟨-, hdst, -⟩ := (orElse_eq_none_iff.mp hf).imp_right orElse_eq_none_iff.mp
    exact h.writeBytes hdst (by rw [packBits_length, symbolBits_length, enc7Input, readBytes_length])
  | dec7 =>
    obtain ⟨-, -, hdst⟩ := (orElse_eq_none_iff.mp hf).imp_right orElse_eq_none_iff.mp
    exact h.writeBytes hdst (groupSymbols_length _ _)
  | lcgGenn n => exact h.writeBytes hf (by rw [wordBytes_length, lcgGennDraws, lcgDraws_length])
  | bbsOut count =>
    obtain ⟨-, hdst⟩ := orElse_eq_none_iff.mp hf
    exact h.writeBytes hdst (by rw [wordBytes_length, bbsOutStates, bbsStates_length])
  | gamma audit =>
    simp only [commandEffect, gammaEffect]
    split
    · exact h
    · exact gammaWrites_memorySound h ‹_› hf
  | primeGen rounds =>
    simp only [commandEffect]
    cases (primeGenSearch rounds s).found <;> exact h
  | modexp | mrTest | lcgNext | bbsInit | bbsNext => exact h

/-- The state register holds the state of a generator exactly (43_bbs.md R175). -/
theorem BbsInstance.ofNat_state {n x : Nat} (h : BbsInstance n x) : BbsInstance n (BitVec.ofNat 64 x).toNat := by
  rwa [BitVec.toNat_ofNat, Nat.mod_eq_of_lt (h.reduced.trans h.bound)]

/-- The last output of a run with a round is a state of the generator with the key's modulus (44_gamma.md R199). -/
theorem gammaLast_bbsInstance {s : State} (hn : gammaCount s ≠ 0) (hc : bbsCheck s = none) :
    BbsInstance (bbsModulus s) (gammaLast s).lastOut := by
  obtain ⟨hpos, hbound⟩ := bbsModulus_bounds hc
  rw [gammaLast_eq s hn, gammaRound_lastOut]
  exact (BbsInstance.initial _ _ hpos hbound).iterate 5

/-- A command whose checks pass keeps the generator sound: it leaves it alone, squares its state, or constructs one
(43_bbs.md R172 to R175; 44_gamma.md R199). -/
theorem commandEffect_instanceSound {i : Instr} {s : State} (h : InstanceSound s) (hf : commandFault i s = none) :
    InstanceSound (commandEffect i s) := by
  cases i with
  | bbsInit =>
    obtain ⟨hpos, hbound⟩ := bbsModulus_bounds hf
    exact ⟨fun _ => (BbsInstance.initial _ _ hpos hbound).word, fun hv => nomatch hv⟩
  | bbsNext =>
    have hvalid := (bbsInitialized_eq_none_iff s).mp hf
    exact ⟨fun _ => (h.1 hvalid).sqMod.ofNat_state, fun hv => absurd (hvalid.symm.trans hv) (by decide)⟩
  | bbsOut count =>
    have hvalid := (bbsInitialized_eq_none_iff s).mp (orElse_eq_none_iff.mp hf).1
    refine ⟨fun _ => BbsInstance.ofNat_state ?_, fun hv => absurd (hvalid.symm.trans hv) (by decide)⟩
    rw [bbsOutStates, bbsStates_getLastD]
    exact (h.1 hvalid).iterate count
  | gamma audit =>
    simp only [commandEffect, gammaEffect]
    split
    · exact h
    · rename_i hn
      obtain ⟨hcheck, -, -⟩ := (gammaFault_eq_none_iff audit s hn).mp hf
      exact ⟨fun _ => (gammaLast_bbsInstance hn hcheck).word, fun hv => nomatch hv⟩
  | primeGen rounds =>
    simp only [commandEffect]
    cases (primeGenSearch rounds s).found <;> exact h
  | enc7 | dec7 | modexp | mrTest | lcgNext | lcgGenn => exact h

/-- A command run in a sound state with `DONE` and `ERR` 0 ends in a sound state. -/
theorem exec_keeps_inv {i : Instr} {s t : State} (hi : s.Inv) (hd : s.done = false) (he : s.err = false)
    (h : exec i s = .next t) : t.Inv := by
  rcases exec_cases h with ⟨f, hf, rfl⟩ | ⟨hf, rfl⟩
  · rw [afterDraws_frame]
    exact hi.takeFault hd (commandFault_named hf)
  · obtain ⟨hwf, hinside⟩ := commandEffect_memorySound hi.memorySound hf
    rw [commandEffect_cfg] at hinside
    exact hi.complete he (commandEffect_cfg i s) hwf hinside (commandEffect_err i s)
      (commandEffect_instanceSound hi.instanceSound hf)

/-! ### The host and the reset input -/

/-- A host operation keeps the invariant. -/
theorem HostEffect.keeps_inv {s u : State} (hi : s.Inv) (h : HostEffect s u) : u.Inv := by
  obtain ⟨hsize, hmemory, hinside, hdoneErr, hrunning, hvalid, hnone, hcause⟩ := hi
  cases h with
  | nothing | control | dropped | unspecified =>
    exact ⟨hsize, hmemory, hinside, hdoneErr, hrunning, hvalid, hnone, hcause⟩
  | acknowledge v =>
    refine ⟨hsize, hmemory, hinside, ?_, fun w hw => ?_, hvalid, hnone, fun he => hcause ?_⟩
    · simp only [clearStatus_done, clearStatus_err, Bool.and_eq_true]
      exact fun hde => hdoneErr ⟨hde.1.1, hde.2.1⟩
    · obtain ⟨hcmd, hd, he⟩ := hrunning w hw
      exact ⟨hcmd, by simp [hd], by simp [he]⟩
    · simp only [clearStatus_err, Bool.and_eq_true] at he
      exact he.1
  | accepted v idle noErr =>
    exact ⟨hsize, hmemory, hinside, by simp, fun w hw => ⟨Phase.busy.inj hw, rfl, noErr⟩, hvalid, hnone, hcause⟩
  | operand r v =>
    rw [writeOperand_frame]
    exact ⟨hsize, hmemory, hinside, hdoneErr, hrunning, hvalid, hnone, hcause⟩
  | byte a b idle ha =>
    obtain ⟨hwf, hin⟩ := writeBytes_memoryInv hmemory hinside a [b] (.inr ha)
    exact ⟨hsize, hwf, hin, hdoneErr, hrunning, hvalid, hnone, hcause⟩

theorem hostStep_keeps_inv {s : State} (hi : s.Inv) : (hostStep s).Inv := by
  obtain ⟨u, host, hstep, hu⟩ := hostStep_hostEffect s
  rw [hstep]
  exact (hu.keeps_inv hi).of_agents host u.busyReads u.turns

/-- The reset input leaves a sound state from any state whose parameter is in its range. -/
theorem unitReset_inv {s : State} (h : s.cfg.wf) : (unitReset s).Inv where
  size := h
  memory := List.Pairwise.nil
  inside := fun _ hc => nomatch hc
  doneErr := fun hde => nomatch hde.1
  running := fun _ hw => nomatch hw
  instanceValid := fun hv => nomatch hv
  noInstance := fun _ => ⟨rfl, rfl⟩
  causeNamed := fun he => nomatch he

theorem popTurn_inv {s : State} (hi : s.Inv) : (popTurn s).Inv := hi.of_agents s.host s.busyReads s.turns.tail

end Sys2Proof.Machine
end

section
/-! ## The register port and the sequencer, as the statements of 10_state.md ask for them -/

namespace Sys2Proof.Machine

open Sys2Proof.Claims

/-! ### Which register an index reaches (10_state.md R23) -/

theorem regAt_operandIndex {index : Byte} (h : index ∈ operandIndices) :
    ∃ r, regAt index = some r ∧ regAccess r = .operand := by
  have table : ∀ j ∈ operandIndices, ∃ r ∈ allRegs, regAt j = some r ∧ regAccess r = .operand := by decide
  obtain ⟨r, -, hr⟩ := table index h
  exact ⟨r, hr⟩

theorem regAt_readOnlyIndex {index : Byte} (h : index ∈ readOnlyIndices) :
    ∃ r, regAt index = some r ∧ regAccess r = .readOnly := by
  have table : ∀ j ∈ readOnlyIndices, ∃ r ∈ allRegs, regAt j = some r ∧ regAccess r = .readOnly := by decide
  obtain ⟨r, -, hr⟩ := table index h
  exact ⟨r, hr⟩

/-- Only the listed indices are mapped. -/
theorem mem_mappedIndices_of_regAt {index : Byte} {r : Reg} (h : regAt index = some r) : index ∈ mappedIndices := by
  have hindex : index = BitVec.ofNat 8 (regIndex r) := by
    have hr := List.find?_some h
    simp only [beq_iff_eq] at hr
    rw [hr, BitVec.ofNat_toNat, BitVec.setWidth_eq]
  rw [hindex]
  cases r <;> decide

theorem regAt_unmapped {index : Byte} (h : index ∉ mappedIndices) : regAt index = none :=
  Option.eq_none_iff_forall_ne_some.mpr fun _ hr => h (mem_mappedIndices_of_regAt hr)

theorem regRead_unmapped {index : Byte} (h : regAt index = none) (s : State) : regRead index s = (0#64, s) := by
  simp only [regRead, h]

theorem regWrite_unmapped {index : Byte} (h : regAt index = none) (v : Word) (s : State) : regWrite index v s = s := by
  simp only [regWrite, h]

theorem regWrite_readOnly {index : Byte} {r : Reg} (h : regAt index = some r) (hr : regAccess r = .readOnly) (v : Word)
    (s : State) : regWrite index v s = s := by
  simp only [regWrite_of_regAt h, hr]

theorem regRead_cmd (s : State) : regRead 0x03#8 s = (s.cmd, s) :=
  regRead_specified (r := .cmd) (by decide) (.inr rfl)

/-! ### Operand registers (10_state.md R27, R31) -/

/-- An operand register holds what was written, `LCG_S` its low 20 bits (10_state.md R27). -/
theorem writeOperand_reg_self {r : Reg} (hr : regAccess r = .operand) (v : Word) (s : State) :
    (writeOperand r v s).reg r = if r = .lcgS then BitVec.ofNat 64 (v.toNat % 2 ^ 20) else v := by
  cases r with
  | lcgS =>
    rw [if_pos rfl]
    exact BitVec.eq_of_toNat_eq (by simp [writeOperand, State.reg])
  | id | ctrl | status | cmd | cause | info0 | info1 | res0 | res1 | lcgM | bbsN | bbsX => cases hr
  | _ => rfl

theorem regAt_eq_lcgS_iff {index : Byte} {r : Reg} (h : regAt index = some r) : r = .lcgS ↔ index = 0x13#8 := by
  constructor
  · rintro rfl
    exact regAt_unique h (by decide)
  · rintro rfl
    exact Option.some.inj (h.symm.trans (by decide))

theorem regRead_congr_idle {s t : State} (hs : s.busy = false) (ht : t.busy = false) {index : Byte}
    (h : ∀ r, regAt index = some r → t.reg r = s.reg r) : (regRead index t).1 = (regRead index s).1 := by
  cases hr : regAt index with
  | none => rw [regRead_unmapped hr, regRead_unmapped hr]
  | some r => rw [regRead_specified hr (.inl ht), regRead_specified hr (.inl hs), h r hr]

@[simp] theorem writeOperand_busy (r : Reg) (v : Word) (s : State) : (writeOperand r v s).busy = s.busy := by
  rw [State.busy, writeOperand_phase, State.busy]

/-- An operand register read after it was written in phase `Idle` (10_state.md R27, R31). -/
theorem regRead_regWrite_operand {index : Byte} (h : index ∈ operandIndices) (v : Word) {s : State}
    (hs : s.phase = .idle) :
    (regRead index (regWrite index v s)).1 = if index = 0x13#8 then BitVec.ofNat 64 (v.toNat % 2 ^ 20) else v := by
  obtain ⟨r, hr, hop⟩ := regAt_operandIndex h
  have hb := State.busy_of_idle hs
  rw [regWrite_operand_idle hr hop v hb, regRead_specified hr (.inl (by rw [writeOperand_busy, hb])),
    writeOperand_reg_self hop]
  simp only [regAt_eq_lcgS_iff hr]

/-- The write of an operand register in phase `Idle` changes what no other index reads (10_state.md R31). -/
theorem regRead_regWrite_operand_other {index other : Byte} (h : index ∈ operandIndices) (hne : other ≠ index) (v : Word)
    {s : State} (hs : s.phase = .idle) : (regRead other (regWrite index v s)).1 = (regRead other s).1 := by
  obtain ⟨r, hr, hop⟩ := regAt_operandIndex h
  have hb := State.busy_of_idle hs
  rw [regWrite_operand_idle hr hop v hb]
  refine regRead_congr_idle hb (by rw [writeOperand_busy, hb]) fun r' hr' => writeOperand_reg_other v s ?_
  rintro rfl
  exact hne (regAt_unique hr' hr)

theorem regWrite_lcgS {s : State} (hs : s.phase = .idle) (v : Word) :
    regWrite 0x13#8 v s = { s with lcgS := v.setWidth 20 } :=
  regWrite_operand_idle (r := .lcgS) (by decide) rfl v (State.busy_of_idle hs)

/-- A step of the LCG depends on the residue of its state alone (10_state.md R27, 42_lcg.md R150). -/
theorem lcgStep_mod (a b x : Nat) : lcgStep a b (x % 2 ^ 20) = (a * x + b) % 2 ^ 20 := by
  show (a * (x % 2 ^ 20) + b) % 2 ^ 20 = _
  rw [Nat.add_mod, Nat.mul_mod_mod, ← Nat.add_mod]

/-! ### `CTRL`, `STATUS` and `CMD` (10_state.md R25 to R30) -/

theorem ctrlWord_toNat (s : State) : s.ctrlWord.toNat = s.ieDone.toNat + 2 * s.ieErr.toNat := by
  unfold State.ctrlWord
  cases s.ieDone <;> cases s.ieErr <;> rfl

theorem ctrlWord_bits (s : State) : s.ctrlWord.getLsbD 0 = s.ieDone ∧ s.ctrlWord.getLsbD 1 = s.ieErr := by
  unfold State.ctrlWord
  cases s.ieDone <;> cases s.ieErr <;> exact ⟨rfl, rfl⟩

/-- The two low bits of a word, as the number they form. -/
theorem lowTwoBits_eq_mod (v : Word) : (v.getLsbD 0).toNat + 2 * (v.getLsbD 1).toNat = v.toNat % 4 := by
  rw [BitVec.getLsbD, BitVec.getLsbD, Nat.toNat_testBit, Nat.toNat_testBit]
  omega

theorem State.busy_eq_decide (s : State) : s.busy = decide (s.phase ≠ .idle) := by
  rw [State.busy]
  cases s.phase <;> rfl

theorem issue_accepted {s : State} (hs : s.phase = .idle) (he : s.err = false) (v : Word) : issue v s = accept v s := by
  simp [issue, State.busy_of_idle hs, he]

theorem issue_dropped {s : State} (h : s.phase ≠ .idle ∨ s.err = true) (v : Word) : issue v s = dropWrite s := by
  refine if_pos ?_
  rw [State.busy_eq_decide, Bool.or_eq_true, decide_eq_true_eq]
  exact h

/-- Every cause but the one without a fault has a code from 1 to 7 (60_exceptions.md R211). -/
theorem Cause.code_bounds {c : Cause} (h : c ≠ .none) : 1 ≤ c.code ∧ c.code ≤ 7 := by
  cases c with
  | none => exact absurd rfl h
  | _ => simp [Cause.code]

theorem illegalCommand_named (v : Word) (e : DecodeError) : (illegalCommand v e).cause ≠ .none :=
  fun hc => nomatch hc

/-- After a fault `CAUSE` reads the code of its cause (10_state.md R32). -/
theorem regRead_cause_takeFault (f : FaultInfo) (s : State) :
    (regRead 0x04#8 (takeFault f s)).1.toNat = f.cause.code := by
  rw [regRead_specified (r := .cause) (by decide) (.inl rfl)]
  show (BitVec.ofNat 64 f.cause.code).toNat = _
  cases f.cause <;> rfl

/-! ### The turns of the step -/

theorem step_of_host {s : State} (h : nextTurn s = .host) : step s = .next (hostStep (popTurn s)) := by
  rw [step, h]; rfl

theorem sequencerStep_of_ok {s : State} {v : Word} {i : Instr} (hs : s.phase = .busy v) (hd : decode v = .ok i) :
    sequencerStep s = exec i s := by
  simp only [sequencerStep, hs, hd]

theorem sequencerStep_of_error {s : State} {v : Word} {e : DecodeError} (hs : s.phase = .busy v)
    (hd : decode v = .error e) : sequencerStep s = .next (faulted .illegalCommand v.toNat e.reason s) := by
  simp only [sequencerStep, hs, hd]; rfl

theorem hostStep_sameResults (s : State) : SameResults s (hostStep s) := by
  obtain ⟨u, host, hstep, hu⟩ := hostStep_hostEffect s
  rw [hstep]
  exact hu.sameResults.of_host host

/-- Over a step `BBS_VALID` stays as it was, or a reset clears it, or `BBS_INIT` or `GAMMA` sets it (10_state.md R42). -/
theorem step_bbsValid_cases {s t : State} (h : step s = .next t) :
    t.bbsValid = s.bbsValid ∨ (nextTurn s = .reset ∧ t.bbsValid = false) ∨
      (t.bbsValid = true ∧ nextTurn s = .sequencer ∧ ∃ v, s.phase = .busy v ∧
        (decode v = .ok .bbsInit ∨ ∃ audit, decode v = .ok (.gamma audit))) := by
  rcases step_cases h with
    ⟨-, rfl⟩ | ⟨hturn, rfl⟩ | ⟨-, -, rfl⟩ | ⟨v, i, hturn, hphase, hdecode, hexec⟩ | ⟨v, e, -, -, -, rfl⟩
  · exact .inl (hostStep_sameResults (popTurn s)).bbsValid
  · exact .inr (.inl ⟨hturn, rfl⟩)
  · exact .inl rfl
  · rcases exec_cases hexec with ⟨f, -, rfl⟩ | ⟨-, rfl⟩
    · exact .inl (afterDraws_bbsValid i (popTurn s))
    · rcases commandEffect_bbsValid_cases i (popTurn s) with hsame | ⟨hset, rfl | ⟨audit, rfl⟩⟩
      · exact .inl hsame
      · exact .inr (.inr ⟨hset, hturn, v, hphase, .inl hdecode⟩)
      · exact .inr (.inr ⟨hset, hturn, v, hphase, .inr ⟨audit, hdecode⟩⟩)
  · exact .inl rfl

/-- A step that is no reset writes the fault registers only by a fault with a named cause, taken by the sequencer in the
state of the running command (60_exceptions.md R210, R214). -/
theorem step_faultRegisters_cases {s t : State} (h : step s = .next t) (hreset : nextTurn s ≠ .reset) :
    (t.cause = s.cause ∧ t.info0 = s.info0 ∧ t.info1 = s.info1) ∨
      (nextTurn s = .sequencer ∧ (∃ v, s.phase = .busy v) ∧
        ∃ f u, f.cause ≠ .none ∧ u.done = s.done ∧ t = takeFault f u) := by
  rcases step_cases h with
    ⟨-, rfl⟩ | ⟨hturn, -⟩ | ⟨-, -, rfl⟩ | ⟨v, i, hturn, hphase, -, hexec⟩ | ⟨v, e, hturn, hphase, -, rfl⟩
  · have hsame := hostStep_sameResults (popTurn s)
    exact .inl ⟨hsame.cause, hsame.info0, hsame.info1⟩
  · exact absurd hturn hreset
  · exact .inl ⟨rfl, rfl, rfl⟩
  · rcases exec_cases hexec with ⟨f, hf, rfl⟩ | ⟨-, rfl⟩
    · exact .inr ⟨hturn, ⟨v, hphase⟩, f, afterDraws i (popTurn s), commandFault_named hf,
        afterDraws_done i (popTurn s), rfl⟩
    · exact .inl ⟨commandEffect_cause i _, commandEffect_info0 i _, commandEffect_info1 i _⟩
  · exact .inr ⟨hturn, ⟨v, hphase⟩, illegalCommand v e, popTurn s, illegalCommand_named v e, rfl, rfl⟩

end Sys2Proof.Machine
end

section
/-! ## The statements of 10_state.md -/

namespace Sys2Proof.StateChapter

open Sys2Proof.Machine Sys2Proof.Claims

/-- Settles O12. Each of the three agents keeps the invariant: the host by the ways its operation can leave the unit, the
reset input by the reset values, and the sequencer because a command starts with `DONE` and `ERR` 0, writes only regions
that passed their check, and leaves, squares or constructs the BBS state. -/
theorem stepKeepsInvariant : Obligations.StepKeepsInvariant := by
  intro s t hi hstep
  have hpop := popTurn_inv hi
  rcases step_cases hstep with
    ⟨-, rfl⟩ | ⟨-, rfl⟩ | ⟨-, -, rfl⟩ | ⟨v, i, -, hphase, -, hexec⟩ | ⟨v, e, -, hphase, -, rfl⟩
  · exact hostStep_keeps_inv hpop
  · exact unitReset_inv hpop.size
  · exact hpop
  · obtain ⟨-, hdone, herr⟩ := hi.running v hphase
    exact exec_keeps_inv hpop hdone herr hexec
  · obtain ⟨-, hdone, -⟩ := hi.running v hphase
    exact hpop.takeFault (e := s.entropy) hdone (illegalCommand_named v e)

/-- Settles O11. The reset state is what the reset input makes of it, but for the model's own count of resets. -/
theorem invariantAtReset : Obligations.InvariantAtReset := by
  obtain ⟨hsize, hmemory, hinside, hdoneErr, hrunning, hvalid, hnone, hcause⟩ :=
    unitReset_inv (s := State.reset) (by decide : Config.standard.wf)
  exact ⟨hsize, hmemory, hinside, hdoneErr, hrunning, hvalid, hnone, hcause⟩

/-- Settles O8. While the phase is `Busy` the host can reach the unit only by an ignored access, `CTRL`, `STATUS`, a dropped
write or an unspecified read; `DONE` and `ERR` are 0 already, so a `STATUS` write leaves them. -/
theorem hostLeavesRunningCommandAlone : Obligations.HostLeavesRunningCommandAlone := by
  intro s v hi hphase hturn
  obtain ⟨-, hdone, herr⟩ := hi.running v hphase
  obtain ⟨u, host, hstep, hu⟩ := hostStep_hostEffect (popTurn s)
  have hframe := hu.frame_of_busy (State.busy_of_busy hphase) hdone herr
  refine ⟨{ u with host := host }, by rw [step_of_host hturn, hstep], ?_, ?_, ?_⟩
  · exact (congrArg State.done hframe).trans hdone
  · exact (congrArg State.err hframe).trans herr
  · exact congrArg (fun x : State => { x with host := host }) hframe

/-- Settles O13, by what a step can do to `BBS_VALID`. -/
theorem bbsValidOnlyResetClears : Obligations.BbsValidOnlyResetClears := by
  intro s t hstep
  rcases step_bbsValid_cases hstep with hsame | ⟨hturn, hclear⟩ | ⟨hset, hby⟩
  · exact ⟨fun hs _ => hsame.trans hs, fun hs ht => absurd (hs.symm.trans (hsame.symm.trans ht)) (by decide)⟩
  · exact ⟨fun _ hreset => absurd hturn hreset, fun _ ht => absurd (hclear.symm.trans ht) (by decide)⟩
  · exact ⟨fun _ _ => hset, fun _ _ => hby⟩

/-- Settles O15. A fault is taken with `DONE` as it stands, which the invariant makes 0 while a command runs. -/
theorem onlyFaultsWriteFaultRegisters : Obligations.OnlyFaultsWriteFaultRegisters := by
  intro s t hi hstep hreset hchange
  rcases step_faultRegisters_cases hstep hreset with
    ⟨hcause, hinfo0, hinfo1⟩ | ⟨hturn, ⟨v, hphase⟩, f, u, hnamed, hdone, rfl⟩
  · rcases hchange with h | h | h
    · exact absurd hcause h
    · exact absurd hinfo0 h
    · exact absurd hinfo1 h
  · obtain ⟨-, hzero, -⟩ := hi.running v hphase
    refine ⟨hturn, ⟨v, hphase⟩, rfl, hdone.trans hzero, ?_⟩
    rw [regRead_cause_takeFault]
    exact Cause.code_bounds hnamed

/-- Settles O17. Over a step the host changes `CMD` only by an accepted write, and no command writes it. -/
theorem commandRegisterHoldsLastAccepted : Obligations.CommandRegisterHoldsLastAccepted := by
  refine ⟨regRead_cmd, fun s v hidle herr => ?_, fun s t hstep hreset => ?_⟩
  · rw [regWrite_cmd, issue_accepted hidle herr, regRead_cmd, accept_cmd]
  · rcases step_cases hstep with
      ⟨hturn, rfl⟩ | ⟨hturn, -⟩ | ⟨-, -, rfl⟩ | ⟨v, i, -, -, -, hexec⟩ | ⟨v, e, -, -, -, rfl⟩
    · obtain ⟨u, host, hhost, hu⟩ := hostStep_hostEffect (popTurn s)
      rw [hhost]
      rcases hu.cmd_cases with hsame | ⟨hidle, herr, hbusy⟩
      · exact .inl hsame
      · exact .inr ⟨hturn, State.phase_eq_idle hidle, herr, hbusy⟩
    · exact absurd hturn hreset
    · exact .inl rfl
    · rcases exec_cases hexec with ⟨f, -, rfl⟩ | ⟨-, rfl⟩
      · exact .inl (afterDraws_cmd i (popTurn s))
      · exact .inl (commandEffect_cmd i (popTurn s))
    · exact .inl rfl

/-- Settles O18. An operand index reaches one operand register, and no other index reaches that register. -/
theorem operandWriteDroppedWhileBusy : Obligations.OperandWriteDroppedWhileBusy := by
  intro s v index hindex
  obtain ⟨r, hr, hop⟩ := regAt_operandIndex hindex
  refine ⟨fun w hbusy => regWrite_operand_busy hr hop v (State.busy_of_busy hbusy), fun hidle => ?_⟩
  refine ⟨regRead_regWrite_operand hindex v hidle, fun other hne => regRead_regWrite_operand_other hindex hne v hidle, ?_⟩
  rw [regWrite_operand_idle hr hop v (State.busy_of_idle hidle)]
  simp [hidle]

/-- Settles O19. `LCG_S` keeps the residue of the written value, and a step of the LCG depends on that residue alone. -/
theorem lcgStateIsWarl : Obligations.LcgStateIsWarl := by
  refine ⟨fun s v hidle => ⟨?_, ?_, ?_⟩, fun s hidle => ?_, fun s v index hidle hindex hne => ?_⟩
  · rw [regRead_regWrite_operand (by decide) v hidle, if_pos rfl, BitVec.toNat_ofNat]
    omega
  · rw [regWrite_lcgS hidle]
  · rw [regWrite_lcgS hidle]
    refine ⟨_, rfl, ?_⟩
    show (BitVec.ofNat 20 (lcgStep s.lcgA.toNat s.lcgB.toNat (v.setWidth 20).toNat)).toNat = _
    rw [BitVec.toNat_setWidth, lcgStep_mod, BitVec.toNat_ofNat, Nat.mod_mod]
  · rw [regRead_specified (r := .lcgS) (by decide) (.inl (State.busy_of_idle hidle))]
    show (s.lcgS.setWidth 64).toNat < 2 ^ 20
    have := s.lcgS.isLt
    rw [BitVec.toNat_setWidth]
    omega
  · rw [regRead_regWrite_operand hindex v hidle, if_neg hne]

/-- Settles O20. No way in which a host operation can leave the unit writes a read-only register. -/
theorem readOnlyRegistersIgnoreWrites : Obligations.ReadOnlyRegistersIgnoreWrites := by
  refine ⟨fun s v index hindex => ?_, fun s op r hr => ?_, fun i s t _ => ⟨rfl, rfl⟩⟩
  · obtain ⟨r, hat, hr⟩ := regAt_readOnlyIndex hindex
    exact regWrite_readOnly hat hr v s
  · obtain ⟨u, host, hop, hu⟩ := hostOperation_cases op s
    rw [hop]
    exact (hu.sameResults.of_host host).reg hr

/-- Settles O23, from the bits of the two words. -/
theorem statusReadsItsBits : Obligations.StatusReadsItsBits := by
  refine ⟨rfl, fun s => ⟨s.statusWord, regRead_status s, ?_⟩⟩
  obtain ⟨hbusy, hdone, herr, hdrop, hvalid, hirq, hrest⟩ := statusWord_bits s
  obtain ⟨hieDone, hieErr⟩ := ctrlWord_bits s
  refine ⟨hbusy.trans s.busy_eq_decide, hdone, herr, hdrop, hvalid, hirq, ?_, hrest⟩
  rw [regRead_ctrl, hieDone, hieErr, State.irq, Bool.or_eq_true, Bool.and_eq_true, Bool.and_eq_true]

/-- Settles O24. Each of bits 1 to 3 becomes itself and the negation of the written bit. -/
theorem statusWriteOneToClear : Obligations.StatusWriteOneToClear := by
  intro s v
  have cleared : ∀ old written : Bool, (old && !written) = if written then false else old := by decide
  obtain ⟨hbusy, hdone, herr, hdrop, hvalid, -, hrest⟩ := statusWord_bits s
  obtain ⟨hbusy', hdone', herr', hdrop', hvalid', -, hrest'⟩ := statusWord_bits (clearStatus v s)
  rw [regWrite_status]
  refine ⟨rfl, fun k hk => ?_, fun k hk => ?_⟩
  · rw [regRead_status, regRead_status]
    rcases hk with rfl | rfl | rfl
    · rw [hdone, hdone', clearStatus_done, cleared]
    · rw [herr, herr', clearStatus_err, cleared]
    · rw [hdrop, hdrop', clearStatus_drop, cleared]
  · rw [regRead_status, regRead_status]
    rcases hk with rfl | rfl | hk
    · exact hbusy'.trans hbusy.symm
    · exact hvalid'.trans hvalid.symm
    · exact (hrest' k hk).trans (hrest k hk).symm

/-- Settles O5, by the two answers of the decoder. -/
theorem stepRunsDecodedCommand : Obligations.StepRunsDecodedCommand := by
  intro s v hphase
  refine ⟨fun hnone => ?_, fun hturn => ?_⟩
  · simp only [nextTurn, hnone, State.busy_of_busy hphase, if_true]
  · rw [step, hturn]
    exact ⟨fun i hd => sequencerStep_of_ok hphase hd, fun e hd => sequencerStep_of_error hphase hd⟩

/-- Settles O10. The reset values are compared register by register; phase `Idle` makes every read specified. -/
theorem resetStateReadsTable : Obligations.ResetStateReadsTable := by
  refine ⟨fun index hindex => ?_, rfl, rfl, rfl, fun a => rfl⟩
  have table : ∀ j ∈ mappedIndices, ∃ r ∈ allRegs, regAt j = some r ∧ State.reset.reg r = resetValue j := by decide
  obtain ⟨r, -, hr, hvalue⟩ := table index hindex
  rw [regRead_specified hr (.inl rfl), hvalue]

/-- Settles O16. Acceptance stores the value undecoded; the sequencer's step decodes it. -/
theorem commandWriteAcceptedOrDropped : Obligations.CommandWriteAcceptedOrDropped := by
  intro s v
  rw [regWrite_cmd]
  refine ⟨fun hidle herr => ?_, fun h => issue_dropped h v⟩
  rw [issue_accepted hidle herr]
  refine ⟨rfl, ?_, fun i hd => sequencerStep_of_ok (s := accept v s) rfl hd,
    fun e hd => sequencerStep_of_error (s := accept v s) rfl hd⟩
  rw [regRead_status]
  exact (statusWord_bits (accept v s)).1

/-- Settles O21. An index that reaches a register is the register's index, which is listed. -/
theorem unmappedAndConstantRegisters : Obligations.UnmappedAndConstantRegisters := by
  intro s
  refine ⟨fun index v h => ?_, ?_, ?_⟩
  · have hnone := regAt_unmapped h
    exact ⟨regRead_unmapped hnone s, regWrite_unmapped hnone v s⟩
  · exact regRead_specified (r := .id) (by decide) (.inr rfl)
  · exact regRead_specified (r := .lcgM) (by decide) (.inr rfl)

/-- Settles O22. The two stored bits are the written value modulo 4. -/
theorem ctrlWriteTakesTwoBits : Obligations.CtrlWriteTakesTwoBits := by
  refine ⟨fun s v => ?_, by rw [regRead_ctrl]; rfl⟩
  rw [regWrite_ctrl, regRead_ctrl]
  exact ⟨rfl, (ctrlWord_toNat _).trans (lowTwoBits_eq_mod v), rfl⟩

end Sys2Proof.StateChapter
end

section
/-! ## The byte port and the reads that have no side effect (20_memory.md R64, R69, R73) -/

namespace Sys2Proof.Machine

open Sys2Proof.Claims

/-! ### The byte port, case by case (20_memory.md R64, R73) -/

theorem memRead8_inside {s : State} (hs : s.phase = .idle) {a : Nat} (ha : a < s.cfg.lramBytes) :
    memRead8 a s = (s.readByte a, s) := by
  simp [memRead8, State.busy_of_idle hs, ha]

theorem memRead8_outside {s : State} (hs : s.phase = .idle) {a : Nat} (ha : s.cfg.lramBytes ≤ a) :
    memRead8 a s = (0#8, s) := by
  simp [memRead8, State.busy_of_idle hs, Nat.not_lt.mpr ha]

theorem memRead8_busy {s : State} {w : Word} (hs : s.phase = .busy w) (a : Nat) :
    memRead8 a s = ((Config.freeRead s.busyReads).setWidth 8, { s with busyReads := s.busyReads + 1 }) := by
  simp [memRead8, State.busy_of_busy hs, unspecifiedRead]

theorem memWrite8_inside {s : State} (hs : s.phase = .idle) {a : Nat} (ha : a < s.cfg.lramBytes) (v : Word) :
    memWrite8 a v s = s.writeBytes a [v.setWidth 8] := by
  simp [memWrite8, State.busy_of_idle hs, ha]

theorem memWrite8_outside {s : State} (hs : s.phase = .idle) {a : Nat} (ha : s.cfg.lramBytes ≤ a) (v : Word) :
    memWrite8 a v s = s := by
  simp [memWrite8, State.busy_of_idle hs, Nat.not_lt.mpr ha]

theorem memWrite8_busy {s : State} {w : Word} (hs : s.phase = .busy w) (a : Nat) (v : Word) :
    memWrite8 a v s = dropWrite s := by
  simp [memWrite8, State.busy_of_busy hs]

/-! ### What a read leaves alone (20_memory.md R69; log entry 6) -/

theorem regRead_snd_frame (index : Byte) (s : State) :
    (regRead index s).2 = { s with busyReads := (regRead index s).2.busyReads } := by
  rcases regRead_snd_cases index s with h | ⟨-, h⟩ <;> rw [h]

theorem memRead8_snd_frame (a : Nat) (s : State) :
    (memRead8 a s).2 = { s with busyReads := (memRead8 a s).2.busyReads } := by
  rcases memRead8_snd_cases a s with h | ⟨-, h⟩ <;> rw [h]

theorem regRead_snd_idle {s : State} (hs : s.phase = .idle) (index : Byte) : (regRead index s).2 = s := by
  rcases regRead_snd_cases index s with h | ⟨hb, -⟩
  · exact h
  · exact absurd (State.busy_of_idle hs) (by simp [hb])

theorem memRead8_snd_idle {s : State} (hs : s.phase = .idle) (a : Nat) : (memRead8 a s).2 = s := by
  rcases memRead8_snd_cases a s with h | ⟨hb, -⟩
  · exact h
  · exact absurd (State.busy_of_idle hs) (by simp [hb])

/-- Only the listed indices reach a register whose read during `Busy` is unspecified (10_state.md R48). -/
theorem regAt_specified {index : Byte} (h : index ∉ unspecifiedIndices) {r : Reg} (hr : regAt index = some r) :
    unspecifiedWhileBusy r = false := by
  have table : ∀ r ∈ allRegs, unspecifiedWhileBusy r = true → BitVec.ofNat 8 (regIndex r) ∈ unspecifiedIndices := by
    decide
  have hindex : regIndex r = index.toNat := by simpa using List.find?_some hr
  refine Bool.eq_false_iff.mpr fun hu => h ?_
  simpa [hindex] using table r (List.mem_of_find?_eq_some hr) hu

/-- `STATUS` alone shows the phase (10_state.md R26). -/
theorem State.reg_setPhase {r : Reg} (h : r ≠ .status) (s : State) (p : Phase) :
    ({ s with phase := p } : State).reg r = s.reg r := by
  cases r with
  | status => exact absurd rfl h
  | _ => rfl

/-- A specified read, but that of `STATUS`, is the same in every phase (10_state.md R48). -/
theorem regRead_fst_eq_idle {index : Byte} (h : index ∉ unspecifiedIndices) (hne : index ≠ 0x02#8) (s : State) :
    (regRead index s).1 = (regRead index { s with phase := .idle }).1 := by
  cases hr : regAt index with
  | none => rw [regRead_unmapped hr, regRead_unmapped hr]
  | some r =>
    have hstatus : r ≠ .status := by
      rintro rfl
      exact hne (regAt_unique hr (by decide))
    have hspec := regAt_specified h hr
    rw [regRead_specified hr (.inr hspec), regRead_specified hr (.inr hspec)]
    exact (State.reg_setPhase hstatus s .idle).symm

theorem regRead_snd_specified {index : Byte} (h : index ∉ unspecifiedIndices) (s : State) : (regRead index s).2 = s := by
  cases hr : regAt index with
  | none => rw [regRead_unmapped hr]
  | some r => rw [regRead_specified hr (.inr (regAt_specified h hr))]

end Sys2Proof.Machine
end

section
/-! ## The keystream run of the statements is the run of `GAMMA` (44_gamma.md R190 to R202) -/

namespace Sys2Proof.Machine

open Sys2Proof.Claims

/-- The states that follow the first step (42_lcg.md R150). -/
theorem lcgAfter_lcgStep (a b s k : Nat) : lcgAfter a b (lcgStep a b s) k = lcgAfter a b s (k + 1) := by
  induction k with
  | zero => rfl
  | succ k ih => rw [lcgAfter, ih, ← lcgAfter]

/-- The sum of the draws, as the statements write it (42_lcg.md R152). -/
theorem lcgDraws_sum (a b k s : Nat) : (lcgDraws a b k s).sum = lcgSum a b s k := by
  induction k generalizing s with
  | zero => rfl
  | succ k ih =>
    calc (lcgDraws a b (k + 1) s).sum
      _ = lcgStep a b s + lcgSum a b (lcgStep a b s) k := by rw [lcgDraws, List.sum_cons, ih]
      _ = (∑ i ∈ Finset.range k, lcgAfter a b s (i + 1 + 1)) + lcgAfter a b s 1 := by
        simp only [lcgSum, lcgAfter_lcgStep]
        exact Nat.add_comm _ _
      _ = lcgSum a b s (k + 1) := (Finset.sum_range_succ' (fun i => lcgAfter a b s (i + 1)) k).symm

/-- There is one repair count (43_bbs.md R170). -/
theorem isRepair_eq_repairCount {n seed k : Nat} (h : IsRepair n seed k) (hn : 1 ≤ n) : k = repairCount n seed := by
  obtain ⟨hk, hleast⟩ := h
  obtain ⟨-, hcount, hcountLeast⟩ := repairCount_spec n seed hn
  rcases Nat.lt_trichotomy k (repairCount n seed) with hlt | heq | hgt
  · exact absurd hk (hcountLeast k hlt)
  · exact heq
  · exact absurd hcount (hleast _ hgt)

/-- The state of a fresh generator after `j` squarings, as a power of the repaired seed (43_bbs.md R170, R177). -/
theorem iterate_sqMod_bbsInitial (n seed j : Nat) (hn : 1 ≤ n) :
    (fun y => sqMod y n)^[j] (bbsInitial n seed) = (seed + repairCount n seed) ^ 2 ^ (j + 1) % n := by
  rw [iterate_sqMod n (bbsInitial n seed) j (Nat.mod_lt _ hn), bbsInitial, ← Nat.pow_mod, ← pow_mul, pow_succ' 2 j]

section
variable {a b n s0 rounds : Nat} {st y : Nat → Nat}

/-- Output `j` of a round of a keystream run is that of the model's round from the same LCG state (44_gamma.md R195). -/
theorem keystreamRun_output (h : KeystreamRun a b n s0 rounds st y) (hn : 1 ≤ n) {r j : Nat} (hr : r < rounds)
    (hj : j < 5) :
    y (5 * r + j) = (fun y => sqMod y n)^[j + 1] (bbsInitial n (gammaRound a b n (st r)).seed) := by
  obtain ⟨⟨k, hk, hout⟩, -⟩ := h.2 r hr
  have hseed : (gammaRound a b n (st r)).seed = lcgSum a b (st r) 7 := lcgDraws_sum a b 7 (st r)
  rw [hout j hj, iterate_sqMod_bbsInitial n _ _ hn, hseed, ← isRepair_eq_repairCount hk hn]

/-- The states of a keystream run are the states the model's rounds start from (44_gamma.md R197, R202). -/
theorem keystreamRun_state (h : KeystreamRun a b n s0 rounds st y) (hn : 1 ≤ n) {r : Nat} (hr : r ≤ rounds) :
    st r = gammaState a b n s0 r := by
  induction r with
  | zero => exact h.1
  | succ r ih =>
    rw [(h.2 r hr).2, keystreamRun_output h hn hr (by decide), gammaState_succ, ← ih (by omega), GammaRound.feedback,
      gammaRound_lastOut, Nat.shiftRight_eq_div_pow]
    rfl

end

/-- The outputs of `GAMMA` are those of every keystream run of its key (44_gamma.md R190). -/
theorem gammaWords_getElem?_of_run {s : State} {st y : Nat → Nat} (h : RunOf s st y) (hkey : KeyLoaded s) {i : Nat}
    (hi : i < 5 * roundsFor s.len.toNat) : (gammaWords s)[i]? = some (y i) := by
  obtain ⟨hp, -, hq, -⟩ := hkey
  have hn : 1 ≤ bbsModulus s := Nat.mul_pos hp hq
  have hr : i / 5 < roundsFor s.len.toNat := by omega
  have hj : i % 5 < 5 := Nat.mod_lt _ (by decide)
  have hword := gammaWords_getElem? s (i / 5) (i % 5) (by rwa [gammaCount_eq]) hj
  have hout := keystreamRun_output h hn hr hj
  rw [keystreamRun_state h hn hr.le] at hout
  rw [Nat.div_add_mod] at hword hout
  rw [hword, hout]
  rfl

/-! ### What `GAMMA` writes (44_gamma.md R193, R196, R198) -/

/-- A ready `GAMMA` runs at least one round and completes its effect. -/
theorem exec_gamma_of_ready {audit : Bool} {s : State} (h : GammaReady audit s) :
    exec (.gamma audit) s = .next (complete (gammaEffect audit s)) := by
  obtain ⟨hlen, ⟨hp, hp', hq, hq'⟩, hdst, hadst⟩ := h
  refine conclude_next ((gammaFault_eq_none_iff audit s (gammaCount_ne_zero s hlen)).mpr ⟨?_, ?_, fun ha => ?_⟩) _ _
  · exact (bbsCheck_eq_none_iff s).mpr ⟨⟨hp, hp'⟩, hq, hq'⟩
  · exact (checkRegion_eq_none_iff _ _ _).mpr hdst
  · rw [gammaCount_eq]
    exact (checkRegion_eq_none_iff _ _ _).mpr (hadst ha)

/-- With at least one round, the LRAM after `GAMMA` is the LRAM after its writes. -/
theorem readByte_gammaEffect (audit : Bool) {s : State} (h : s.len.toNat ≠ 0) (x : Nat) :
    (complete (gammaEffect audit s)).readByte x = (gammaWrites audit s).readByte x := by
  rw [gammaEffect, if_neg (gammaCount_ne_zero s h)]
  rfl

/-- Outside the audit region `GAMMA` leaves what it wrote as gamma (44_gamma.md R196). -/
theorem readByte_gammaWrites_outsideAudit {audit : Bool} {s : State} {x : Nat} (h : audit = true → OutsideAudit s x) :
    (gammaWrites audit s).readByte x = (s.writeBits s.dst.toNat (gammaBits s)).readByte x := by
  cases audit with
  | false => rfl
  | true =>
    have hx := h rfl
    rw [OutsideAudit, roundsFor] at hx
    refine readByte_writeBytes_outside _ _ _ _ ?_
    rw [wordBytes_length, gammaWords_length, gammaCount_eq]
    omega

/-- Byte `j` of word `i` of the audit region (44_gamma.md R196). -/
theorem readByte_gammaWrites_audit {s : State} {i j v : Nat} (hv : (gammaWords s)[i]? = some v) (hj : j < 8) :
    (gammaWrites true s).readByte (s.adst.toNat + 8 * i + j) = beByte 8 v j :=
  readByte_words _ _ 8 i j v _ hv hj

/-- Bit `q` of byte `j` of a big-endian word (20_memory.md R62). -/
theorem beByte_getLsbD (w v j : Nat) {q : Nat} (hq : q < 8) :
    (beByte w v j).getLsbD q = v.testBit (8 * (w - 1 - j) + q) := by
  rw [beByte, show 256 = 2 ^ 8 from rfl, ← pow_mul, BitVec.getLsbD_ofNat, Nat.testBit_div_two_pow]
  simp [hq, Nat.add_comm]

/-- A whole byte of the packed gamma is a byte of an output, most significant byte first (20_memory.md R78). -/
theorem readByte_writeBits_gammaBits (s : State) {k v : Nat} (hk : 8 * k + 8 ≤ s.len.toNat)
    (hv : (gammaWords s)[k / 8]? = some v) :
    (s.writeBits s.dst.toNat (gammaBits s)).readByte (s.dst.toNat + k) = beByte 8 v (k % 8) := by
  refine BitVec.eq_of_getLsbD_eq fun q hq => ?_
  have hbit := writeBits_bit s s.dst.toNat (gammaBits s) (8 * k + (7 - q)) (by
    rw [gammaBits_length, ceilDiv]; omega)
  rw [gammaBits_getElem? s (8 * k + (7 - q)) v (by omega) (by rwa [show (8 * k + (7 - q)) / 64 = k / 8 by omega]),
    show (8 * k + (7 - q)) / 8 = k by omega, show 7 - (8 * k + (7 - q)) % 8 = q by omega] at hbit
  rw [beByte_getLsbD 8 v _ hq, show 8 * (8 - 1 - k % 8) + q = 63 - (8 * k + (7 - q)) % 64 by omega]
  exact hbit

/-- A byte of the gamma region that the audit bytes do not win, after a ready `GAMMA` whose length covers it. -/
theorem readByte_gamma_of_ready {audit : Bool} {s : State} {st y : Nat → Nat} (hready : GammaReady audit s)
    (hrun : RunOf s st y) {k : Nat} (hk : 8 * k + 8 ≤ s.len.toNat)
    (hout : audit = true → OutsideAudit s (s.dst.toNat + k)) :
    (complete (gammaEffect audit s)).readByte (s.dst.toNat + k) = beByte 8 (y (k / 8)) (k % 8) := by
  obtain ⟨hlen, hkey, -, -⟩ := hready
  rw [readByte_gammaEffect audit hlen, readByte_gammaWrites_outsideAudit hout]
  exact readByte_writeBits_gammaBits s hk (gammaWords_getElem?_of_run hrun hkey (by rw [roundsFor]; omega))

/-- A byte of the audit region after a ready `GAMMA` with the audit flag. -/
theorem readByte_audit_of_ready {s : State} {st y : Nat → Nat} (hready : GammaReady true s) (hrun : RunOf s st y)
    {k : Nat} (hk : k < 40 * roundsFor s.len.toNat) :
    (complete (gammaEffect true s)).readByte (s.adst.toNat + k) = beByte 8 (y (k / 8)) (k % 8) := by
  obtain ⟨hlen, hkey, -, -⟩ := hready
  have hword := gammaWords_getElem?_of_run hrun hkey (i := k / 8) (by omega)
  have hbyte := readByte_gammaWrites_audit hword (Nat.mod_lt k (by decide))
  rw [Nat.add_assoc, Nat.div_add_mod] at hbyte
  rw [readByte_gammaEffect true hlen, hbyte]

end Sys2Proof.Machine
end

section
/-! ## The statements of 20_memory.md -/

namespace Sys2Proof.MemoryChapter

open Sys2Proof.Machine Sys2Proof.Claims

/-- Settles O25. A read counts at most the model's own free answers, and counts nothing where it is specified. -/
theorem readsHaveNoSideEffects : Obligations.ReadsHaveNoSideEffects := by
  intro s
  refine ⟨fun hs index a => ⟨regRead_snd_idle hs index, memRead8_snd_idle hs a⟩, fun w _ => ⟨?_, ?_, ?_⟩⟩
  · exact fun index _ => regRead_snd_frame index s
  · exact fun index h => ⟨regRead_snd_specified h s, fun hne => regRead_fst_eq_idle h hne s⟩
  · exact fun a => memRead8_snd_frame a s

/-- Settles O26, by the three cases of the byte port; inside the LRAM by the laws of a read after a write. -/
theorem hostBytePort : Obligations.HostBytePort := by
  intro s a v
  refine ⟨fun hs ha => ?_, fun hs ha => ⟨memRead8_outside hs ha, memWrite8_outside hs ha v⟩,
    fun w hs => ⟨memWrite8_busy hs a v, memRead8_busy hs a⟩⟩
  have hwrite := memWrite8_inside hs ha v
  rw [hwrite]
  refine ⟨memRead8_inside hs ha, ?_, fun x hx => readByte_writeBytes_outside s a x _ ?_, rfl⟩
  · have hread : (s.writeBytes a [v.setWidth 8]).readByte a = v.setWidth 8 := readByte_writeBytes_at s a 0 _ _ rfl
    rw [memRead8_inside (s := s.writeBytes a [v.setWidth 8]) hs ha, hread, BitVec.toNat_setWidth]
  · rw [List.length_singleton]; omega

/-- Settles O53. Both regions hold the outputs of the run byte by byte; whole rounds fill the audit region exactly, so
disjoint regions keep the gamma bytes outside it. -/
theorem gammaBytesAreOutputs : Obligations.GammaBytesAreOutputs := by
  intro s st y hlen hrun
  refine ⟨fun audit hready => ⟨_, exec_gamma_of_ready hready, fun k hk hout => ?_⟩,
    fun hready hwhole hdisjoint => ⟨_, exec_gamma_of_ready hready, fun k hk => ?_⟩⟩
  · exact readByte_gamma_of_ready hready hrun (by omega) hout
  · have hsize : 40 * roundsFor s.len.toNat = s.len.toNat / 8 := by rw [roundsFor]; omega
    have hout : OutsideAudit s (s.dst.toNat + k) := by rw [OutsideAudit, hsize]; omega
    rw [readByte_gamma_of_ready hready hrun (by omega) fun _ => hout, readByte_audit_of_ready hready hrun (by omega)]

end Sys2Proof.MemoryChapter
end

section
/-! ## The decoder, answer by answer (30_encoding.md R80, R81, R84, R85) -/

namespace Sys2Proof

open Sys2Proof.Claims

/-! ### What `decode` answers -/

theorem field_lt (v lo width : Nat) : field v lo width < 2 ^ width := Nat.mod_lt _ (Nat.two_pow_pos width)

/-- The first check of 30_encoding.md R85. -/
theorem decode_highHalf {v : Word} (h : 2 ^ 32 ≤ v.toNat) : decode v = .error .highHalf := by
  have hv := v.isLt
  refine if_pos ?_
  rw [field_eq]
  omega

section
variable {v : Word} (h : v.toNat < 2 ^ 32)
include h

theorem field_highHalf_of_lt : field v.toNat 32 32 = 0 := by
  rw [field_eq]
  omega

theorem field_opcode_of_lt : field v.toNat 24 8 = v.toNat / 2 ^ 24 := by
  rw [field_eq]
  omega

/-- The second check: the opcode has no row. -/
theorem decode_unassigned (hrow : opcodeRow (v.toNat / 2 ^ 24) = none) : decode v = .error .opcode := by
  rw [← field_opcode_of_lt h] at hrow
  simp [decode, field_highHalf_of_lt h, hrow]

variable {fmt : Format} {make : Nat → Bool → Instr} (hrow : opcodeRow (v.toNat / 2 ^ 24) = some (fmt, make))
include hrow

/-- The third check: the row's format reserves a field that is not 0. -/
theorem decode_reserved (hres : reservedNonzero fmt (field v.toNat 16 8) (field v.toNat 0 16) ≠ false) :
    decode v = .error .reservedField := by
  rw [← field_opcode_of_lt h] at hrow
  simp [decode, field_highHalf_of_lt h, hrow, hres]

/-- All checks passed: the command that the row makes of the fields. -/
theorem decode_legal (hres : reservedNonzero fmt (field v.toNat 16 8) (field v.toNat 0 16) = false) :
    decode v = .ok (make (field v.toNat 0 16) (v.toNat.testBit 16)) := by
  rw [← field_opcode_of_lt h] at hrow
  simp [decode, field_highHalf_of_lt h, hrow, hres]

end

/-! ### The opcode map and the encoder, format by format (30_encoding.md R81, R84) -/

theorem opcodeRow_zOpcode {opc : Nat} (h : opc ∈ zOpcodes) : ∃ make, opcodeRow opc = some (.z, make) := by
  simp only [zOpcodes, List.mem_cons, List.not_mem_nil, or_false] at h
  rcases h with rfl | rfl | rfl | rfl | rfl | rfl <;> exact ⟨_, rfl⟩

theorem opcodeRow_iOpcode {opc : Nat} (h : opc ∈ iOpcodes) : ∃ make, opcodeRow opc = some (.i, make) := by
  simp only [iOpcodes, List.mem_cons, List.not_mem_nil, or_false] at h
  rcases h with rfl | rfl | rfl | rfl <;> exact ⟨_, rfl⟩

/-- All a row of the map can be: which opcodes it has, and what the encoder gives for the commands it makes. -/
theorem opcodeRow_some_cases {opc : Nat} {fmt : Format} {make : Nat → Bool → Instr}
    (h : opcodeRow opc = some (fmt, make)) :
    (fmt = .z ∧ opc ∈ zOpcodes ∧
      ∀ imm a, (make imm a).count = none ∧ encodeFields (make imm a) = (opc, 0, 0)) ∨
    (fmt = .i ∧ opc ∈ iOpcodes ∧
      ∀ imm a, (make imm a).count = some imm ∧ encodeFields (make imm a) = (opc, 0, imm)) ∨
    (fmt = .g ∧ opc = 0x50 ∧
      ∀ imm a, (make imm a).count = none ∧ encodeFields (make imm a) = (opc, a.toNat, 0)) := by
  unfold opcodeRow at h
  split at h <;> cases h <;> simp [zOpcodes, iOpcodes, Instr.count, encodeFields]

theorem opcodeRow_unassigned {opc : Nat} (hz : opc ∉ zOpcodes) (hi : opc ∉ iOpcodes) (hg : opc ≠ 0x50) :
    opcodeRow opc = none := by
  refine Option.eq_none_iff_forall_ne_some.mpr fun row hrow => ?_
  rcases opcodeRow_some_cases hrow with ⟨-, h, -⟩ | ⟨-, h, -⟩ | ⟨-, h, -⟩
  · exact hz h
  · exact hi h
  · exact hg h

/-- The row of a command's opcode accepts the command's fields and makes the command of them. -/
theorem opcodeRow_encodeFields (i : Instr) :
    ∃ fmt make, opcodeRow (encodeFields i).1 = some (fmt, make) ∧
      reservedNonzero fmt (encodeFields i).2.1 (encodeFields i).2.2 = false ∧
      make (encodeFields i).2.2 ((encodeFields i).2.1.testBit 0) = i := by
  cases i with
  | gamma audit => cases audit <;> exact ⟨_, _, rfl, rfl, rfl⟩
  | _ => exact ⟨_, _, rfl, rfl, rfl⟩

/-! ### The fields that a format reserves (30_encoding.md R81) -/

theorem reservedNonzero_z_eq_false_iff (flg imm : Nat) : reservedNonzero .z flg imm = false ↔ flg = 0 ∧ imm = 0 := by
  simp [reservedNonzero]

theorem reservedNonzero_i_eq_false_iff (flg imm : Nat) : reservedNonzero .i flg imm = false ↔ flg = 0 := by
  simp [reservedNonzero]

/-- Format G uses bit 0 of `FLG` alone. -/
theorem reservedNonzero_g_eq_false_iff {flg : Nat} (h : flg < 2 ^ 8) (imm : Nat) :
    reservedNonzero .g flg imm = false ↔ flg < 2 ∧ imm = 0 := by
  simp only [reservedNonzero, field_eq, Bool.or_eq_false_iff, bne_eq_false_iff_eq]
  omega

/-- The flag `A` is bit 0 of the field `FLG` (30_encoding.md R83). -/
theorem testBit_sixteen (n : Nat) : n.testBit 16 = (field n 16 8).testBit 0 := by
  rw [field_eq, Nat.testBit_mod_two_pow, Nat.testBit_div_two_pow]
  rfl

theorem toNat_testBit_zero {n : Nat} (h : n < 2) : (n.testBit 0).toNat = n := by
  rw [Nat.toNat_testBit]
  omega

/-- A command that a row makes of fields it accepts has these fields, and a count that fits `IMM`. -/
theorem encodeFields_of_opcodeRow {opc flg imm : Nat} {fmt : Format} {make : Nat → Bool → Instr}
    (hrow : opcodeRow opc = some (fmt, make)) (hflg : flg < 2 ^ 8) (himm : imm < 2 ^ 16)
    (hres : reservedNonzero fmt flg imm = false) :
    (make imm (flg.testBit 0)).wellFormed = true ∧ encodeFields (make imm (flg.testBit 0)) = (opc, flg, imm) := by
  rcases opcodeRow_some_cases hrow with ⟨rfl, -, hmake⟩ | ⟨rfl, -, hmake⟩ | ⟨rfl, -, hmake⟩
  · obtain ⟨hcount, hfields⟩ := hmake imm (flg.testBit 0)
    obtain ⟨rfl, rfl⟩ := (reservedNonzero_z_eq_false_iff flg imm).mp hres
    exact ⟨by rw [Instr.wellFormed, hcount]; rfl, hfields⟩
  · obtain ⟨hcount, hfields⟩ := hmake imm (flg.testBit 0)
    obtain rfl := (reservedNonzero_i_eq_false_iff flg imm).mp hres
    exact ⟨by rw [Instr.wellFormed, hcount]; exact decide_eq_true himm, hfields⟩
  · obtain ⟨hcount, hfields⟩ := hmake imm (flg.testBit 0)
    obtain ⟨hbit, rfl⟩ := (reservedNonzero_g_eq_false_iff hflg imm).mp hres
    rw [toNat_testBit_zero hbit] at hfields
    exact ⟨by rw [Instr.wellFormed, hcount]; rfl, hfields⟩

/-! ### The two directions of the code -/

/-- Decoding the value that issues a well-formed command gives the command (30_encoding.md R80, R84, R85). -/
theorem decode_commandValue {i : Instr} (h : i.wellFormed = true) : decode (commandValue i) = .ok i := by
  obtain ⟨fmt, make, hrow, hres, hmake⟩ := opcodeRow_encodeFields i
  obtain ⟨hopcBound, hflgBound, himmBound⟩ := encodeFields_bounds i h
  have hv := commandValue_toNat i h
  have hopc : (commandValue i).toNat / 2 ^ 24 = (encodeFields i).1 := by omega
  have hflg : field (commandValue i).toNat 16 8 = (encodeFields i).2.1 := by rw [field_eq]; omega
  have himm : field (commandValue i).toNat 0 16 = (encodeFields i).2.2 := by rw [field_eq]; omega
  rw [decode_legal (by omega) (hopc ▸ hrow) (by rw [hflg, himm, hres]), testBit_sixteen, hflg, himm, hmake]

/-- A value that decodes is the value that issues a well-formed command, and has no other bit (30_encoding.md R87). -/
theorem eq_commandValue_of_decode {v : Word} {i : Instr} (h : decode v = .ok i) :
    i.wellFormed = true ∧ v = commandValue i := by
  obtain ⟨hhigh, fmt, make, hrow, hres, rfl⟩ := decode_ok_cases h
  obtain ⟨hwf, hfields⟩ := encodeFields_of_opcodeRow hrow (field_lt _ _ _) (field_lt _ _ _) hres
  rw [← testBit_sixteen] at hwf hfields
  refine ⟨hwf, BitVec.eq_of_toNat_eq ?_⟩
  rw [commandValue_toNat _ hwf, hfields]
  simp only [field_eq] at hhigh ⊢
  omega

end Sys2Proof
end

section
/-! ## What each command's effect can write (30_encoding.md R92) -/

namespace Sys2Proof.Machine

section
variable (found : Option (Nat × Nat)) (s : State)

/-- All that the effect of `PRIME_GEN` can change, its draws aside (41_primality.md R127). -/
theorem primeGenEffect_frame :
    primeGenEffect found s = { s with res0 := (primeGenEffect found s).res0, res1 := (primeGenEffect found s).res1 } := by
  cases found <;> rfl

@[simp] theorem primeGenEffect_lcgS : (primeGenEffect found s).lcgS = s.lcgS := by rw [primeGenEffect_frame]
@[simp] theorem primeGenEffect_bbsN : (primeGenEffect found s).bbsN = s.bbsN := by rw [primeGenEffect_frame]
@[simp] theorem primeGenEffect_bbsX : (primeGenEffect found s).bbsX = s.bbsX := by rw [primeGenEffect_frame]
@[simp] theorem primeGenEffect_lram : (primeGenEffect found s).lram = s.lram := by rw [primeGenEffect_frame]

end

@[simp] theorem gammaEffect_entropy (audit : Bool) (s : State) : (gammaEffect audit s).entropy = s.entropy := by
  rw [gammaEffect_frame]

section
variable (i : Instr) (s : State)

@[simp] theorem afterDraws_lcgS : (afterDraws i s).lcgS = s.lcgS := by rw [afterDraws_frame]
@[simp] theorem afterDraws_bbsN : (afterDraws i s).bbsN = s.bbsN := by rw [afterDraws_frame]
@[simp] theorem afterDraws_bbsX : (afterDraws i s).bbsX = s.bbsX := by rw [afterDraws_frame]
@[simp] theorem afterDraws_lram : (afterDraws i s).lram = s.lram := by rw [afterDraws_frame]

/-- The one command that can have drawn when it takes its fault (60_exceptions.md R215). -/
theorem afterDraws_entropy_cases : (afterDraws i s).entropy = s.entropy ∨ ∃ rounds, i = .primeGen rounds := by
  cases i with
  | primeGen rounds => exact .inr ⟨rounds, rfl⟩
  | _ => exact .inl rfl

/-- The commands that draw (10_state.md R50). -/
theorem commandEffect_entropy_cases :
    (commandEffect i s).entropy = s.entropy ∨ ∃ n, i = .mrTest n ∨ i = .primeGen n := by
  cases i with
  | mrTest rounds => exact .inr ⟨rounds, .inl rfl⟩
  | primeGen rounds => exact .inr ⟨rounds, .inr rfl⟩
  | gamma audit => exact .inl (gammaEffect_entropy audit s)
  | _ => exact .inl rfl

/-- The commands that write the LRAM (20_memory.md R60). -/
theorem commandEffect_lram_cases :
    (commandEffect i s).lram = s.lram ∨
      i = .enc7 ∨ i = .dec7 ∨ (∃ n, i = .lcgGenn n ∨ i = .bbsOut n) ∨ ∃ a, i = .gamma a := by
  cases i with
  | enc7 => exact .inr (.inl rfl)
  | dec7 => exact .inr (.inr (.inl rfl))
  | lcgGenn n => exact .inr (.inr (.inr (.inl ⟨n, .inl rfl⟩)))
  | bbsOut n => exact .inr (.inr (.inr (.inl ⟨n, .inr rfl⟩)))
  | gamma audit => exact .inr (.inr (.inr (.inr ⟨audit, rfl⟩)))
  | primeGen rounds => exact .inl (primeGenEffect_lram _ _)
  | _ => exact .inl rfl

/-- The commands that write `LCG_S` (10_state.md R38, 42_lcg.md R154). -/
theorem commandEffect_lcgS_cases :
    (commandEffect i s).lcgS = s.lcgS ∨ i = .lcgNext ∨ (∃ n, i = .lcgGenn n) ∨ ∃ a, i = .gamma a := by
  cases i with
  | lcgNext => exact .inr (.inl rfl)
  | lcgGenn n => exact .inr (.inr (.inl ⟨n, rfl⟩))
  | gamma audit => exact .inr (.inr (.inr ⟨audit, rfl⟩))
  | primeGen rounds => exact .inl (primeGenEffect_lcgS _ _)
  | _ => exact .inl rfl

/-- The commands that write `BBS_X` (10_state.md R40, 43_bbs.md R176). -/
theorem commandEffect_bbsX_cases :
    (commandEffect i s).bbsX = s.bbsX ∨
      i = .bbsInit ∨ i = .bbsNext ∨ (∃ n, i = .bbsOut n) ∨ ∃ a, i = .gamma a := by
  cases i with
  | bbsInit => exact .inr (.inl rfl)
  | bbsNext => exact .inr (.inr (.inl rfl))
  | bbsOut n => exact .inr (.inr (.inr (.inl ⟨n, rfl⟩)))
  | gamma audit => exact .inr (.inr (.inr (.inr ⟨audit, rfl⟩)))
  | primeGen rounds => exact .inl (primeGenEffect_bbsX _ _)
  | _ => exact .inl rfl

/-- The commands that write `BBS_N` (10_state.md R40). -/
theorem commandEffect_bbsN_cases :
    (commandEffect i s).bbsN = s.bbsN ∨ i = .bbsInit ∨ ∃ a, i = .gamma a := by
  cases i with
  | bbsInit => exact .inr (.inl rfl)
  | gamma audit => exact .inr (.inr ⟨audit, rfl⟩)
  | primeGen rounds => exact .inl (primeGenEffect_bbsN _ _)
  | _ => exact .inl rfl

end

end Sys2Proof.Machine
end

section
/-! ## The operations of the host program, as equations (30_encoding.md R89) -/

namespace Sys2Proof.Machine

/-- No access to the unit writes the host agent. -/
theorem HostEffect.host {s u : State} (h : HostEffect s u) : u.host = s.host := by
  cases h with
  | operand r v => exact writeOperand_host r v s
  | _ => rfl

theorem step_of_hostOperation {s : State} (hturn : nextTurn s = .host) {op : HostOp}
    (hop : s.host.program[s.host.pc]? = some op) : step s = .next (hostOperation op (popTurn s)) := by
  rw [step_of_host hturn, hostStep, popTurn_host, hop]

theorem step_of_hostEnded {s : State} (hturn : nextTurn s = .host) (hend : s.host.program[s.host.pc]? = none) :
    step s = .next (popTurn s) := by
  rw [step_of_host hturn, hostStep, popTurn_host, hend]

/-- After an access without a value the host goes on, its `t` as it was. -/
theorem hostGoto_of_hostEffect {s u : State} (h : HostEffect s u) (pc : Nat) :
    hostGoto pc u = { u with host := ⟨s.host.program, pc, s.host.t⟩ } := by
  rw [hostGoto, h.host]

/-- After a read the host goes on with the value in `t`. -/
theorem hostGoto_hostTakes_of_hostEffect {s : State} {r : Word × State} (h : HostEffect s r.2) (pc : Nat) :
    hostGoto pc (hostTakes r) = { r.2 with host := ⟨s.host.program, pc, r.1⟩ } := by
  rw [hostGoto, hostTakes, h.host]

end Sys2Proof.Machine
end

section
/-! ## The statements of 30_encoding.md -/

namespace Sys2Proof.EncodingChapter

open Sys2Proof.Machine Sys2Proof.Claims

/-- Settles O1. The row of the command's opcode makes the command of the very fields the encoder placed. -/
theorem decodeOfEncodedCommand : Obligations.DecodeOfEncodedCommand := fun _ h => decode_commandValue h

/-- Settles O2. The fields a row accepts are the encoder's fields of the command it makes, and they are all of the value. -/
theorem legalValueIsOneCommand : Obligations.LegalValueIsOneCommand := fun _ _ h => eq_commandValue_of_decode h

/-- Settles O3, check by check. In the last three clauses the row is known, and the reserved field would be 0 if the
decoder accepted it. -/
theorem illegalReasons : Obligations.IllegalReasons := by
  intro v
  refine ⟨decode_highHalf, fun hv hz hi hg => ?_, fun hv hz hres => ?_, fun hv hi hres => ?_, fun hv hg hres hA => ?_⟩
  · exact decode_unassigned hv (opcodeRow_unassigned hz hi hg)
  · obtain ⟨make, hrow⟩ := opcodeRow_zOpcode hz
    refine decode_reserved hv hrow fun hzero => hres ?_
    obtain ⟨hflg, himm⟩ := (reservedNonzero_z_eq_false_iff _ _).mp hzero
    rw [field_eq] at hflg himm
    omega
  · obtain ⟨make, hrow⟩ := opcodeRow_iOpcode hi
    refine decode_reserved hv hrow fun hzero => hres ?_
    exact field_eq v.toNat 16 8 ▸ (reservedNonzero_i_eq_false_iff _ _).mp hzero
  · have hrow : opcodeRow (v.toNat / 2 ^ 24) = some (.g, fun _ a => .gamma a) := by rw [hg]; rfl
    refine decode_reserved hv hrow fun hzero => ?_
    obtain ⟨hflg, himm⟩ := (reservedNonzero_g_eq_false_iff (field_lt _ _ _) _).mp hzero
    rw [field_eq] at hflg himm
    omega

/-- Settles O57. A fault leaves all but the draws, the effect leaves what its frame says, and the two ends of a command
write the rest of what the statement names. -/
theorem commandsLeaveOperandsAlone : Obligations.CommandsLeaveOperandsAlone := by
  intro i s t hexec
  rcases exec_cases hexec with ⟨f, -, rfl⟩ | ⟨-, rfl⟩
  · rw [afterDraws_frame]
    rfl
  · rw [commandEffect_frame]
    rfl

/-- Settles O58. A fault changes none of the shared resources but the draws; an effect changes each only for the commands
named. -/
theorem onlyNamedCommandsWrite : Obligations.OnlyNamedCommandsWrite := by
  intro i s t hexec
  rcases exec_cases hexec with ⟨f, -, rfl⟩ | ⟨-, rfl⟩
  · have hdraws := afterDraws_entropy_cases i s
    exact ⟨fun h => (hdraws.resolve_left h).imp fun _ => .inr, fun h => absurd (afterDraws_lram i s) h,
      fun h => absurd (afterDraws_lcgS i s) h, fun h => absurd (afterDraws_bbsX i s) h,
      fun h => absurd (afterDraws_bbsN i s) h⟩
  · exact ⟨(commandEffect_entropy_cases i s).resolve_left, (commandEffect_lram_cases i s).resolve_left,
      (commandEffect_lcgS_cases i s).resolve_left, (commandEffect_bbsX_cases i s).resolve_left,
      (commandEffect_bbsN_cases i s).resolve_left⟩

/-- Settles O4, by evaluating the decoder on the eight words. -/
theorem writtenWordsDecode : Obligations.WrittenWordsDecode := by
  unfold Obligations.WrittenWordsDecode
  decide

/-- Settles O6. The high half is the decoder's first check, and a value that does not decode takes the fault (O5). -/
theorem highHalfIsIllegal : Obligations.HighHalfIsIllegal := by
  intro s v hphase hturn hhigh
  have hdecode : decode v = .error .highHalf := decode_highHalf (by omega)
  obtain ⟨-, hsequencer⟩ := StateChapter.stepRunsDecodedCommand s v hphase
  rw [(hsequencer hturn).2 _ hdecode, faulted, BitVec.ofNat_toNat, BitVec.setWidth_eq]
  rfl

/-- Settles O27. The step is the operation at the host's pc, whose access to the unit leaves the host agent alone. -/
theorem hostProgramRuns : Obligations.HostProgramRuns := by
  rintro s u hturn rfl
  refine ⟨step_of_hostEnded hturn, step_of_hostOperation hturn, fun index hop => ?_, fun index mask label hop => ?_,
    fun index mask label hop => ?_, fun index v hop => ?_, fun i hop => ?_, fun a hop => ?_, fun a v hop => ?_⟩ <;>
    rw [step_of_hostOperation hturn hop, hostOperation]
  · rw [hostGoto_hostTakes_of_hostEffect (regRead_hostEffect index _)]
    rfl
  · rw [hostGoto_hostTakes_of_hostEffect (regRead_hostEffect index _), ite_not]
    rfl
  · rw [hostGoto_hostTakes_of_hostEffect (regRead_hostEffect index _)]
    rfl
  · rw [hostGoto_of_hostEffect (regWrite_hostEffect index v _)]
    rfl
  · rw [hostGoto_of_hostEffect (regWrite_hostEffect _ _ _)]
    rfl
  · rw [hostGoto_hostTakes_of_hostEffect (memRead8_hostEffect a _)]
    rfl
  · rw [hostGoto_of_hostEffect (memWrite8_hostEffect a v _)]
    rfl

end Sys2Proof.EncodingChapter
end

section
/-! ## The codec: which fault its checks name, and the bits it writes (40_codec.md R100 to R104) -/

namespace Sys2Proof.Machine

open Sys2Proof.Claims

/-! ### The two ends of a command, in the words of the statements -/

/-- A check that fails ends the command in its fault (60_exceptions.md R214). -/
theorem exec_of_commandFault_some {i : Instr} {s : State} {f : FaultInfo} (h : commandFault i s = some f) :
    exec i s = .next (faulted f.cause f.info0 f.info1 (afterDraws i s)) := by
  rw [exec_eq_conclude, h]
  rfl

/-- Where no check fails, the command completes its effect (60_exceptions.md R217). -/
theorem exec_of_commandFault_none {i : Instr} {s : State} (h : commandFault i s = none) :
    exec i s = .next (finished (commandEffect i s)) := by
  rw [exec_eq_conclude, h]
  rfl

theorem checkRegion_of_inLram {s : State} {a len : Nat} (h : InLram s a len) : checkRegion s.cfg a len = none :=
  (checkRegion_eq_none_iff _ _ _).mpr h

theorem checkRegion_of_not_inLram {s : State} {a len : Nat} (h : ¬InLram s a len) :
    checkRegion s.cfg a len = some ⟨.addressRange, a, len⟩ :=
  checkRegion_eq_some _ _ _ h

/-- The statements count the bytes of a bitstring as the rules do (20_memory.md R63). -/
theorem ceilDiv_eight (nbits : Nat) : ceilDiv nbits 8 = bytesFor nbits := rfl

/-- Only the size of the LRAM decides whether a region lies in it (20_memory.md R65). -/
theorem inLram_congr {s t : State} (h : t.cfg = s.cfg) {a len : Nat} : InLram t a len ↔ InLram s a len := by
  rw [InLram, InLram, h]

/-! ### The checks of `ENC7` (40_codec.md R101) -/

section
variable {s : State}

theorem enc7Fault_source (hsrc : ¬InLram s s.src.toNat s.len.toNat) :
    enc7Fault s = some ⟨.addressRange, s.src.toNat, s.len.toNat⟩ := by
  rw [enc7Fault, checkRegion_of_not_inLram hsrc]
  rfl

theorem enc7Fault_destination (hsrc : InLram s s.src.toNat s.len.toNat)
    (hdst : ¬InLram s s.dst.toNat (bytesFor (7 * s.len.toNat))) :
    enc7Fault s = some ⟨.addressRange, s.dst.toNat, bytesFor (7 * s.len.toNat)⟩ := by
  rw [enc7Fault, ceilDiv_eight, checkRegion_of_inLram hsrc, checkRegion_of_not_inLram hdst]
  rfl

/-- Between regions of the LRAM only the symbols can be at fault. -/
theorem enc7Fault_of_regions (hsrc : InLram s s.src.toNat s.len.toNat)
    (hdst : InLram s s.dst.toNat (bytesFor (7 * s.len.toNat))) : enc7Fault s = symbolFault 0 (enc7Input s) := by
  rw [enc7Fault, ceilDiv_eight, checkRegion_of_inLram hsrc, checkRegion_of_inLram hdst]
  rfl

theorem enc7Input_getElem? {i : Nat} (hi : i < s.len.toNat) :
    (enc7Input s)[i]? = some (s.readByte (s.src.toNat + i)) :=
  readBytes_getElem? _ _ _ _ hi

@[simp] theorem enc7Input_length : (enc7Input s).length = s.len.toNat := readBytes_length _ _ _

theorem symbolFault_enc7Input_eq_none (hsyms : ∀ i, i < s.len.toNat → (s.readByte (s.src.toNat + i)).toNat ≤ 127) :
    symbolFault 0 (enc7Input s) = none := by
  refine symbolFault_eq_none 0 _ fun c hc => ?_
  obtain ⟨i, hi, rfl⟩ := List.mem_iff_getElem.mp hc
  have hlt : i < s.len.toNat := by simpa using hi
  have hget := enc7Input_getElem? hlt
  rw [List.getElem?_eq_getElem hi] at hget
  rw [Option.some.inj hget]
  exact hsyms i hlt

/-- The byte reported is the lowest one above 127. -/
theorem symbolFault_enc7Input_eq_some {i : Nat} (hi : i < s.len.toNat)
    (hbad : 127 < (s.readByte (s.src.toNat + i)).toNat)
    (hbefore : ∀ j, j < i → (s.readByte (s.src.toNat + j)).toNat ≤ 127) :
    symbolFault 0 (enc7Input s) = some ⟨.outOfRangeSymbol, (s.readByte (s.src.toNat + i)).toNat, i⟩ := by
  have hfault := symbolFault_eq_some 0 i (enc7Input s) _ (enc7Input_getElem? hi) hbad fun j d hj hd => by
    rw [enc7Input_getElem? (hj.trans hi)] at hd
    rw [← Option.some.inj hd]
    exact hbefore j hj
  rwa [Nat.zero_add] at hfault

/-! ### The checks of `DEC7` (40_codec.md R102) -/

theorem dec7Fault_length (hlen : s.len.toNat % 7 ≠ 0) :
    dec7Fault s = some ⟨.misalignedLength, s.len.toNat, 0⟩ := by
  rw [dec7Fault, if_neg hlen]
  rfl

theorem dec7Fault_source (hlen : s.len.toNat % 7 = 0) (hsrc : ¬InLram s s.src.toNat (bytesFor s.len.toNat)) :
    dec7Fault s = some ⟨.addressRange, s.src.toNat, bytesFor s.len.toNat⟩ := by
  rw [dec7Fault, if_pos hlen, ceilDiv_eight, checkRegion_of_not_inLram hsrc]
  rfl

/-- A whole number of symbols from a source in the LRAM leaves the check of the destination. -/
theorem dec7Fault_of_source (hlen : s.len.toNat % 7 = 0) (hsrc : InLram s s.src.toNat (bytesFor s.len.toNat)) :
    dec7Fault s = checkRegion s.cfg s.dst.toNat (s.len.toNat / 7) := by
  rw [dec7Fault, if_pos hlen, ceilDiv_eight, checkRegion_of_inLram hsrc]
  rfl

end

/-! ### Bitstrings, bit by bit (20_memory.md R63) -/

/-- Bit `k` of what `WriteBits` wrote: the bitstring, then zero pad bits. -/
theorem bitAt_writeBits (s : State) (a : Nat) (bits : List Bool) {k : Nat} (hk : k < 8 * bytesFor bits.length) :
    bitAt (s.writeBits a bits) a k = (bits[k]?).getD false :=
  writeBits_bit s a bits k hk

theorem readBits_getElem?_eq_bitAt (s : State) (a : Nat) {nbits k : Nat} (hk : k < nbits) :
    (s.readBits a nbits)[k]? = some (bitAt s a k) :=
  readBits_getElem? s a nbits k hk

/-! ### What `ENC7` writes (40_codec.md R101) -/

theorem enc7Effect_bit (s : State) {i j : Nat} (hi : i < s.len.toNat) (hj : j < 7) :
    bitAt (enc7Effect s) s.dst.toNat (7 * i + j) = (s.readByte (s.src.toNat + i)).toNat.testBit (6 - j) := by
  have hwritten := bitAt_writeBits s s.dst.toNat (symbolBits (enc7Input s)) (k := 7 * i + j) (by
    rw [symbolBits_length, enc7Input_length, bytesFor]; omega)
  rw [symbolBits_getElem? _ i j _ (enc7Input_getElem? hi) hj] at hwritten
  exact hwritten

theorem enc7Effect_pad (s : State) {k : Nat} (hlow : 7 * s.len.toNat ≤ k) (hk : k < 8 * bytesFor (7 * s.len.toNat)) :
    bitAt (enc7Effect s) s.dst.toNat k = false := by
  have hwritten := bitAt_writeBits s s.dst.toNat (symbolBits (enc7Input s)) (k := k) (by simpa using hk)
  rw [List.getElem?_eq_none (by simpa using hlow)] at hwritten
  exact hwritten

theorem enc7Effect_outside (s : State) {x : Nat}
    (hx : x < s.dst.toNat ∨ s.dst.toNat + bytesFor (7 * s.len.toNat) ≤ x) :
    (enc7Effect s).readByte x = s.readByte x := by
  refine readByte_writeBits_outside s s.dst.toNat (symbolBits (enc7Input s)) x ?_
  rwa [symbolBits_length, enc7Input_length, ceilDiv_eight]

/-! ### What `DEC7` writes (40_codec.md R102) -/

/-- Every 7-bit group is a legal symbol. -/
theorem groupSymbols_toNat_le {k i : Nat} {bits : List Bool} {c : Byte} (hc : (groupSymbols k bits)[i]? = some c) :
    c.toNat ≤ 127 := by
  have hi : i < k := by simpa using (List.getElem?_eq_some_iff.mp hc).1
  rw [groupSymbols_getElem? k bits i hi] at hc
  obtain ⟨hvalue, hle⟩ := group_toNat (bits.drop (7 * i))
  rw [← Option.some.inj hc, hvalue]
  exact hle

theorem dec7Output_getElem? (s : State) {k : Nat} (hk : k < s.len.toNat / 7) :
    (dec7Output s)[k]? = some ((dec7Effect s).readByte (s.dst.toNat + k)) := by
  have hlen : k < (dec7Output s).length := by rwa [dec7Output, groupSymbols_length]
  have hget := List.getElem?_eq_getElem hlen
  rw [hget, ← readByte_writeBytes_at s s.dst.toNat k _ _ hget]
  rfl

theorem dec7Effect_symbol_le (s : State) {k : Nat} (hk : k < s.len.toNat / 7) :
    ((dec7Effect s).readByte (s.dst.toNat + k)).toNat ≤ 127 :=
  groupSymbols_toNat_le (dec7Output_getElem? s hk)

/-- The codes of the symbols written are the input, so the bits of symbol `k` are the bits of group `k`. -/
theorem dec7Effect_bit (s : State) (hlen : s.len.toNat % 7 = 0) {k j : Nat} (hk : k < s.len.toNat / 7) (hj : j < 7) :
    ((dec7Effect s).readByte (s.dst.toNat + k)).toNat.testBit (6 - j) = bitAt s s.src.toNat (7 * k + j) := by
  have hcodes : symbolBits (dec7Output s) = s.readBits s.src.toNat s.len.toNat :=
    symbolBits_groupSymbols _ _ (by rw [readBits_length]; omega)
  have hbit := symbolBits_getElem? _ k j _ (dec7Output_getElem? s hk) hj
  rw [hcodes, readBits_getElem?_eq_bitAt s _ (by omega)] at hbit
  exact (Option.some.inj hbit).symm

theorem dec7Effect_outside (s : State) {x : Nat} (hx : x < s.dst.toNat ∨ s.dst.toNat + s.len.toNat / 7 ≤ x) :
    (dec7Effect s).readByte x = s.readByte x := by
  refine readByte_writeBytes_outside s s.dst.toNat x (dec7Output s) ?_
  rwa [dec7Output, groupSymbols_length]

/-! ### Lengths and symbols -/

/-- A natural that fits a register is read back from it (10_state.md R22). -/
theorem word_toNat_ofNat {v : Nat} (h : v < 2 ^ 64) : (BitVec.ofNat 64 v).toNat = v := by
  rw [BitVec.toNat_ofNat, Nat.mod_eq_of_lt h]

/-- The bits of a region's symbols can be counted in a register (00_scope.md R6). -/
theorem seven_mul_len_lt {s : State} (hwf : s.cfg.wf) {a : Nat} (h : InLram s a s.len.toNat) :
    7 * s.len.toNat < 2 ^ 64 := by
  obtain ⟨-, hsize⟩ := hwf
  rcases h with h | h <;> omega

/-- Two legal symbols with the same seven code bits are one symbol (40_codec.md R100). -/
theorem symbol_eq_of_testBit {b c : Byte} (hb : b.toNat ≤ 127) (hc : c.toNat ≤ 127)
    (h : ∀ j, j < 7 → b.toNat.testBit (6 - j) = c.toNat.testBit (6 - j)) : b = c := by
  refine BitVec.eq_of_toNat_eq (Nat.eq_of_testBit_eq fun q => ?_)
  rcases Nat.lt_or_ge q 7 with hq | hq
  · have hcode := h (6 - q) (by omega)
    rwa [show 6 - (6 - q) = q by omega] at hcode
  · have hpow : 2 ^ 7 ≤ 2 ^ q := Nat.pow_le_pow_right (by decide) hq
    rw [Nat.testBit_lt_two_pow (by omega), Nat.testBit_lt_two_pow (by omega)]

end Sys2Proof.Machine
end

section
/-! ## The statements of 40_codec.md -/

namespace Sys2Proof.CodecChapter

open Sys2Proof.Machine Sys2Proof.Claims

/-- Settles O29. The checks pass, and the packed codes of the symbols are what the effect writes. -/
theorem enc7WritesSymbolCodes : Obligations.Enc7WritesSymbolCodes := by
  intro s hwf hsrc hdst hsyms
  have hpass : enc7Fault s = none := by rw [enc7Fault_of_regions hsrc hdst, symbolFault_enc7Input_eq_none hsyms]
  refine ⟨finished (enc7Effect s), exec_of_commandFault_none hpass, rfl, ?_, fun i j => enc7Effect_bit s,
    fun k => enc7Effect_pad s, fun x => enc7Effect_outside s⟩
  exact word_toNat_ofNat (seven_mul_len_lt hwf hsrc)

/-- Settles O30, check by check in their order. -/
theorem enc7FaultsInOrder : Obligations.Enc7FaultsInOrder := by
  refine fun s => ⟨fun hsrc => ?_, fun hsrc hdst => ?_, fun hsrc hdst i hi hbad hbefore => ?_⟩
  · exact exec_of_commandFault_some (i := .enc7) (enc7Fault_source hsrc)
  · exact exec_of_commandFault_some (i := .enc7) (enc7Fault_destination hsrc hdst)
  · have hfault := symbolFault_enc7Input_eq_some hi hbad hbefore
    rw [← enc7Fault_of_regions hsrc hdst] at hfault
    exact exec_of_commandFault_some (i := .enc7) hfault

/-- Settles O31. The checks pass, and the codes of the symbols written are the input bitstring. -/
theorem dec7WritesSymbols : Obligations.Dec7WritesSymbols := by
  intro s hlen hsrc hdst
  have hpass : dec7Fault s = none := by rw [dec7Fault_of_source hlen hsrc, checkRegion_of_inLram hdst]
  refine ⟨finished (dec7Effect s), exec_of_commandFault_none hpass, rfl, ?_,
    fun k hk => ⟨dec7Effect_symbol_le s hk, fun j => dec7Effect_bit s hlen hk⟩, fun x => dec7Effect_outside s⟩
  exact word_toNat_ofNat ((Nat.div_le_self _ _).trans_lt s.len.isLt)

/-- Settles O33, from what each command writes (O29, O31): the second command's input is the first one's output, so bit
for bit it writes what the first one read. -/
theorem codecRoundTrips : Obligations.CodecRoundTrips := by
  refine ⟨fun s d hwf hsrc hdst hd hsyms => ?_, fun s e hwf hlen hsrc hdst he => ?_⟩
  · obtain ⟨t, hencode, ht, -, hbits, -, -⟩ := enc7WritesSymbolCodes s hwf hsrc hdst hsyms
    have hcfg : t.cfg = s.cfg := (congrArg State.cfg ht).trans rfl
    have hlen : (BitVec.ofNat 64 (7 * s.len.toNat)).toNat = 7 * s.len.toNat :=
      word_toNat_ofNat (seven_mul_len_lt hwf hsrc)
    have hcount : 7 * s.len.toNat / 7 = s.len.toNat := by omega
    have hdecode := dec7WritesSymbols { t with src := s.dst, len := BitVec.ofNat 64 (7 * s.len.toNat), dst := d }
    simp only [hlen, hcount] at hdecode
    obtain ⟨u, hdecode, -, hres, hout, -⟩ := hdecode (by omega) ((inLram_congr hcfg).mpr hdst)
      ((inLram_congr hcfg).mpr hd)
    refine ⟨t, u, hencode, hdecode, BitVec.eq_of_toNat_eq hres, fun i hi => ?_⟩
    obtain ⟨hle, hcode⟩ := hout i hi
    exact symbol_eq_of_testBit hle (hsyms i hi) fun j hj => (hcode j hj).trans (hbits i j hi hj)
  · obtain ⟨t, hdecode, ht, -, hout, -⟩ := dec7WritesSymbols s hlen hsrc hdst
    have hcfg : t.cfg = s.cfg := (congrArg State.cfg ht).trans rfl
    have hcount : (BitVec.ofNat 64 (s.len.toNat / 7)).toNat = s.len.toNat / 7 :=
      word_toNat_ofNat ((Nat.div_le_self _ _).trans_lt s.len.isLt)
    have hbitlen : 7 * (s.len.toNat / 7) = s.len.toNat := by omega
    have hencode := enc7WritesSymbolCodes { t with src := s.dst, len := BitVec.ofNat 64 (s.len.toNat / 7), dst := e }
    simp only [hcount, hbitlen] at hencode
    obtain ⟨u, hencode, -, hres, hbits, hpad, -⟩ := hencode (hcfg ▸ hwf : t.cfg.wf)
      ((inLram_congr hcfg).mpr hdst) ((inLram_congr hcfg).mpr he) fun i hi => (hout i hi).1
    refine ⟨t, u, hdecode, hencode, BitVec.eq_of_toNat_eq hres, fun k hk => ?_, hpad⟩
    have hgroup : k / 7 < s.len.toNat / 7 := by omega
    have hj : k % 7 < 7 := Nat.mod_lt k (by decide)
    have hbit := (hbits (k / 7) (k % 7) hgroup hj).trans ((hout _ hgroup).2 _ hj)
    rwa [Nat.div_add_mod] at hbit

/-- Settles O32, check by check in their order. -/
theorem dec7FaultsInOrder : Obligations.Dec7FaultsInOrder := by
  refine fun s => ⟨fun hlen => ?_, fun hlen hsrc => ?_, fun hlen hsrc hdst => ?_⟩
  · exact exec_of_commandFault_some (i := .dec7) (dec7Fault_length hlen)
  · exact exec_of_commandFault_some (i := .dec7) (dec7Fault_source hlen hsrc)
  · have hfault := checkRegion_of_not_inLram hdst
    rw [← dec7Fault_of_source hlen hsrc] at hfault
    exact exec_of_commandFault_some (i := .dec7) hfault

end Sys2Proof.CodecChapter
end

section
/-! ## The primality engine, in the words of the statements (41_primality.md R120 to R127) -/

namespace Sys2Proof.Machine

open Sys2Proof.Claims

/-! ### `MODEXP` -/

theorem modexpFault_eq_none {s : State} (hm : s.mxMod.toNat ≠ 0) : modexpFault s = none := if_neg hm

theorem modexpFault_eq_some {s : State} (hm : s.mxMod.toNat = 0) : modexpFault s = some ⟨.paramRange, 0x22, 0⟩ :=
  if_pos hm

/-- `MODEXP` writes the exact power, reduced (41_primality.md R120). -/
theorem modexpEffect_eq (s : State) :
    modexpEffect s = { s with res0 := BitVec.ofNat 64 (s.mxBase.toNat ^ s.mxExp.toNat % s.mxMod.toNat) } := by
  rw [modexpEffect, powmod_eq]

/-! ### What the pending answers decide (41_primality.md R121 to R123) -/

/-- The whole source, known from its queue (log entry 3). -/
theorem entropy_eq_of_queue {e : Entropy} {answers : List Word} (h : e.queue = answers) : e = ⟨answers, e.drawn⟩ := by
  rw [← h]

/-- A number beyond the small primes is odd, so the statements' notion of an accepting witness is the engine's. -/
theorem witnessAccepts_iff_accepts {n d k : Nat} (h2 : 2 ≤ n) (hsmall : ∀ p ∈ smallPrimes, ¬p ∣ n)
    (hd : n - 1 = d * 2 ^ k) (ho : d % 2 = 1) (a : Nat) : witnessAccepts n d k a = true ↔ Accepts n d k a :=
  witnessAccepts_iff n d k a (split_pos n d k (hsmall 2 (by decide)) h2 hd ho)

/-- A test with passing witnesses pending is passed and uses them up (41_primality.md R123). -/
theorem millerRabin_of_passes {n rounds : Nat} {ws : List Nat} (hpass : Passes n rounds ws) (h2 : 2 ≤ n)
    (hb : n < 2 ^ 64) (rest : List Word) (c : Nat) :
    millerRabin n rounds ⟨ws.map (BitVec.ofNat 64) ++ rest, c⟩ = ⟨true, rounds, ⟨rest, c⟩⟩ := by
  obtain ⟨hsmall, rfl, d, k, hd, ho, hws⟩ := hpass
  have hiff := witnessAccepts_iff_accepts h2 hsmall hd ho
  exact millerRabin_passes n d k c ws rest h2 hb hsmall hd ho
    fun a ha => (hws a ha).imp_right (And.imp_right (hiff a).mpr)

/-- A test with failing witnesses pending is failed, and draws those and no further (41_primality.md R121, R123). -/
theorem millerRabin_of_fails {n rounds : Nat} {ws : List Nat} (hfail : Fails n rounds ws) (h2 : 2 ≤ n)
    (hb : n < 2 ^ 64) (hn : n ∉ smallPrimes) (rest : List Word) (c : Nat) :
    millerRabin n rounds ⟨ws.map (BitVec.ofNat 64) ++ rest, c⟩ = ⟨false, ws.length, ⟨rest, c⟩⟩ := by
  rcases hfail with ⟨hfactor, rfl⟩ | ⟨hsmall, hlen, d, k, good, bad, hd, ho, rfl, hgood, hlow, hhigh, hbad⟩
  · exact millerRabin_multiple n rounds _ h2 hn hfactor
  · have hiff := witnessAccepts_iff_accepts h2 hsmall hd ho
    rw [List.length_append, List.length_singleton] at hlen ⊢
    exact millerRabin_fails n rounds d k c bad good rest h2 hb hsmall hd ho
      (fun a ha => (hgood a ha).imp_right (And.imp_right (hiff a).mpr)) hlow hhigh
      (Bool.eq_false_iff.mpr fun h => hbad ((hiff bad).mp h)) hlen

/-- A true verdict stands on passing witnesses (41_primality.md R123). -/
theorem passes_of_millerRabin_true {n rounds : Nat} {e : Entropy} (hn : 31 ≤ n) (hb : n < 2 ^ 64)
    (h : (millerRabin n rounds e).probablePrime = true) : ∃ ws, Passes n rounds ws := by
  obtain ⟨hsmall, d, k, ws, hd, ho, -, hlen, hws⟩ := millerRabin_true n rounds e hn hb h
  have hiff := witnessAccepts_iff_accepts (by omega) hsmall hd ho
  exact ⟨ws, hsmall, hlen, d, k, hd, ho, fun a ha => (hws a ha).imp_right (And.imp_right (hiff a).mp)⟩

/-! ### The search (41_primality.md R126, R127) -/

/-- The statements write a candidate as the rule does. -/
theorem primeCandidate_eq_candidate (v : Nat) : primeCandidate v = candidate v := by
  have hodd := or_mask_odd v
  rw [primeCandidate, candidate]
  split <;> omega

theorem candidate_spec {v : Nat} (hv : v < 2 ^ 32) :
    candidate v % 4 = 3 ∧ 2 ^ 31 + 3 ≤ candidate v ∧ candidate v ≤ 2 ^ 32 - 1 :=
  primeCandidate_eq_candidate v ▸ primeCandidate_spec v hv

theorem candidate_notMem_smallPrimes {v : Nat} (hv : v < 2 ^ 32) : candidate v ∉ smallPrimes :=
  primeCandidate_eq_candidate v ▸ primeCandidate_not_small v hv

/-- Attempts that fail are used up one after another. -/
theorem primeSearch_of_allFail {rounds : Nat} {attempts : List Attempt} (hfail : AllFail rounds attempts)
    (left k c : Nat) (rest : List Word) :
    primeSearch rounds (attempts.length + left) k ⟨(answersOf attempts).map (BitVec.ofNat 64) ++ rest, c⟩ =
      primeSearch rounds left (k + attempts.length) ⟨rest, c⟩ := by
  refine primeSearch_fails rounds left k c attempts rest fun t ht => ?_
  obtain ⟨hv, htest⟩ := hfail t ht
  obtain ⟨-, hlow, hhigh⟩ := candidate_spec hv
  rw [primeCandidate_eq_candidate]
  exact ⟨hv, fun tail =>
    millerRabin_of_fails htest (by omega) (by omega) (candidate_notMem_smallPrimes hv) tail c⟩

/-- The search goes on after pending attempts that fail, with so many attempts fewer. -/
theorem primeGenSearch_of_allFail {s : State} {rounds : Nat} {attempts : List Attempt} {rest : List Word}
    (hfail : AllFail rounds attempts) (hle : attempts.length ≤ s.pgMaxIter.toNat)
    (hqueue : s.entropy.queue = (answersOf attempts).map (BitVec.ofNat 64) ++ rest) :
    primeGenSearch rounds s =
      primeSearch rounds (s.pgMaxIter.toNat - attempts.length) attempts.length ⟨rest, s.entropy.drawn⟩ := by
  have hsearch := primeSearch_of_allFail hfail (s.pgMaxIter.toNat - attempts.length) 0 s.entropy.drawn rest
  rwa [Nat.add_sub_cancel' hle, Nat.zero_add, ← entropy_eq_of_queue hqueue] at hsearch

/-- An attempt whose candidate the test accepts ends the search. -/
theorem primeSearch_of_accepted {rounds left k v c : Nat} {answers : List Word} {r : MrResult} (hv : v < 2 ^ 32)
    (htest : millerRabin (candidate v) rounds ⟨answers, c⟩ = r) (hverdict : r.probablePrime = true) :
    primeSearch rounds (left + 1) k ⟨BitVec.ofNat 64 v :: answers, c⟩ = ⟨some (candidate v, k + 1), r.entropy⟩ := by
  rw [primeSearch_succ, draw32_pending v answers c hv, primeCandidate_eq_candidate, htest, if_pos hverdict]

/-- A search that finds a candidate found it on passing witnesses, within its attempts. -/
theorem primeGenSearch_found {s : State} {rounds n k : Nat} (h : (primeGenSearch rounds s).found = some (n, k)) :
    (∃ v, v < 2 ^ 32 ∧ n = candidate v) ∧ (∃ ws, Passes n rounds ws) ∧ 1 ≤ k ∧ k ≤ s.pgMaxIter.toNat := by
  obtain ⟨⟨v, hv, rfl⟩, ⟨e, htest⟩, hpos, hle⟩ := primeSearch_found rounds _ 0 _ n k h
  obtain ⟨-, hlow, hhigh⟩ := primeCandidate_spec v hv
  exact ⟨⟨v, hv, primeCandidate_eq_candidate v⟩, passes_of_millerRabin_true (by omega) (by omega) htest, by omega,
    by omega⟩

/-! ### The two commands by what their engine answers -/

section
variable {s : State} {rounds : Nat}

/-- A verdict is reported as 0 or 1 (41_primality.md R124). -/
theorem verdictWord_cases (verdict : Bool) :
    BitVec.ofNat 64 verdict.toNat = 0#64 ∨ BitVec.ofNat 64 verdict.toNat = 1#64 := by
  cases verdict with
  | false => exact .inl rfl
  | true => exact .inr rfl

/-- `MR_TEST` reports what its test answers (41_primality.md R124). -/
theorem exec_mrTest_of_millerRabin {r : MrResult} (h : millerRabin s.mxMod.toNat rounds s.entropy = r) :
    exec (.mrTest rounds) s = .next (finished { s with
      res0 := BitVec.ofNat 64 r.probablePrime.toNat, res1 := BitVec.ofNat 64 r.drawn, entropy := r.entropy }) := by
  rw [exec_of_commandFault_none (i := .mrTest rounds) rfl, commandEffect, mrTestEffect, h]

/-- `MR_TEST` with known answers pending reports what its test makes of them. -/
theorem exec_mrTest_of_pending {answers : List Word} {r : MrResult} (hqueue : s.entropy.queue = answers)
    (h : millerRabin s.mxMod.toNat rounds ⟨answers, s.entropy.drawn⟩ = r) :
    exec (.mrTest rounds) s = .next (finished { s with
      res0 := BitVec.ofNat 64 r.probablePrime.toNat, res1 := BitVec.ofNat 64 r.drawn, entropy := r.entropy }) :=
  exec_mrTest_of_millerRabin (entropy_eq_of_queue hqueue ▸ h)

/-- `PRIME_GEN` reports the candidate found and the attempts (41_primality.md R127). -/
theorem exec_primeGen_of_found {n k : Nat} {e : Entropy} (h : primeGenSearch rounds s = ⟨some (n, k), e⟩) :
    exec (.primeGen rounds) s = .next (finished { s with
      res0 := BitVec.ofNat 64 n, res1 := BitVec.ofNat 64 k, entropy := e }) := by
  rw [execPrimeGen_cases, h]
  rfl

/-- `PRIME_GEN` faults when the search finds nothing, its draws consumed (41_primality.md R127; 60_exceptions.md R215). -/
theorem exec_primeGen_of_exhausted {e : Entropy} (h : primeGenSearch rounds s = ⟨none, e⟩) :
    exec (.primeGen rounds) s =
      .next (faulted .primeGenerationFailure s.pgMaxIter.toNat rounds { s with entropy := e }) := by
  rw [execPrimeGen_cases, h]
  rfl

/-- After pending attempts that fail, `PRIME_GEN` accepts the candidate that its test accepts. -/
theorem exec_primeGen_of_accepted {v : Nat} {attempts : List Attempt} {answers : List Word} {r : MrResult}
    (hv : v < 2 ^ 32) (hfail : AllFail rounds attempts) (hlt : attempts.length < s.pgMaxIter.toNat)
    (hqueue : s.entropy.queue = (answersOf attempts).map (BitVec.ofNat 64) ++ BitVec.ofNat 64 v :: answers)
    (htest : millerRabin (candidate v) rounds ⟨answers, s.entropy.drawn⟩ = r) (hverdict : r.probablePrime = true) :
    exec (.primeGen rounds) s = .next (finished { s with
      res0 := BitVec.ofNat 64 (candidate v), res1 := BitVec.ofNat 64 (attempts.length + 1)
      entropy := r.entropy }) := by
  obtain ⟨left, hleft⟩ : ∃ left, s.pgMaxIter.toNat - attempts.length = left + 1 := Nat.exists_eq_add_one.mpr (by omega)
  refine exec_primeGen_of_found ?_
  rw [primeGenSearch_of_allFail hfail hlt.le hqueue, hleft, primeSearch_of_accepted hv htest hverdict]

end

end Sys2Proof.Machine
end

section
/-! ## The statements of 41_primality.md -/

namespace Sys2Proof.PrimalityChapter

open Sys2Proof.Machine Sys2Proof.Claims

/-- Settles O34. The one check is that of the modulus, and square and multiply computes the power (`powmod_eq`). -/
theorem modexpIsPowerModulo : Obligations.ModexpIsPowerModulo := by
  refine ⟨by decide, fun s => ⟨fun hm => ⟨?_, Nat.mod_lt _ (Nat.pos_of_ne_zero hm)⟩, fun hm => ?_⟩⟩
  · rw [exec_of_commandFault_none (i := .modexp) (modexpFault_eq_none hm), commandEffect, modexpEffect_eq]
  · exact exec_of_commandFault_some (i := .modexp) (modexpFault_eq_some hm)

/-- Settles O35. In each of the three cases the test ends before its witness rounds. -/
theorem mrTestTrialDivision : Obligations.MrTestTrialDivision := fun s rounds =>
  ⟨fun hlt => exec_mrTest_of_millerRabin (millerRabin_small _ rounds s.entropy hlt),
    fun hmem => exec_mrTest_of_millerRabin (millerRabin_smallPrime _ rounds s.entropy hmem),
    fun h2 hmem hfactor => exec_mrTest_of_millerRabin (millerRabin_multiple _ rounds s.entropy h2 hmem hfactor)⟩

/-- Settles O36. The witnesses pending pass the test, or fail it with `a` the last one drawn. -/
theorem mrTestFollowsWitnesses : Obligations.MrTestFollowsWitnesses := by
  intro s rounds d k ws rest _ h2 hsmall hd ho hws
  have hb : s.mxMod.toNat < 2 ^ 64 := s.mxMod.isLt
  refine ⟨fun hlen hqueue => ?_, fun a hlen hlow hhigh hbad hqueue => ?_⟩
  · exact exec_mrTest_of_pending hqueue (millerRabin_of_passes ⟨hsmall, hlen, d, k, hd, ho, hws⟩ h2 hb rest _)
  · have hfail : Fails s.mxMod.toNat rounds (ws ++ [a]) :=
      .inr ⟨hsmall, by simpa using hlen, d, k, ws, a, hd, ho, rfl, hws, hlow, hhigh, hbad⟩
    have hn : s.mxMod.toNat ∉ smallPrimes := fun hmem => hsmall _ hmem dvd_rfl
    have htest := millerRabin_of_fails hfail h2 hb hn rest s.entropy.drawn
    rw [List.map_append, List.append_assoc, List.length_append] at htest
    exact exec_mrTest_of_pending hqueue htest

/-- Settles O37. The verdict is one bit, and a test draws at most one witness a round (`millerRabin_drawn`). -/
theorem mrTestCompletes : Obligations.MrTestCompletes := by
  intro s rounds hrounds
  have hdrawn := millerRabin_drawn s.mxMod.toNat rounds s.entropy
  exact ⟨_, exec_mrTest_of_millerRabin rfl, rfl, verdictWord_cases _, (word_toNat_ofNat (by omega)).trans_le hdrawn⟩

/-- Settles O38. Every witness of the range accepts a prime (`witnessAccepts_prime`), so no draw rejects it. -/
theorem primeIsNeverRejected : Obligations.PrimeIsNeverRejected := by
  intro s rounds _ hp
  obtain ⟨hverdict, hdrawn⟩ := millerRabin_prime s.mxMod.toNat rounds s.entropy hp s.mxMod.isLt
  refine ⟨_, exec_mrTest_of_millerRabin rfl, ?_⟩
  rw [hverdict, hdrawn]
  rfl

/-- Settles O39. After the attempts that fail, the test of the candidate is all that counts: it accepts a prime under any
draws (O38's lemma) and any candidate on passing witnesses. -/
theorem primeGenAcceptsFirstPassing : Obligations.PrimeGenAcceptsFirstPassing := by
  intro s rounds v attempts ws rest _ hv hfail hlt hqueue
  obtain ⟨-, hlow, hhigh⟩ := candidate_spec hv
  have hb : candidate v < 2 ^ 64 := by omega
  rw [List.map_append, List.append_assoc, List.map_cons, List.cons_append] at hqueue
  refine ⟨fun hp => ?_, fun hpass => ?_⟩
  · obtain ⟨hverdict, -⟩ := millerRabin_prime (candidate v) rounds
      ⟨ws.map (BitVec.ofNat 64) ++ rest, s.entropy.drawn⟩ hp hb
    exact ⟨_, exec_primeGen_of_accepted hv hfail hlt hqueue rfl hverdict, rfl⟩
  · have htest := millerRabin_of_passes hpass (by omega) hb rest s.entropy.drawn
    exact exec_primeGen_of_accepted hv hfail hlt hqueue htest rfl

/-- Settles O40. Either the search finds a candidate (`primeGenSearch_found`), whose bounds are those of every candidate,
or it does not and the command faults. -/
theorem primeGenOutcomes : Obligations.PrimeGenOutcomes := by
  intro s rounds _
  cases hsearch : primeGenSearch rounds s with
  | mk found e =>
    cases found with
    | none => exact ⟨_, exec_primeGen_of_exhausted hsearch, .inr rfl⟩
    | some accepted =>
      obtain ⟨n, k⟩ := accepted
      obtain ⟨⟨v, hv, rfl⟩, ⟨ws, hsmall, hlen, d, j, hd, ho, hws⟩, hpos, hle⟩ :=
        primeGenSearch_found (congrArg SearchResult.found hsearch)
      obtain ⟨hmod, hlow, hhigh⟩ := candidate_spec hv
      have hres0 : (BitVec.ofNat 64 (candidate v)).toNat = candidate v := word_toNat_ofNat (by omega)
      have hres1 : (BitVec.ofNat 64 k).toNat = k := word_toNat_ofNat (hle.trans_lt s.pgMaxIter.isLt)
      refine ⟨_, exec_primeGen_of_found hsearch, .inl ⟨rfl, ?_⟩⟩
      simp only [finished, hres0, hres1]
      exact ⟨⟨v, hv, rfl⟩, hmod, hlow, hhigh, hsmall, ⟨d, j, ws, hd, ho, hlen, hws⟩, hpos, hle⟩

/-- Settles O41. The attempts that fail use up the search. -/
theorem primeGenExhausted : Obligations.PrimeGenExhausted := by
  intro s rounds attempts rest _ hfail hlen hqueue
  refine exec_primeGen_of_exhausted ?_
  rw [primeGenSearch_of_allFail hfail hlen.le hqueue, hlen, Nat.sub_self, primeSearch]

end Sys2Proof.PrimalityChapter
end

section
/-! ## The LCG in the words of the statements (42_lcg.md R150 to R153), and the checks of the word-writing commands -/

namespace Sys2Proof.Machine

open Sys2Proof.Claims

/-! ### The sequence (42_lcg.md R150, R152) -/

/-- The statements' sequence is the step applied again and again. -/
theorem lcgAfter_eq_iterate (a b s k : Nat) : lcgAfter a b s k = (lcgStep a b)^[k] s := by
  induction k with
  | zero => rfl
  | succ k ih => rw [Function.iterate_succ_apply', ← ih]; rfl

/-- A sequence that starts below 2^20 stays there (42_lcg.md R154). -/
theorem lcgAfter_lt {a b s : Nat} (hs : s < 2 ^ 20) (k : Nat) : lcgAfter a b s k < 2 ^ 20 := by
  cases k with
  | zero => exact hs
  | succ k => exact Nat.mod_lt _ (by decide)

/-- The sum of so many draws as a count allows needs no reduction (42_lcg.md R152). -/
theorem lcgSum_lt (a b s : Nat) {n : Nat} (hn : n < 65536) : lcgSum a b s n < 2 ^ 36 := by
  have hdraw : ∀ i ∈ Finset.range n, lcgAfter a b s (i + 1) ≤ 2 ^ 20 := fun i _ => (Nat.mod_lt _ (by decide)).le
  have hsum : lcgSum a b s n ≤ n * 2 ^ 20 := by simpa [lcgSum] using Finset.sum_le_card_nsmul _ _ _ hdraw
  omega

/-! ### The source's integers (42_lcg.md R153) -/

/-- What a register of `w` bits holds of an integer is the integer modulo every power of two up to 2^w. -/
theorem ofInt_toNat_modEq {w k : Nat} (hk : k ≤ w) (x : Int) :
    ((BitVec.ofInt w x).toNat : Int) ≡ x [ZMOD 2 ^ k] := by
  have hvalue : ((BitVec.ofInt w x).toNat : Int) = x % 2 ^ w := by
    rw [BitVec.toNat_ofInt, Int.toNat_of_nonneg (Int.emod_nonneg _ (by positivity))]
    norm_cast
  rw [hvalue]
  exact (Int.mod_modEq x (2 ^ w)).of_dvd (pow_dvd_pow 2 hk)

/-- A step from the loaded residues is the source's step, as 2^20 divides 2^64. -/
theorem lcgStep_ofInt (a b seed : Int) :
    (lcgStep (BitVec.ofInt 64 a).toNat (BitVec.ofInt 64 b).toNat (BitVec.ofInt 20 seed).toNat : Int) =
      (a * seed + b) % 2 ^ 20 := by
  have ha : _ ≡ a [ZMOD 2 ^ 20] := ofInt_toNat_modEq (w := 64) (by decide) a
  have hb : _ ≡ b [ZMOD 2 ^ 20] := ofInt_toNat_modEq (w := 64) (by decide) b
  have hseed : _ ≡ seed [ZMOD 2 ^ 20] := ofInt_toNat_modEq (w := 20) le_rfl seed
  rw [← ((ha.mul hseed).add hb).eq, lcgStep]
  push_cast
  rfl

/-! ### What `LCG_GENN` writes (42_lcg.md R152) -/

section
variable (n : Nat) (s : State)

theorem lcgGennDraws_getElem? {i : Nat} (hi : i < n) :
    (lcgGennDraws n s)[i]? = some (lcgAfter s.lcgA.toNat s.lcgB.toNat s.lcgS.toNat (i + 1)) := by
  rw [lcgAfter_eq_iterate]
  exact lcgDraws_getElem? _ _ _ _ _ hi

theorem lcgGennEffect_lcgS :
    (lcgGennEffect n s).lcgS.toNat = lcgAfter s.lcgA.toNat s.lcgB.toNat s.lcgS.toNat n := by
  have hlast : (lcgGennDraws n s).getLastD s.lcgS.toNat = lcgAfter s.lcgA.toNat s.lcgB.toNat s.lcgS.toNat n := by
    rw [lcgAfter_eq_iterate]
    exact lcgDraws_getLastD _ _ _ _
  rw [lcgGennEffect, hlast, BitVec.toNat_ofNat, Nat.mod_eq_of_lt (lcgAfter_lt s.lcgS.isLt n)]

theorem lcgGennEffect_res0 (hn : n < 65536) :
    (lcgGennEffect n s).res0.toNat = lcgSum s.lcgA.toNat s.lcgB.toNat s.lcgS.toNat n := by
  have hfits := lcgSum_lt s.lcgA.toNat s.lcgB.toNat s.lcgS.toNat hn
  rw [lcgGennEffect, lcgGennDraws, lcgDraws_sum, word_toNat_ofNat (by omega)]

/-- Byte `j` of the word of draw `i`. -/
theorem lcgGennEffect_word {i j : Nat} (hi : i < n) (hj : j < 4) :
    (lcgGennEffect n s).readByte (s.dst.toNat + 4 * i + j) =
      beByte 4 (lcgAfter s.lcgA.toNat s.lcgB.toNat s.lcgS.toNat (i + 1)) j :=
  readByte_words s _ 4 i j _ _ (lcgGennDraws_getElem? n s hi) hj

theorem lcgGennEffect_outside {x : Nat} (hx : x < s.dst.toNat ∨ s.dst.toNat + 4 * n ≤ x) :
    (lcgGennEffect n s).readByte x = s.readByte x := by
  refine readByte_writeBytes_outside s s.dst.toNat x ((lcgGennDraws n s).flatMap (beBytes 4)) ?_
  rwa [wordBytes_length, lcgGennDraws, lcgDraws_length]

end

/-! ### The checks of `BBS_OUT` (43_bbs.md R174) -/

section
variable {s : State} {count : Nat}

theorem bbsOutFault_of_noInstance (hvalid : s.bbsValid = false) :
    bbsOutFault count s = some ⟨.bbsNotInitialized, 0, 0⟩ := by
  rw [bbsOutFault, bbsInitialized, hvalid]
  rfl

/-- With an instance only the region can be at fault. -/
theorem bbsOutFault_of_instance (hvalid : s.bbsValid = true) :
    bbsOutFault count s = checkRegion s.cfg s.dst.toNat (8 * count) := by
  rw [bbsOutFault, (bbsInitialized_eq_none_iff s).mpr hvalid]
  rfl

end

end Sys2Proof.Machine
end

section
/-! ## The statements of 42_lcg.md -/

namespace Sys2Proof.LcgChapter

open Sys2Proof.Machine Sys2Proof.Claims

/-- Settles O42. No check can fail, and the step from the loaded residues is the source's (`lcgStep_ofInt`). -/
theorem lcgNextIsSourceDraw : Obligations.LcgNextIsSourceDraw := by
  intro s a b seed ha hb hseed
  have hdraw := lcgStep_ofInt a b seed
  rw [← ha, ← hb, ← hseed] at hdraw
  rw [exec_of_commandFault_none (i := .lcgNext) rfl, ← hdraw, BitVec.ofInt_natCast, BitVec.ofInt_natCast]
  rfl

/-- Settles O43. The check passes, and the effect writes the sequence, its last state and its sum. -/
theorem lcgGennWritesDraws : Obligations.LcgGennWritesDraws := by
  intro s n hn hregion
  have hpass : lcgGennFault n s = none := checkRegion_of_inLram hregion
  have hres0 := lcgGennEffect_res0 n s hn
  exact ⟨finished (lcgGennEffect n s), exec_of_commandFault_none hpass, rfl, lcgGennEffect_lcgS n s, hres0,
    hres0.trans_lt (lcgSum_lt _ _ _ hn), fun i j => lcgGennEffect_word n s, fun x => lcgGennEffect_outside n s⟩

/-- Settles O48, check by check in their order. -/
theorem wordRegionFaults : Obligations.WordRegionFaults := by
  refine fun s n _ => ⟨fun hregion => ?_, fun hvalid => ?_, fun hvalid hregion => ?_⟩
  · exact exec_of_commandFault_some (i := .lcgGenn n) (checkRegion_of_not_inLram hregion)
  · exact exec_of_commandFault_some (i := .bbsOut n) (bbsOutFault_of_noInstance hvalid)
  · have hfault := checkRegion_of_not_inLram hregion
    rw [← bbsOutFault_of_instance hvalid] at hfault
    exact exec_of_commandFault_some (i := .bbsOut n) hfault

end Sys2Proof.LcgChapter
end

section
/-! ## The BBS generator in the words of the statements (43_bbs.md R170 to R177) -/

namespace Sys2Proof.Machine

open Sys2Proof.Claims

/-! ### The check of the key (43_bbs.md R171) -/

theorem not_pqLimit_le {v : Nat} (hv : v < 2 ^ 32) : ¬Config.pqLimit ≤ v := Nat.not_le.mpr hv

section
variable {s : State}

theorem bbsCheck_of_keyLoaded (h : KeyLoaded s) : bbsCheck s = none := by
  obtain ⟨hp, hp', hq, hq'⟩ := h
  exact (bbsCheck_eq_none_iff s).mpr ⟨⟨hp, hp'⟩, hq, hq'⟩

theorem bbsCheck_wideP (hp : 2 ^ 32 ≤ s.bbsP.toNat) : bbsCheck s = some ⟨.paramRange, 0x18, s.bbsP.toNat⟩ := if_pos hp

theorem bbsCheck_wideQ (hp : s.bbsP.toNat < 2 ^ 32) (hq : 2 ^ 32 ≤ s.bbsQ.toNat) :
    bbsCheck s = some ⟨.paramRange, 0x19, s.bbsQ.toNat⟩ := by
  rw [bbsCheck, if_neg (not_pqLimit_le hp)]
  exact if_pos hq

theorem bbsCheck_zeroP (hp : s.bbsP.toNat = 0) (hq : s.bbsQ.toNat < 2 ^ 32) :
    bbsCheck s = some ⟨.paramRange, 0x18, 0⟩ := by
  rw [bbsCheck, if_neg (not_pqLimit_le (by omega)), if_neg (not_pqLimit_le hq)]
  exact if_pos hp

theorem bbsCheck_zeroQ (hp : 1 ≤ s.bbsP.toNat) (hp' : s.bbsP.toNat < 2 ^ 32) (hq : s.bbsQ.toNat = 0) :
    bbsCheck s = some ⟨.paramRange, 0x19, 0⟩ := by
  rw [bbsCheck, if_neg (not_pqLimit_le hp'), if_neg (not_pqLimit_le (by omega)), if_neg (Nat.ne_of_gt hp)]
  exact if_pos hq

/-- The check of the key comes first in `BBS_INIT` and in `GAMMA` with at least one round, so its fault is theirs
(43_bbs.md R171; 44_gamma.md R193; 60_exceptions.md R216). -/
theorem exec_of_bbsCheck_some {i : Instr} {f : FaultInfo}
    (hi : i = .bbsInit ∨ ((∃ a, i = .gamma a) ∧ s.len.toNat ≠ 0)) (h : bbsCheck s = some f) :
    exec i s = .next (faulted f.cause f.info0 f.info1 s) := by
  rcases hi with rfl | ⟨⟨audit, rfl⟩, hlen⟩
  · exact exec_of_commandFault_some (i := .bbsInit) h
  · have hfault : gammaFault audit s = some f := by
      rw [gammaFault, if_neg (gammaCount_ne_zero s hlen), h]
      rfl
    exact exec_of_commandFault_some (i := .gamma audit) hfault

end

/-! ### What `BBS_NEXT` and `BBS_OUT` write (43_bbs.md R173, R174, R177) -/

theorem bbsInitialized_of_noInstance {s : State} (hvalid : s.bbsValid = false) :
    bbsInitialized s = some ⟨.bbsNotInitialized, 0, 0⟩ := by
  rw [bbsInitialized, hvalid]
  rfl

section
variable {s : State} (h : BbsInstance s.bbsN.toNat s.bbsX.toNat)
include h

/-- The state register holds the state after any number of squarings exactly, as a power of the present state. -/
theorem BbsInstance.iterate_word (c : Nat) :
    (BitVec.ofNat 64 ((fun y => Machine.sqMod y s.bbsN.toNat)^[c] s.bbsX.toNat)).toNat =
      s.bbsX.toNat ^ 2 ^ c % s.bbsN.toNat := by
  have hc := h.iterate c
  rw [word_toNat_ofNat (hc.reduced.trans hc.bound), iterate_sqMod _ _ _ h.reduced]

theorem bbsNextEffect_bbsX : (bbsNextEffect s).bbsX.toNat = s.bbsX.toNat ^ 2 % s.bbsN.toNat := h.iterate_word 1

theorem bbsOutEffect_bbsX (count : Nat) :
    (bbsOutEffect count s).bbsX.toNat = s.bbsX.toNat ^ 2 ^ count % s.bbsN.toNat := by
  rw [bbsOutEffect, bbsOutStates, bbsStates_getLastD]
  exact h.iterate_word count

theorem bbsOutStates_getElem? {count i : Nat} (hi : i < count) :
    (bbsOutStates count s)[i]? = some (s.bbsX.toNat ^ 2 ^ (i + 1) % s.bbsN.toNat) := by
  rw [← iterate_sqMod _ _ _ h.reduced]
  exact bbsStates_getElem? _ _ _ _ hi

/-- Byte `j` of the word of output `i`. -/
theorem bbsOutEffect_word {count i j : Nat} (hi : i < count) (hj : j < 8) :
    (bbsOutEffect count s).readByte (s.dst.toNat + 8 * i + j) =
      beByte 8 (s.bbsX.toNat ^ 2 ^ (i + 1) % s.bbsN.toNat) j :=
  readByte_words s _ 8 i j _ _ (bbsOutStates_getElem? h hi) hj

end

theorem bbsOutEffect_outside (count : Nat) (s : State) {x : Nat}
    (hx : x < s.dst.toNat ∨ s.dst.toNat + 8 * count ≤ x) : (bbsOutEffect count s).readByte x = s.readByte x := by
  refine readByte_writeBytes_outside s s.dst.toNat x ((bbsOutStates count s).flatMap (beBytes 8)) ?_
  rwa [wordBytes_length, bbsOutStates, bbsStates_length]

end Sys2Proof.Machine
end

section
/-! ## The statements of 43_bbs.md -/

namespace Sys2Proof.BbsChapter

open Sys2Proof.Machine Sys2Proof.Claims

/-- Settles O44. The key passes its check, and the repair count of the construction is the least and below n
(`repairCount_spec`). -/
theorem bbsInitConstructs : Obligations.BbsInitConstructs := by
  intro s hkey
  have hpass := bbsCheck_of_keyLoaded hkey
  obtain ⟨hpos, hbound⟩ := bbsModulus_bounds hpass
  obtain ⟨hlt, hcoprime, hleast⟩ := repairCount_spec (bbsModulus s) s.bbsSeed.toNat hpos
  exact ⟨repairCount (bbsModulus s) s.bbsSeed.toNat, ⟨hcoprime, hleast⟩, hlt, hbound,
    exec_of_commandFault_none (i := .bbsInit) hpass⟩

/-- Settles O45. Both commands take the fault of the key's check (`exec_of_bbsCheck_some`), which names the first of the
four conditions that holds. -/
theorem bbsParameterFaults : Obligations.BbsParameterFaults := fun _ _ hi =>
  ⟨fun hp => exec_of_bbsCheck_some hi (bbsCheck_wideP hp),
    fun hp hq => exec_of_bbsCheck_some hi (bbsCheck_wideQ hp hq),
    fun hp hq => exec_of_bbsCheck_some hi (bbsCheck_zeroP hp hq),
    fun hp hp' hq => exec_of_bbsCheck_some hi (bbsCheck_zeroQ hp hp' hq)⟩

/-- Settles O46. The invariant keeps the state below n, so its square modulo n fits the register
(`bbsNextEffect_bbsX`); without an instance the one check fails. -/
theorem bbsNextSquares : Obligations.BbsNextSquares := by
  refine ⟨by decide, fun s hinv => ⟨fun hvalid => ?_, fun hvalid => ?_⟩⟩
  · have hpass := (bbsInitialized_eq_none_iff s).mpr hvalid
    exact ⟨finished (bbsNextEffect s), exec_of_commandFault_none (i := .bbsNext) hpass, rfl,
      bbsNextEffect_bbsX (hinv.instanceValid hvalid)⟩
  · exact exec_of_commandFault_some (i := .bbsNext) (bbsInitialized_of_noInstance hvalid)

/-- Settles O47. Both checks pass, and the effect writes the successive squares and the last of them. -/
theorem bbsOutWritesSquares : Obligations.BbsOutWritesSquares := by
  intro s c hinv _ hvalid hregion
  have hinst := hinv.instanceValid hvalid
  have hpass : bbsOutFault c s = none := (bbsOutFault_of_instance hvalid).trans (checkRegion_of_inLram hregion)
  exact ⟨finished (bbsOutEffect c s), exec_of_commandFault_none (i := .bbsOut c) hpass, rfl, bbsOutEffect_bbsX hinst c,
    fun i j => bbsOutEffect_word hinst, fun x => bbsOutEffect_outside c s⟩

end Sys2Proof.BbsChapter
end

section
/-! ## `GAMMA` in the words of the statements (44_gamma.md R190 to R202) -/

namespace Sys2Proof.Machine

open Sys2Proof.Claims

/-! ### The checks of `GAMMA` (44_gamma.md R191 to R193) -/

theorem gammaCount_eq_roundsFor (s : State) : gammaCount s = roundsFor s.len.toNat := gammaCount_eq s

section
variable {audit : Bool} {s : State}

theorem gammaCount_of_zeroLength (hlen : s.len.toNat = 0) : gammaCount s = 0 := by rw [gammaCount_eq, hlen]

/-- Without a round nothing is checked (44_gamma.md R192). -/
theorem gammaFault_of_zeroLength (hlen : s.len.toNat = 0) : gammaFault audit s = none :=
  if_pos (gammaCount_of_zeroLength hlen)

theorem gammaEffect_of_zeroLength (hlen : s.len.toNat = 0) :
    gammaEffect audit s = { s with res0 := 0#64, res1 := 0#64 } :=
  if_pos (gammaCount_of_zeroLength hlen)

theorem gammaFault_gammaRegion (hlen : s.len.toNat ≠ 0) (hkey : KeyLoaded s)
    (hdst : ¬InLram s s.dst.toNat (bytesFor s.len.toNat)) :
    gammaFault audit s = some ⟨.addressRange, s.dst.toNat, bytesFor s.len.toNat⟩ := by
  rw [gammaFault, if_neg (gammaCount_ne_zero s hlen), bbsCheck_of_keyLoaded hkey, ceilDiv_eight,
    checkRegion_of_not_inLram hdst]
  rfl

theorem gammaFault_auditRegion (hlen : s.len.toNat ≠ 0) (hkey : KeyLoaded s)
    (hdst : InLram s s.dst.toNat (bytesFor s.len.toNat))
    (hadst : ¬InLram s s.adst.toNat (40 * roundsFor s.len.toNat)) :
    gammaFault true s = some ⟨.addressRange, s.adst.toNat, 40 * roundsFor s.len.toNat⟩ := by
  rw [gammaFault, if_neg (gammaCount_ne_zero s hlen), bbsCheck_of_keyLoaded hkey, ceilDiv_eight,
    checkRegion_of_inLram hdst, gammaCount_eq_roundsFor, checkRegion_of_not_inLram hadst]
  rfl

/-- A `GAMMA` that raises no fault completes its effect, with rounds or without. -/
theorem exec_gamma_of_passes (h : GammaPasses audit s) :
    exec (.gamma audit) s = .next (complete (gammaEffect audit s)) := by
  rcases h with hlen | hready
  · exact exec_of_commandFault_none (i := .gamma audit) (gammaFault_of_zeroLength hlen)
  · exact exec_gamma_of_ready hready

/-- Whether a request passes depends on the size of the LRAM and the key alone. -/
theorem gammaPasses_request_congr {t : State} (hcfg : t.cfg = s.cfg) (hp : t.bbsP = s.bbsP) (hq : t.bbsQ = s.bbsQ)
    (len dst adst : Word) :
    GammaPasses audit (request len dst adst t) ↔ GammaPasses audit (request len dst adst s) := by
  simp only [GammaPasses, GammaReady, KeyLoaded, InLram, request, hcfg, hp, hq]

end

/-! ### The registers after `GAMMA`, by its last round if one ran (44_gamma.md R192, R199) -/

theorem gammaRun_getLast? (s : State) :
    (gammaRun s).getLast? = if gammaCount s = 0 then none else some (gammaLast s) := by
  have hlength : (gammaRun s).length = gammaCount s := gammaRounds_length _ _ _ _ _
  split
  next hzero => rw [List.eq_nil_of_length_eq_zero (hlength.trans hzero), List.getLast?_nil]
  next hrounds =>
    have hne : gammaRun s ≠ [] := List.ne_nil_of_length_pos (by omega)
    rw [gammaLast, List.getLastD_eq_getLast?, List.getLast?_eq_some_getLast hne]
    rfl

section
variable (audit : Bool) (s : State)

theorem gammaEffect_lcgS :
    (gammaEffect audit s).lcgS = (gammaRun s).getLast?.elim s.lcgS fun r => BitVec.ofNat 20 r.feedback := by
  rw [gammaRun_getLast?, gammaEffect]
  split <;> rfl

theorem gammaEffect_bbsN :
    (gammaEffect audit s).bbsN = (gammaRun s).getLast?.elim s.bbsN fun _ => BitVec.ofNat 64 (bbsModulus s) := by
  rw [gammaRun_getLast?, gammaEffect]
  split <;> rfl

theorem gammaEffect_bbsX :
    (gammaEffect audit s).bbsX = (gammaRun s).getLast?.elim s.bbsX fun r => BitVec.ofNat 64 r.lastOut := by
  rw [gammaRun_getLast?, gammaEffect]
  split <;> rfl

theorem gammaEffect_bbsValid :
    (gammaEffect audit s).bbsValid = (gammaRun s).getLast?.elim s.bbsValid fun _ => true := by
  rw [gammaRun_getLast?, gammaEffect]
  split <;> rfl

theorem gammaEffect_res1 :
    (gammaEffect audit s).res1 = (gammaRun s).getLast?.elim 0#64 fun r => BitVec.ofNat 64 r.seed := by
  rw [gammaRun_getLast?, gammaEffect]
  split <;> rfl

theorem gammaEffect_res0 : (gammaEffect audit s).res0 = BitVec.ofNat 64 (roundsFor s.len.toNat) := by
  rw [← gammaCount_eq_roundsFor, gammaEffect]
  split
  next hzero => rw [hzero]
  next => rfl

theorem gammaEffect_res0_toNat : (gammaEffect audit s).res0.toNat = roundsFor s.len.toNat := by
  have hfits : roundsFor s.len.toNat < 2 ^ 64 := by rw [roundsFor]; omega
  rw [gammaEffect_res0, word_toNat_ofNat hfits]

@[simp] theorem gammaEffect_cfg : (gammaEffect audit s).cfg = s.cfg := by rw [gammaEffect_frame]
@[simp] theorem gammaEffect_lcgA : (gammaEffect audit s).lcgA = s.lcgA := by rw [gammaEffect_frame]
@[simp] theorem gammaEffect_lcgB : (gammaEffect audit s).lcgB = s.lcgB := by rw [gammaEffect_frame]
@[simp] theorem gammaEffect_bbsP : (gammaEffect audit s).bbsP = s.bbsP := by rw [gammaEffect_frame]
@[simp] theorem gammaEffect_bbsQ : (gammaEffect audit s).bbsQ = s.bbsQ := by rw [gammaEffect_frame]

end

/-! ### The run of a key and the end state (44_gamma.md R190 to R199) -/

theorem gammaRound_seed (a b n s : Nat) : (gammaRound a b n s).seed = lcgSum a b s 7 := lcgDraws_sum a b 7 s

section
variable {a b n s0 rounds : Nat} {st y : Nat → Nat}

theorem keystreamRun_lastOut (h : KeystreamRun a b n s0 rounds st y) (hn : 1 ≤ n) {r : Nat} (hr : r < rounds) :
    (gammaRound a b n (st r)).lastOut = y (5 * r + 4) := by
  rw [gammaRound_lastOut, keystreamRun_output h hn hr (by decide)]

theorem keystreamRun_feedback (h : KeystreamRun a b n s0 rounds st y) (hn : 1 ≤ n) {r : Nat} (hr : r < rounds) :
    (gammaRound a b n (st r)).feedback = st (r + 1) := by
  rw [(h.2 r hr).2, GammaRound.feedback, keystreamRun_lastOut h hn hr, Nat.shiftRight_eq_div_pow]
  rfl

end

section
variable {s : State} (hkey : KeyLoaded s)
include hkey

theorem bbsModulus_pos : 1 ≤ bbsModulus s := (bbsModulus_bounds (bbsCheck_of_keyLoaded hkey)).1

/-- The states the model's rounds start from and the words it outputs are a keystream run of the key. -/
theorem runOf_gammaState : RunOf s (gammaState s.lcgA.toNat s.lcgB.toNat (bbsModulus s) s.lcgS.toNat)
    fun i => (gammaWords s)[i]?.getD 0 := by
  have hn := bbsModulus_pos hkey
  refine ⟨rfl, fun r hr => ?_⟩
  rw [← gammaCount_eq_roundsFor] at hr
  refine ⟨⟨repairCount (bbsModulus s) _, (repairCount_spec _ _ hn).2, fun j hj => ?_⟩, ?_⟩
  · simp only [gammaWords_getElem? s r j hr hj, Option.getD_some]
    rw [iterate_sqMod_bbsInitial _ _ _ hn, gammaRound_seed]
    rfl
  · simp only [gammaWords_getElem? s r 4 hr (by decide), Option.getD_some]
    rw [gammaState_succ, GammaRound.feedback, gammaRound_lastOut, Nat.shiftRight_eq_div_pow]
    rfl

/-- The last round of `GAMMA` starts from the last state of a keystream run. -/
theorem gammaRun_getLast?_of_run (hlen : s.len.toNat ≠ 0) {st y : Nat → Nat} (hrun : RunOf s st y) :
    (gammaRun s).getLast? =
      some (gammaRound s.lcgA.toNat s.lcgB.toNat (bbsModulus s) (st (roundsFor s.len.toNat - 1))) := by
  have hrounds := gammaCount_ne_zero s hlen
  rw [gammaRun_getLast?, if_neg hrounds, gammaLast_eq s hrounds, gammaCount_eq_roundsFor,
    keystreamRun_state hrun (bbsModulus_pos hkey) (Nat.sub_le _ 1)]
  rfl

/-- The end state of `GAMMA` by a keystream run of its key (44_gamma.md R199). -/
theorem gammaEffect_of_run (audit : Bool) (hlen : s.len.toNat ≠ 0) {st y : Nat → Nat} (hrun : RunOf s st y) :
    gammaEffect audit s = { s with
      lram := (gammaEffect audit s).lram
      lcgS := BitVec.ofNat 20 (st (roundsFor s.len.toNat))
      bbsN := BitVec.ofNat 64 (s.bbsP.toNat * s.bbsQ.toNat)
      bbsX := BitVec.ofNat 64 (y (5 * roundsFor s.len.toNat - 1))
      bbsValid := true
      res0 := BitVec.ofNat 64 (roundsFor s.len.toNat)
      res1 := BitVec.ofNat 64 (lcgSum s.lcgA.toNat s.lcgB.toNat (st (roundsFor s.len.toNat - 1)) 7) } := by
  have hn := bbsModulus_pos hkey
  have hpos : 0 < roundsFor s.len.toNat := by rw [roundsFor]; omega
  have hlast := gammaRun_getLast?_of_run hkey hlen hrun
  have hfeedback := keystreamRun_feedback hrun hn (Nat.sub_one_lt hpos.ne')
  have hout := keystreamRun_lastOut hrun hn (Nat.sub_one_lt hpos.ne')
  rw [Nat.sub_add_cancel hpos] at hfeedback
  rw [show 5 * (roundsFor s.len.toNat - 1) + 4 = 5 * roundsFor s.len.toNat - 1 by omega] at hout
  refine (gammaEffect_frame audit s).trans ?_
  rw [gammaEffect_lcgS, gammaEffect_bbsN, gammaEffect_bbsX, gammaEffect_bbsValid, gammaEffect_res0, gammaEffect_res1,
    hlast]
  simp only [Option.elim_some, gammaRound_seed]
  rw [← hfeedback, ← hout]
  rfl

end

/-! ### The LRAM after `GAMMA` (44_gamma.md R193, R196, R198) -/

/-- The bytes of the audit region: the outputs in order, each a big-endian word (44_gamma.md R196). -/
def auditBytes (s : State) : List Byte := (gammaWords s).flatMap (beBytes 8)

@[simp] theorem auditBytes_length (s : State) : (auditBytes s).length = 40 * roundsFor s.len.toNat := by
  rw [auditBytes, wordBytes_length, gammaWords_length, gammaCount_eq_roundsFor]
  omega

theorem lt_bytesFor {k nbits : Nat} (hk : k < nbits) : k < 8 * bytesFor nbits := by
  rw [bytesFor]
  omega

/-- A byte of a region just written is the byte of the list written there. -/
theorem readByte_writeBytes_region (s : State) (a : Nat) {bs : List Byte} {k : Nat} (hk : k < bs.length) :
    (s.writeBytes a bs).readByte (a + k) = bs[k]?.getD 0#8 := by
  rw [readByte_writeBytes, if_pos ⟨Nat.le_add_right a k, Nat.add_lt_add_left hk a⟩, Nat.add_sub_cancel_left]

section
variable {audit : Bool} {s : State}

/-- A byte of the gamma region that the audit bytes do not win. -/
theorem readByte_gammaEffect_gammaRegion {k : Nat} (hk : k < bytesFor s.len.toNat)
    (hout : audit = true → OutsideAudit s (s.dst.toNat + k)) :
    (complete (gammaEffect audit s)).readByte (s.dst.toNat + k) = (packBits (gammaBits s))[k]?.getD 0#8 := by
  have hlen : s.len.toNat ≠ 0 := by rw [bytesFor] at hk; omega
  rw [readByte_gammaEffect audit hlen, readByte_gammaWrites_outsideAudit hout]
  exact readByte_writeBytes_region s _ (by rwa [packBits_length, gammaBits_length])

/-- A bit of the gamma region that the audit bytes do not win: a bit of the gamma, then zero pad bits. -/
theorem bitAt_gammaEffect {k : Nat} (hk : k < 8 * bytesFor s.len.toNat)
    (hout : audit = true → OutsideAudit s (s.dst.toNat + k / 8)) :
    bitAt (complete (gammaEffect audit s)) s.dst.toNat k = (gammaBits s)[k]?.getD false := by
  have hlen : s.len.toNat ≠ 0 := by rw [bytesFor] at hk; omega
  rw [bitAt, readByte_gammaEffect audit hlen, readByte_gammaWrites_outsideAudit hout]
  exact bitAt_writeBits s _ (gammaBits s) (by rwa [gammaBits_length])

theorem readByte_gammaEffect_auditRegion {k : Nat} (hk : k < 40 * roundsFor s.len.toNat) :
    (complete (gammaEffect true s)).readByte (s.adst.toNat + k) = (auditBytes s)[k]?.getD 0#8 := by
  have hlen : s.len.toNat ≠ 0 := by rw [roundsFor] at hk; omega
  rw [readByte_gammaEffect true hlen]
  exact readByte_writeBytes_region (bs := auditBytes s) _ _ (by rwa [auditBytes_length])

theorem readByte_gammaEffect_outside (hlen : s.len.toNat ≠ 0) {x : Nat}
    (hx : x < s.dst.toNat ∨ s.dst.toNat + bytesFor s.len.toNat ≤ x) (hout : audit = true → OutsideAudit s x) :
    (complete (gammaEffect audit s)).readByte x = s.readByte x := by
  rw [readByte_gammaEffect audit hlen, readByte_gammaWrites_outsideAudit hout]
  refine readByte_writeBits_outside s s.dst.toNat (gammaBits s) x ?_
  rwa [gammaBits_length, ceilDiv_eight]

/-- The bits of the gamma are bits of the outputs of a keystream run (44_gamma.md R195). -/
theorem gammaBits_getElem?_of_run (hkey : KeyLoaded s) {st y : Nat → Nat} (hrun : RunOf s st y) (k : Nat) :
    (gammaBits s)[k]?.getD false = if k < s.len.toNat then (y (k / 64)).testBit (63 - k % 64) else false := by
  split
  next hk =>
    have hword := gammaWords_getElem?_of_run hrun hkey (i := k / 64) (by rw [roundsFor]; omega)
    rw [gammaBits_getElem? s k _ hk hword, Option.getD_some]
  next hk => rw [List.getElem?_eq_none (by rw [gammaBits_length]; omega), Option.getD_none]

end

/-! ### Two states with the same key and length (44_gamma.md R201) -/

/-- The rounds are a function of the key, the LCG state and the length. -/
theorem gammaRun_congr {s s' : State} (ha : s'.lcgA = s.lcgA) (hb : s'.lcgB = s.lcgB) (hs : s'.lcgS = s.lcgS)
    (hp : s'.bbsP = s.bbsP) (hq : s'.bbsQ = s.bbsQ) (hlen : s'.len = s.len) : gammaRun s' = gammaRun s := by
  simp only [gammaRun, bbsModulus, gammaCount, ha, hb, hs, hp, hq, hlen]

theorem gammaWords_congr {s s' : State} (hrun : gammaRun s' = gammaRun s) : gammaWords s' = gammaWords s := by
  rw [gammaWords, hrun]
  rfl

theorem gammaBits_congr {s s' : State} (hrun : gammaRun s' = gammaRun s) (hlen : s'.len = s.len) :
    gammaBits s' = gammaBits s := by
  rw [gammaBits, gammaWords_congr hrun, hlen]
  rfl

/-! ### One request and two in a row (44_gamma.md R202) -/

/-- Rounds run one after another: first some, then the others from the state those left. -/
theorem gammaRounds_add (a b n r q s : Nat) :
    gammaRounds a b n (r + q) s = gammaRounds a b n r s ++ gammaRounds a b n q (gammaState a b n s r) := by
  simp only [gammaRounds_eq, List.range_add, List.map_append, List.map_map, Function.comp_def, gammaState_add]

theorem gammaState_lt (a b n : Nat) {s : Nat} (hs : s < 2 ^ 20) (r : Nat) : gammaState a b n s r < 2 ^ 20 := by
  cases r with
  | zero => exact hs
  | succ r =>
    rw [gammaState_succ]
    exact Nat.mod_lt _ (by decide)

/-- `LCG_S` after `GAMMA` is the state the next round would start from (44_gamma.md R197). -/
theorem gammaEffect_lcgS_toNat (audit : Bool) (s : State) : (gammaEffect audit s).lcgS.toNat =
    gammaState s.lcgA.toNat s.lcgB.toNat (bbsModulus s) s.lcgS.toNat (gammaCount s) := by
  rw [gammaEffect_lcgS, gammaRun_getLast?]
  split
  next hzero => rw [hzero]; rfl
  next hrounds =>
    have hfeedback := gammaState_succ s.lcgA.toNat s.lcgB.toNat (bbsModulus s) s.lcgS.toNat (gammaCount s - 1)
    rw [← gammaLast_eq s hrounds, Nat.sub_add_cancel (Nat.pos_of_ne_zero hrounds)] at hfeedback
    rw [Option.elim_some, BitVec.toNat_ofNat, ← hfeedback, Nat.mod_eq_of_lt (gammaState_lt _ _ _ s.lcgS.isLt _)]

/-- The second of two requests in a row: of `len2` bits, after one of `len1` bits. -/
def nextRequest (audit : Bool) (len1 dst1 adst1 len2 dst2 adst2 : Word) (s : State) : State :=
  request len2 dst2 adst2 (complete (gammaEffect audit (request len1 dst1 adst1 s)))

section
variable {audit : Bool} {len1 dst1 adst1 len2 dst2 adst2 : Word} {s : State}

theorem nextRequest_lcgA : (nextRequest audit len1 dst1 adst1 len2 dst2 adst2 s).lcgA = s.lcgA := gammaEffect_lcgA _ _

theorem nextRequest_lcgB : (nextRequest audit len1 dst1 adst1 len2 dst2 adst2 s).lcgB = s.lcgB := gammaEffect_lcgB _ _

theorem nextRequest_bbsModulus : bbsModulus (nextRequest audit len1 dst1 adst1 len2 dst2 adst2 s) = bbsModulus s :=
  congrArg₂ (fun p q : Word => p.toNat * q.toNat) (gammaEffect_bbsP _ _) (gammaEffect_bbsQ _ _)

/-- The second request starts from the LCG state that the first request's rounds lead to (44_gamma.md R197). -/
theorem nextRequest_lcgS_toNat : (nextRequest audit len1 dst1 adst1 len2 dst2 adst2 s).lcgS.toNat =
    gammaState s.lcgA.toNat s.lcgB.toNat (bbsModulus s) s.lcgS.toNat (gammaCount (request len1 dst1 adst1 s)) :=
  gammaEffect_lcgS_toNat audit (request len1 dst1 adst1 s)

/-- The second request of two that pass passes where the first has run. -/
theorem gammaPasses_nextRequest (h : GammaPasses audit (request len2 dst2 adst2 s)) :
    GammaPasses audit (nextRequest audit len1 dst1 adst1 len2 dst2 adst2 s) :=
  (gammaPasses_request_congr (gammaEffect_cfg _ _) (gammaEffect_bbsP _ _) (gammaEffect_bbsQ _ _) _ _ _).mpr h

variable (hlen1 : len1.toNat % 320 = 0) (hlen : s.len.toNat = len1.toNat + len2.toNat)
include hlen1 hlen

theorem roundsFor_split : roundsFor s.len.toNat = roundsFor len1.toNat + roundsFor len2.toNat := by
  simp only [roundsFor]
  omega

/-- The rounds of one request are those of the two requests that make it up (44_gamma.md R202). -/
theorem gammaRun_split : gammaRun s =
    gammaRun (request len1 dst1 adst1 s) ++ gammaRun (nextRequest audit len1 dst1 adst1 len2 dst2 adst2 s) := by
  have hcount : gammaCount s = gammaCount (request len1 dst1 adst1 s) +
      gammaCount (nextRequest audit len1 dst1 adst1 len2 dst2 adst2 s) := by
    simp only [gammaCount_eq_roundsFor]
    exact roundsFor_split hlen1 hlen
  rw [gammaRun, hcount, gammaRounds_add, gammaRun, gammaRun, nextRequest_lcgA, nextRequest_lcgB, nextRequest_bbsModulus,
    nextRequest_lcgS_toNat]
  rfl

theorem gammaWords_split : gammaWords s =
    gammaWords (request len1 dst1 adst1 s) ++ gammaWords (nextRequest audit len1 dst1 adst1 len2 dst2 adst2 s) := by
  rw [gammaWords, gammaRun_split hlen1 hlen, List.flatMap_append]
  rfl

/-- The first request's rounds are whole, so its gamma is used up before the second's begins. -/
theorem gammaBits_split : gammaBits s =
    gammaBits (request len1 dst1 adst1 s) ++ gammaBits (nextRequest audit len1 dst1 adst1 len2 dst2 adst2 s) := by
  have hwhole : ((gammaWords (request len1 dst1 adst1 s)).flatMap (be Config.outBits)).length = len1.toNat := by
    rw [outBits_length, gammaWords_length, gammaCount_eq]
    simp only [request]
    omega
  rw [gammaBits, gammaWords_split hlen1 hlen, List.flatMap_append, hlen, ← hwhole, List.take_length_add_append]
  exact congrArg (· ++ _) (List.take_of_length_le hwhole.le).symm

theorem auditBytes_split : auditBytes s =
    auditBytes (request len1 dst1 adst1 s) ++ auditBytes (nextRequest audit len1 dst1 adst1 len2 dst2 adst2 s) := by
  rw [auditBytes, gammaWords_split hlen1 hlen, List.flatMap_append]
  rfl

/-- The bits of the first request, where the audit bytes of neither command win; the regions of the second do not
matter. -/
theorem bitAt_gammaEffect_first {k : Nat} (hk : k < len1.toNat)
    (hout : audit = true → OutsideAudit s (s.dst.toNat + k / 8) ∧
      OutsideAudit (request len1 dst1 adst1 s) (dst1.toNat + k / 8)) :
    bitAt (complete (gammaEffect audit s)) s.dst.toNat k =
      bitAt (complete (gammaEffect audit (request len1 dst1 adst1 s))) dst1.toNat k := by
  have hfirst := bitAt_gammaEffect (s := request len1 dst1 adst1 s) (lt_bytesFor hk) fun h => (hout h).2
  have hlength : (gammaBits (request len1 dst1 adst1 s)).length = len1.toNat := gammaBits_length _
  have hsplit := gammaBits_split (audit := audit) (dst1 := dst1) (adst1 := adst1) (dst2 := 0) (adst2 := 0) hlen1 hlen
  rw [bitAt_gammaEffect (lt_bytesFor (by omega)) fun h => (hout h).1, hsplit,
    List.getElem?_append_left (hk.trans_eq hlength.symm)]
  exact hfirst.symm

/-- The bits of the second request. -/
theorem bitAt_gammaEffect_second {k : Nat} (hk : k < len2.toNat)
    (hout : audit = true → OutsideAudit s (s.dst.toNat + (len1.toNat + k) / 8) ∧
      OutsideAudit (request len2 dst2 adst2 s) (dst2.toNat + k / 8)) :
    bitAt (complete (gammaEffect audit s)) s.dst.toNat (len1.toNat + k) =
      bitAt (complete (gammaEffect audit (nextRequest audit len1 dst1 adst1 len2 dst2 adst2 s))) dst2.toNat k := by
  have hsecond := bitAt_gammaEffect (s := nextRequest audit len1 dst1 adst1 len2 dst2 adst2 s) (lt_bytesFor hk)
    fun h => (hout h).2
  have hlength : (gammaBits (request len1 dst1 adst1 s)).length = len1.toNat := gammaBits_length _
  rw [bitAt_gammaEffect (lt_bytesFor (by omega)) fun h => (hout h).1, gammaBits_split hlen1 hlen, ← hlength,
    List.getElem?_append_right (Nat.le_add_right _ _), Nat.add_sub_cancel_left]
  exact hsecond.symm

/-- The audit bytes of the first request, wherever the regions of the second lie. -/
theorem readByte_auditRegion_first {k : Nat} (hk : k < 40 * roundsFor len1.toNat) :
    (complete (gammaEffect true s)).readByte (s.adst.toNat + k) =
      (complete (gammaEffect true (request len1 dst1 adst1 s))).readByte (adst1.toNat + k) := by
  have hrounds := roundsFor_split hlen1 hlen
  have hfirst := readByte_gammaEffect_auditRegion (s := request len1 dst1 adst1 s) hk
  have hlength : (auditBytes (request len1 dst1 adst1 s)).length = 40 * roundsFor len1.toNat := auditBytes_length _
  have hsplit := auditBytes_split (audit := true) (dst1 := dst1) (adst1 := adst1) (dst2 := 0) (adst2 := 0) hlen1 hlen
  rw [readByte_gammaEffect_auditRegion (by omega), hsplit, List.getElem?_append_left (hk.trans_eq hlength.symm)]
  exact hfirst.symm

/-- The audit bytes of the second request. -/
theorem readByte_auditRegion_second {k : Nat} (hk : k < 40 * roundsFor len2.toNat) :
    (complete (gammaEffect true s)).readByte (s.adst.toNat + 40 * roundsFor len1.toNat + k) =
      (complete (gammaEffect true (nextRequest true len1 dst1 adst1 len2 dst2 adst2 s))).readByte (adst2.toNat + k) := by
  have hrounds := roundsFor_split hlen1 hlen
  have hsecond := readByte_gammaEffect_auditRegion (s := nextRequest true len1 dst1 adst1 len2 dst2 adst2 s) hk
  have hlength : (auditBytes (request len1 dst1 adst1 s)).length = 40 * roundsFor len1.toNat := auditBytes_length _
  rw [Nat.add_assoc, readByte_gammaEffect_auditRegion (by omega), auditBytes_split hlen1 hlen, ← hlength,
    List.getElem?_append_right (Nat.le_add_right _ _), Nat.add_sub_cancel_left]
  exact hsecond.symm

/-- A register that takes its value from the last round takes it from the second request's, and where that runs no round
it keeps what the first request left. -/
theorem gammaRun_last_split {β : Type} {before between : β} {f : GammaRound → β}
    (h : between = (gammaRun (request len1 dst1 adst1 s)).getLast?.elim before f) :
    (gammaRun s).getLast?.elim before f =
      (gammaRun (nextRequest audit len1 dst1 adst1 len2 dst2 adst2 s)).getLast?.elim between f := by
  rw [gammaRun_split hlen1 hlen, List.getLast?_append, h]
  cases (gammaRun (nextRequest audit len1 dst1 adst1 len2 dst2 adst2 s)).getLast? <;> rfl

theorem gammaEffect_lcgS_split :
    (gammaEffect audit s).lcgS = (gammaEffect audit (nextRequest audit len1 dst1 adst1 len2 dst2 adst2 s)).lcgS := by
  rw [gammaEffect_lcgS, gammaEffect_lcgS]
  exact gammaRun_last_split hlen1 hlen (gammaEffect_lcgS audit (request len1 dst1 adst1 s))

theorem gammaEffect_bbsN_split :
    (gammaEffect audit s).bbsN = (gammaEffect audit (nextRequest audit len1 dst1 adst1 len2 dst2 adst2 s)).bbsN := by
  rw [gammaEffect_bbsN, gammaEffect_bbsN, nextRequest_bbsModulus]
  exact gammaRun_last_split hlen1 hlen (gammaEffect_bbsN audit (request len1 dst1 adst1 s))

theorem gammaEffect_bbsX_split :
    (gammaEffect audit s).bbsX = (gammaEffect audit (nextRequest audit len1 dst1 adst1 len2 dst2 adst2 s)).bbsX := by
  rw [gammaEffect_bbsX, gammaEffect_bbsX]
  exact gammaRun_last_split hlen1 hlen (gammaEffect_bbsX audit (request len1 dst1 adst1 s))

theorem gammaEffect_bbsValid_split :
    (gammaEffect audit s).bbsValid =
      (gammaEffect audit (nextRequest audit len1 dst1 adst1 len2 dst2 adst2 s)).bbsValid := by
  rw [gammaEffect_bbsValid, gammaEffect_bbsValid]
  exact gammaRun_last_split hlen1 hlen (gammaEffect_bbsValid audit (request len1 dst1 adst1 s))

/-- The rounds of the two requests add up. -/
theorem gammaEffect_res0_split : (gammaEffect audit s).res0.toNat =
    (gammaEffect audit (request len1 dst1 adst1 s)).res0.toNat +
      (gammaEffect audit (nextRequest audit len1 dst1 adst1 len2 dst2 adst2 s)).res0.toNat := by
  rw [gammaEffect_res0_toNat, gammaEffect_res0_toNat, gammaEffect_res0_toNat]
  exact roundsFor_split hlen1 hlen

/-- A second request with a round leaves the last seed sum; one without writes 0 (44_gamma.md R192). -/
theorem gammaEffect_res1_split (hlen2 : len2.toNat ≠ 0) :
    (gammaEffect audit s).res1 = (gammaEffect audit (nextRequest audit len1 dst1 adst1 len2 dst2 adst2 s)).res1 := by
  have hrounds := gammaCount_ne_zero (nextRequest audit len1 dst1 adst1 len2 dst2 adst2 s) hlen2
  rw [gammaEffect_res1, gammaEffect_res1, gammaRun_split hlen1 hlen, List.getLast?_append, gammaRun_getLast?,
    if_neg hrounds]
  rfl

end

end Sys2Proof.Machine
end

section
/-! ## The statements of 44_gamma.md -/

namespace Sys2Proof.GammaChapter

open Sys2Proof.Machine Sys2Proof.Claims

/-- Settles O49. Without a round no check can fail, and the effect is the two results. -/
theorem gammaZeroLength : Obligations.GammaZeroLength := by
  intro s audit hlen
  rw [exec_gamma_of_passes (.inl hlen), gammaEffect_of_zeroLength hlen]
  rfl

/-- Settles O50, region by region in their order. -/
theorem gammaRegionFaults : Obligations.GammaRegionFaults := fun _ audit hlen hkey =>
  ⟨fun hdst => exec_of_commandFault_some (i := .gamma audit) (gammaFault_gammaRegion hlen hkey hdst),
    fun hdst hadst => exec_of_commandFault_some (i := .gamma true) (gammaFault_auditRegion hlen hkey hdst hadst)⟩

/-- Settles O51. The model's own rounds are a keystream run (`runOf_gammaState`), and the effect ends as the last round of
any such run does (`gammaEffect_of_run`). -/
theorem gammaEndState : Obligations.GammaEndState := by
  intro s audit hready
  obtain ⟨hlen, hkey, -, -⟩ := id hready
  refine ⟨⟨_, _, runOf_gammaState hkey⟩, fun st y hrun => ⟨_, exec_gamma_of_ready hready, ?_⟩⟩
  exact congrArg finished (gammaEffect_of_run hkey audit hlen hrun)

/-- Settles O52. The audit bytes are written last, so they are read back; the gamma is read back outside them, and what
neither region covers is as before. -/
theorem gammaWritesKeystream : Obligations.GammaWritesKeystream := by
  intro s audit st y hready hrun
  obtain ⟨hlen, hkey, -, -⟩ := id hready
  refine ⟨_, exec_gamma_of_ready hready, ?_, fun k hk hout => ?_, fun x => readByte_gammaEffect_outside hlen⟩
  · rintro rfl i j hi hj
    rw [readByte_gammaEffect true hlen]
    exact readByte_gammaWrites_audit (gammaWords_getElem?_of_run hrun hkey hi) hj
  · rw [bitAt_gammaEffect hk hout, gammaBits_getElem?_of_run hkey hrun]

/-- Settles O54. The rounds are equal (`gammaRun_congr`), and registers and bytes are functions of the rounds and the
length. -/
theorem gammaIsDeterministic : Obligations.GammaIsDeterministic := by
  intro s s' audit hready hready' ha hb hs hp hq hlen
  have hrun := gammaRun_congr ha hb hs hp hq hlen
  have hn : bbsModulus s' = bbsModulus s := by rw [bbsModulus, hp, hq]; rfl
  obtain ⟨hnonzero, -, -, -⟩ := id hready
  have hlast : (gammaRun s).getLast? = some (gammaLast s) := by
    rw [gammaRun_getLast?, if_neg (gammaCount_ne_zero s hnonzero)]
  refine ⟨_, _, exec_gamma_of_ready hready, exec_gamma_of_ready hready', ?_, ?_, ?_, ?_, ?_, ?_,
    gammaEffect_entropy _ _, fun k hk hout => ?_, ?_⟩
  · simp [gammaEffect_lcgS, hrun, hlast]
  · simp [gammaEffect_bbsN, hrun, hlast, hn]
  · simp [gammaEffect_bbsX, hrun, hlast]
  · simp [gammaEffect_bbsValid, hrun, hlast]
  · simp [gammaEffect_res0, hlen]
  · simp [gammaEffect_res1, hrun]
  · rw [readByte_gammaEffect_gammaRegion hk fun h => (hout h).1,
      readByte_gammaEffect_gammaRegion (by rwa [hlen]) fun h => (hout h).2, gammaBits_congr hrun hlen]
  · rintro rfl k hk
    rw [readByte_gammaEffect_auditRegion hk, readByte_gammaEffect_auditRegion (by rwa [hlen]), auditBytes,
      gammaWords_congr hrun]
    rfl

/-- Settles O55. The rounds of the one request are those of the two in a row (`gammaRun_split`), and with them the gamma,
the audit bytes and the last round, which the end state is made from. -/
theorem gammaSplitsAtWholeRounds : Obligations.GammaSplitsAtWholeRounds := by
  intro s audit len1 len2 dst1 dst2 adst1 adst2 hlen1 hlen hpass hpass1 hpass2
  refine ⟨_, _, _, exec_gamma_of_passes hpass, exec_gamma_of_passes hpass1,
    exec_gamma_of_passes (gammaPasses_nextRequest hpass2), gammaEffect_lcgS_split hlen1 hlen,
    gammaEffect_bbsN_split hlen1 hlen, gammaEffect_bbsX_split hlen1 hlen, gammaEffect_bbsValid_split hlen1 hlen,
    gammaEffect_res0_split hlen1 hlen, gammaEffect_res1_split hlen1 hlen,
    fun k hk hout => bitAt_gammaEffect_first hlen1 hlen hk hout,
    fun k hk hout => bitAt_gammaEffect_second hlen1 hlen hk hout, ?_⟩
  rintro rfl
  exact ⟨fun k hk => readByte_auditRegion_first hlen1 hlen hk, fun k hk => readByte_auditRegion_second hlen1 hlen hk⟩

end Sys2Proof.GammaChapter
end

section
/-! ## The two ends of a running command, and the unit while a fault is unacknowledged (60_exceptions.md R214 to R220) -/

namespace Sys2Proof.Machine

/-! ### Every step answers (60_exceptions.md R210, R228) -/

theorem exec_total (i : Instr) (s : State) : ∃ t, exec i s = .next t := ⟨_, exec_eq_conclude i s⟩

theorem sequencerStep_total (s : State) : ∃ t, sequencerStep s = .next t := by
  cases hphase : s.phase with
  | idle => exact ⟨s, by rw [sequencerStep, hphase]⟩
  | busy v =>
    cases hdecode : decode v with
    | ok i =>
      rw [sequencerStep_of_ok hphase hdecode]
      exact exec_total i s
    | error e => exact ⟨_, sequencerStep_of_error hphase hdecode⟩

theorem step_total (s : State) : ∃ t, step s = .next t := by
  rw [step]
  cases nextTurn s with
  | host => exact ⟨_, rfl⟩
  | sequencer => exact sequencerStep_total (popTurn s)
  | reset => exact ⟨_, rfl⟩

/-! ### The sequencer on a running command -/

/-- The sequencer's step of a running value completes its command, takes the fault the command's checks name, or takes the
fault of a value that does not decode. -/
theorem step_cases_of_running {s t : State} {v : Word} (hphase : s.phase = .busy v) (hturn : nextTurn s = .sequencer)
    (hstep : step s = .next t) :
    (∃ i, decode v = .ok i ∧ t = complete (commandEffect i (popTurn s))) ∨
      (∃ i f, decode v = .ok i ∧ commandFault i (popTurn s) = some f ∧ t = takeFault f (afterDraws i (popTurn s))) ∨
      ∃ e, decode v = .error e ∧ t = takeFault (illegalCommand v e) (popTurn s) := by
  obtain ⟨-, hsequencer⟩ := StateChapter.stepRunsDecodedCommand s v hphase
  obtain ⟨hlegal, hillegal⟩ := hsequencer hturn
  cases hdecode : decode v with
  | ok i =>
    rw [hlegal i hdecode] at hstep
    rcases exec_cases hstep with ⟨f, hfault, ht⟩ | ⟨-, ht⟩
    · exact .inr (.inl ⟨i, f, rfl, hfault, ht⟩)
    · exact .inl ⟨i, rfl, ht⟩
  | error e =>
    rw [hillegal e hdecode] at hstep
    exact .inr (.inr ⟨e, rfl, (Host.Outcome.next.inj hstep).symm⟩)

/-! ### The host while `ERR` = 1 (60_exceptions.md R219, R220) -/

/-- In a sound state no command runs while `ERR` = 1 (10_state.md R29). -/
theorem State.Inv.idle_of_err {s : State} (hi : s.Inv) (herr : s.err = true) : s.phase = .idle := by
  cases hphase : s.phase with
  | idle => rfl
  | busy w =>
    obtain ⟨-, -, hzero⟩ := hi.running w hphase
    rw [herr] at hzero
    cases hzero

/-- While `ERR` = 1 the host starts no command (10_state.md R29). -/
theorem HostEffect.phase_of_err {s u : State} (h : HostEffect s u) (herr : s.err = true) : u.phase = s.phase := by
  cases h with
  | accepted v idle noErr =>
    rw [herr] at noErr
    cases noErr
  | operand r v => exact writeOperand_phase r v s
  | _ => rfl

/-- While `ERR` = 1 the host does not change `CMD` (10_state.md R29, R30). -/
theorem HostEffect.cmd_of_err {s u : State} (h : HostEffect s u) (herr : s.err = true) : u.cmd = s.cmd := by
  rcases h.cmd_cases with hsame | ⟨-, hzero, -⟩
  · exact hsame
  · rw [herr] at hzero
    cases hzero

/-- No access of the host draws (10_state.md R50). -/
theorem HostEffect.entropy {s u : State} (h : HostEffect s u) : u.entropy = s.entropy := by
  cases h with
  | operand r v => exact writeOperand_entropy r v s
  | _ => rfl

end Sys2Proof.Machine
end

section
/-! ## The statements of 60_exceptions.md -/

namespace Sys2Proof.ExceptionsChapter

open Sys2Proof.Machine Sys2Proof.Claims

/-- Settles O7. A running command starts with `DONE` and `ERR` 0; its completion sets the one, its fault the other, and
neither writes `CMD`. -/
theorem everyCommandEnds : Obligations.EveryCommandEnds := by
  refine ⟨step_total, fun s t v hi hphase hturn hstep => ?_⟩
  obtain ⟨hcmd, hdone, herr⟩ := hi.running v hphase
  rcases step_cases_of_running hphase hturn hstep with ⟨i, -, rfl⟩ | ⟨i, f, -, -, rfl⟩ | ⟨e, -, rfl⟩
  · exact ⟨rfl, (commandEffect_err i (popTurn s)).trans herr, (commandEffect_cmd i (popTurn s)).trans hcmd⟩
  · exact ⟨rfl, by simp [hdone], (afterDraws_cmd i (popTurn s)).trans hcmd⟩
  · exact ⟨rfl, by simp [hdone], hcmd⟩

/-- Settles O14. With `ERR` = 1 the phase is `Idle`, so the sequencer does nothing, and the host can start no command and
writes none of the registers named. -/
theorem unacknowledgedFaultIsKept : Obligations.UnacknowledgedFaultIsKept := by
  intro s t hi herr hreset hstep
  have hidle := hi.idle_of_err herr
  rcases step_cases hstep with
    ⟨-, rfl⟩ | ⟨hturn, -⟩ | ⟨-, -, rfl⟩ | ⟨v, i, -, hbusy, -, -⟩ | ⟨v, e, -, hbusy, -, -⟩
  · obtain ⟨u, host, hhost, hu⟩ := hostStep_hostEffect (popTurn s)
    obtain ⟨hvalid, hcause, hinfo0, hinfo1, hres0, hres1, hbbsN, hbbsX⟩ := hu.sameResults
    rw [hhost]
    exact ⟨(hu.phase_of_err herr).trans hidle, hu.cmd_of_err herr, hcause, hinfo0, hinfo1, hres0, hres1, hbbsN, hbbsX,
      hvalid, hu.entropy⟩
  · exact absurd hturn hreset
  · exact ⟨hidle, rfl, rfl, rfl, rfl, rfl, rfl, rfl, rfl, rfl, rfl⟩
  · exact absurd (hidle.symm.trans hbusy) nofun
  · exact absurd (hidle.symm.trans hbusy) nofun

/-- Settles O56. A completion leaves `ERR` 0, so the step took a fault: in the state of the command but for the draws, which
`PRIME_GEN` alone consumes, or in the state of the value that does not decode. -/
theorem faultsArePrecise : Obligations.FaultsArePrecise := by
  intro s t v herr hphase hturn hstep hfaulted
  rcases step_cases_of_running hphase hturn hstep with ⟨i, -, rfl⟩ | ⟨i, f, hdecode, hfault, rfl⟩ | ⟨e, hdecode, rfl⟩
  · rw [complete_err, commandEffect_err, popTurn_err, herr] at hfaulted
    cases hfaulted
  · refine ⟨?_, fun hdrawn => ?_, .inr ⟨i, hdecode, commandFault_raises hfault⟩⟩
    · rw [afterDraws_frame]
      rfl
    · obtain ⟨rounds, rfl⟩ := (afterDraws_entropy_cases i (popTurn s)).resolve_left hdrawn
      exact ⟨rounds, hdecode⟩
  · exact ⟨rfl, fun hdrawn => absurd rfl hdrawn, .inl ⟨rfl, e, hdecode⟩⟩

end Sys2Proof.ExceptionsChapter
end

section
/-! ## The reset input (70_reset_and_hazards.md R240 to R242) -/

namespace Sys2Proof.Machine

theorem step_of_reset {s : State} (h : nextTurn s = .reset) : step s = .next (unitReset (popTurn s)) := by
  rw [step, h]
  rfl

/-- What the reset input leaves alone is in no register. -/
theorem unitReset_reg (r : Reg) (s : State) : (unitReset s).reg r = State.reset.reg r := by
  cases r <;> rfl

/-- After the reset input every index reads as right after reset (10_state.md R47, 70_reset_and_hazards.md R240). -/
theorem regRead_unitReset (index : Byte) (s : State) :
    regRead index (unitReset s) = ((regRead index State.reset).1, unitReset s) := by
  cases hat : regAt index with
  | none => rw [regRead_unmapped hat, regRead_unmapped hat]
  | some r =>
    rw [regRead_specified hat (.inl (State.busy_of_idle rfl)), regRead_specified hat (.inl (State.busy_of_idle rfl)),
      unitReset_reg]

/-- The reset input makes every LRAM byte unspecified anew (70_reset_and_hazards.md R242). -/
theorem unitReset_readByte (s : State) (a : Nat) : (unitReset s).readByte a = Config.lramReset (s.epoch + 1) a := rfl

end Sys2Proof.Machine
end

section
/-! ## The statements of 70_reset_and_hazards.md -/

namespace Sys2Proof.ResetChapter

open Sys2Proof.Machine Sys2Proof.Claims

/-- Settles O9. After the reset input every register reads as in the reset state, whose reads are the table's values. -/
theorem resetInputResetsUnit : Obligations.ResetInputResetsUnit := by
  intro s hturn
  obtain ⟨htable, -⟩ := StateChapter.resetStateReadsTable
  have hreads : ∀ index ∈ mappedIndices,
      regRead index (unitReset (popTurn s)) = (resetValue index, unitReset (popTurn s)) := by
    intro index hindex
    rw [regRead_unitReset, htable index hindex]
  exact ⟨unitReset (popTurn s), step_of_reset hturn, rfl, rfl, hreads, unitReset_readByte (popTurn s), rfl, rfl, rfl, rfl⟩

end Sys2Proof.ResetChapter
end
